-- ==== Sys2Proof/Word.lean ====
section
/-! DEFINITION. Bytes and 16-byte lane values (00_scope R8 to R10). -/

namespace Sys2Proof

/-- A byte, 8 bits (R9). -/
abbrev Byte := BitVec 8

/-- A `Byte16`, sixteen bytes. Byte `j` stands at bits `8j+7 .. 8j`, bit 0 least significant (R9). -/
abbrev Byte16 := BitVec 128

/-- `ZERO16`, sixteen zero bytes (R9). -/
abbrev zero16 : Byte16 := 0#128

end Sys2Proof
end

