-- ==== Sys2Proof/Syntax.lean ====
section
/-! DEFINITION. The micro-operations and the host commands, one constructor per row of spec/opcode_table.json. -/

namespace Sys2Proof

/-- One row of the opcode table each (30_encoding R76, R77, R78). `lane` and `cnt` are the word's fields 11:6 and 5:0
(R70). -/
inductive Instr where
  /-- `LDSEED`, R110 -/
  | ldseed
  /-- `XORD lane, cnt`, R111 -/
  | xord (lane cnt : BitVec 6)
  /-- `XORP lane`, R112 -/
  | xorp (lane : BitVec 6)
  /-- `RNDF lane, cnt`, R100 -/
  | rndf (lane cnt : BitVec 6)
  /-- `RNDZ lane, cnt`, R102 -/
  | rndz (lane cnt : BitVec 6)
  /-- `RNDD lane, cnt`, R103 -/
  | rndd (lane cnt : BitVec 6)
  /-- `RNDK lane, cnt`, R101 -/
  | rndk (lane cnt : BitVec 6)
  /-- `FOLD`, R120 -/
  | fold
  /-- `LENX`, R121 -/
  | lenx
  /-- `OUT`, R122 -/
  | out
  /-- a word with `op = 0x0`, R77; `rest` is the word's bits 11:0 -/
  | illegalOp0 (rest : BitVec 12)
  /-- a word with `op = 0xB`, R77 -/
  | reservedOpB (rest : BitVec 12)
  /-- a word with `op = 0xC`, R77 -/
  | reservedOpC (rest : BitVec 12)
  /-- a word with `op = 0xD`, R77 -/
  | reservedOpD (rest : BitVec 12)
  /-- a word with `op = 0xE`, R77 -/
  | reservedOpE (rest : BitVec 12)
  /-- a word with `op = 0xF`, R77 -/
  | reservedOpF (rest : BitVec 12)
  /-- a `CTRL` word with bit 0 set, R78, R171: `START_OPT`, and after it `START_REF` when bit 1 (`withRef`) is set
  too; `ignored` is bits 31:2 -/
  | startOpt (withRef : Bool) (ignored : BitVec 30)
  /-- a `CTRL` word with bit 1 set and bit 0 clear, R78, R171: `START_REF` alone; `ignored` is bits 31:2 -/
  | startRef (ignored : BitVec 30)
  deriving DecidableEq, Repr

/-- The width of the instruction's word: 16 for a micro-operation (R70), 32 for a host command (R78). -/
def Instr.nbits : Instr → Nat
  | .startOpt _ _ => 32
  | .startRef _ => 32
  | .ldseed => 16
  | .xord _ _ => 16
  | .xorp _ => 16
  | .rndf _ _ => 16
  | .rndz _ _ => 16
  | .rndd _ _ => 16
  | .rndk _ _ => 16
  | .fold => 16
  | .lenx => 16
  | .out => 16
  | .illegalOp0 _ => 16
  | .reservedOpB _ => 16
  | .reservedOpC _ => 16
  | .reservedOpD _ => 16
  | .reservedOpE _ => 16
  | .reservedOpF _ => 16

end Sys2Proof
end

