-- ==== Sys2Proof/WellFormed.lean ====
section
/-! DEFINITION. Which instructions have a word (30_encoding R71, R76), and which are legal on an instance with `L` lanes
(R77). -/

namespace Sys2Proof

/-- The instruction is the meaning of some word: a ULC word needs `cnt != 0` (R76). Every field value of the other rows
is encodable. -/
def Instr.wellFormed : Instr → Bool
  | .xord _ cnt => cnt != 0#6
  | .rndf _ cnt => cnt != 0#6
  | .rndz _ cnt => cnt != 0#6
  | .rndd _ cnt => cnt != 0#6
  | .rndk _ cnt => cnt != 0#6
  | .ldseed => true
  | .xorp _ => true
  | .fold => true
  | .lenx => true
  | .out => true
  | .illegalOp0 _ => true
  | .reservedOpB _ => true
  | .reservedOpC _ => true
  | .reservedOpD _ => true
  | .reservedOpE _ => true
  | .reservedOpF _ => true
  | .startOpt _ _ => true
  | .startRef _ => true

/-- `lane .. lane+cnt-1` is a non-empty range of lanes of an instance with `L` lanes (R71, R77). -/
def rangeLegal (L : Nat) (lane cnt : BitVec 6) : Bool :=
  cnt != 0#6 && decide (lane.toNat + cnt.toNat ≤ L)

/-- The instruction is a micro-operation that R77 does not call illegal on an instance with `L` lanes. -/
def Instr.legalUop (L : Nat) : Instr → Bool
  | .xord lane cnt => rangeLegal L lane cnt
  | .rndf lane cnt => rangeLegal L lane cnt
  | .rndz lane cnt => rangeLegal L lane cnt
  | .rndd lane cnt => rangeLegal L lane cnt
  | .rndk lane cnt => rangeLegal L lane cnt
  | .xorp lane => decide (lane.toNat + 1 ≤ L)
  | .ldseed => true
  | .fold => true
  | .lenx => true
  | .out => true
  | .illegalOp0 _ => false
  | .reservedOpB _ => false
  | .reservedOpC _ => false
  | .reservedOpD _ => false
  | .reservedOpE _ => false
  | .reservedOpF _ => false
  | .startOpt _ _ => false
  | .startRef _ => false

end Sys2Proof
end

