-- ==== Sys2Proof/Decode.lean ====
section
/-! DEFINITION. The decoder of micro-operation words and of `CTRL` words, total on every word, and the encoder
(30_encoding R70 to R78). -/

namespace Sys2Proof

/-- Why a word is no instruction. For a micro-operation word each of these is `ILLEGAL_UOP` (R77). -/
inductive DecodeError where
  /-- a U0 opcode with a non-zero `lane` or `cnt` field (R71, R77) -/
  | fieldNotZero
  /-- `XORP` with `cnt != 1` (R71, R77) -/
  | countNotOne
  /-- a ULC opcode with `cnt = 0` (R76, R77) -/
  | countZero
  /-- a `CTRL` word with neither start bit set: no command (R78) -/
  | noCommand
  deriving DecidableEq, Repr

/-- `op`, bits 15:12 (R70). -/
def opField (w : BitVec 16) : BitVec 4 := w.extractLsb' 12 4

/-- `lane`, bits 11:6 (R70). -/
def laneField (w : BitVec 16) : BitVec 6 := w.extractLsb' 6 6

/-- `cnt`, bits 5:0 (R70). -/
def cntField (w : BitVec 16) : BitVec 6 := w.extractLsb' 0 6

/-- Bits 11:0. -/
def restField (w : BitVec 16) : BitVec 12 := w.extractLsb' 0 12

/-- Format U0: both fields must be 0 (R71). -/
def decodeU0 (w : BitVec 16) (i : Instr) : Except DecodeError Instr :=
  if restField w = 0#12 then .ok i else .error .fieldNotZero

/-- Format UL: `cnt` must be 1 (R71). -/
def decodeUL (w : BitVec 16) (i : BitVec 6 → Instr) : Except DecodeError Instr :=
  if cntField w = 1#6 then .ok (i (laneField w)) else .error .countNotOne

/-- Format ULC: `cnt` must not be 0 (R71, R76); whether the lanes exist depends on `L` and is the datapath's check. -/
def decodeULC (w : BitVec 16) (i : BitVec 6 → BitVec 6 → Instr) : Except DecodeError Instr :=
  if cntField w = 0#6 then .error .countZero else .ok (i (laneField w) (cntField w))

/-- The opcode map (R76, R77). -/
def decodeWord (w : BitVec 16) : Except DecodeError Instr :=
  match (opField w).toNat with
  | 0x0 => .ok (.illegalOp0 (restField w))
  | 0x1 => decodeU0 w .ldseed
  | 0x2 => decodeULC w .xord
  | 0x3 => decodeUL w .xorp
  | 0x4 => decodeULC w .rndf
  | 0x5 => decodeULC w .rndz
  | 0x6 => decodeULC w .rndd
  | 0x7 => decodeULC w .rndk
  | 0x8 => decodeU0 w .fold
  | 0x9 => decodeU0 w .lenx
  | 0xA => decodeU0 w .out
  | 0xB => .ok (.reservedOpB (restField w))
  | 0xC => .ok (.reservedOpC (restField w))
  | 0xD => .ok (.reservedOpD (restField w))
  | 0xE => .ok (.reservedOpE (restField w))
  | _ => .ok (.reservedOpF (restField w))

/-- A word written to `CTRL` (R78): bit 0 `START_OPT`, bit 1 `START_REF`, combinable; bits 31:2 ignored. -/
def decodeCommand (v : BitVec 32) : Except DecodeError Instr :=
  if v.getLsbD 0 then .ok (.startOpt (v.getLsbD 1) (v.extractLsb' 2 30))
  else if v.getLsbD 1 then .ok (.startRef (v.extractLsb' 2 30))
  else .error .noCommand

/-- The instruction whose `nbits` bits are `w`: a micro-operation word or a host command word. -/
def decodeTableWord (nbits w : Nat) : Option Instr :=
  if nbits = 16 then (decodeWord (BitVec.ofNat 16 w)).toOption
  else if nbits = 32 then (decodeCommand (BitVec.ofNat 32 w)).toOption
  else none

/-- `op * 4096 + lane * 64 + cnt` (R76). -/
def uopCode (op : Nat) (lane cnt : BitVec 6) : Nat := op * 4096 + lane.toNat * 64 + cnt.toNat

/-- The word of a well-formed instruction, as a number. -/
def encode : Instr → Nat
  | .ldseed => uopCode 0x1 0 0
  | .xord lane cnt => uopCode 0x2 lane cnt
  | .xorp lane => uopCode 0x3 lane 1
  | .rndf lane cnt => uopCode 0x4 lane cnt
  | .rndz lane cnt => uopCode 0x5 lane cnt
  | .rndd lane cnt => uopCode 0x6 lane cnt
  | .rndk lane cnt => uopCode 0x7 lane cnt
  | .fold => uopCode 0x8 0 0
  | .lenx => uopCode 0x9 0 0
  | .out => uopCode 0xA 0 0
  | .illegalOp0 rest => rest.toNat
  | .reservedOpB rest => 0xB000 + rest.toNat
  | .reservedOpC rest => 0xC000 + rest.toNat
  | .reservedOpD rest => 0xD000 + rest.toNat
  | .reservedOpE rest => 0xE000 + rest.toNat
  | .reservedOpF rest => 0xF000 + rest.toNat
  | .startOpt withRef ignored => ignored.toNat * 4 + (if withRef then 2 else 0) + 1
  | .startRef ignored => ignored.toNat * 4 + 2

/-- The 16-bit word a sequencer sends its datapath for a micro-operation (R70). -/
def uopWord (i : Instr) : BitVec 16 := BitVec.ofNat 16 (encode i)

end Sys2Proof
end

