-- ==== Sys2Proof/Machine/Bytes.lean ====
section
/-! DEFINITION. Byte order: byte `j` of a `Byte16`, building one from bytes, and little-endian numbers (00_scope R9, R10,
R11). -/

namespace Sys2Proof.Machine

/-- `v[j]`: bits `8j+7 .. 8j` (R9). -/
def byteAt (v : Byte16) (j : Nat) : Byte := v.extractLsb' (8 * j) 8

/-- The `Byte16` whose byte `j` is the `j`-th of `bs`, bytes past the end of `bs` being `0x00`: `zext16` (R11). -/
def zext16 : List Byte → Byte16
  | [] => zero16
  | b :: bs => (zext16 bs <<< 8) ||| b.setWidth 128

/-- `LE64(n)`: byte `j` is `(n div 256^j) mod 256` (R10). -/
def le64 (n : Nat) : List Byte := (List.range 8).map fun j => BitVec.ofNat 8 (n / 256 ^ j)

end Sys2Proof.Machine
end

