-- ==== Sys2Proof/Machine/Aes.lean ====
section
/-! DEFINITION. The AES round (40_aes_round_ops R90 to R97). -/

namespace Sys2Proof.Machine

/-- The rows of R93's table, row `r` for the inputs `rx`. Each number is written as the row is: column 0 leftmost. -/
def sboxRows : List (BitVec 128) := [
  0x637c777bf26b6fc53001672bfed7ab76, 0xca82c97dfa5947f0add4a2af9ca472c0,
  0xb7fd9326363ff7cc34a5e5f171d83115, 0x04c723c31896059a071280e2eb27b275,
  0x09832c1a1b6e5aa0523bd6b329e32f84, 0x53d100ed20fcb15b6acbbe394a4c58cf,
  0xd0efaafb434d338545f9027f503c9fa8, 0x51a3408f929d38f5bcb6da2110fff3d2] ++ [
  0xcd0c13ec5f974417c4a77e3d645d1973, 0x60814fdc222a908846eeb814de5e0bdb,
  0xe0323a0a4906245cc2d3ac629195e479, 0xe7c8376d8dd54ea96c56f4ea657aae08,
  0xba78252e1ca6b4c6e8dd741f4bbd8b8a, 0x703eb5664803f60e613557b986c11d9e,
  0xe1f8981169d98e949b1e87e9ce5528df, 0x8ca1890dbfe6426841992d0fb054bb16]

/-- `SBOX[a]`: row is the high nibble, column the low nibble (R93). -/
def sbox (a : Byte) : Byte :=
  (sboxRows.getD (a.toNat / 16) 0).extractLsb' (8 * (15 - a.toNat % 16)) 8

/-- `SubBytes` (R93). -/
def subBytes (v : Byte16) : Byte16 := zext16 ((List.range 16).map fun j => sbox (byteAt v j))

/-- `SR`, the index vector of `ShiftRows` (R94). -/
def shiftIndex : List Nat := [0, 5, 10, 15, 4, 9, 14, 3, 8, 13, 2, 7, 12, 1, 6, 11]

/-- `ShiftRows(v)[j] = v[SR[j]]` (R94). -/
def shiftRows (v : Byte16) : Byte16 := zext16 (shiftIndex.map fun j => byteAt v j)

/-- `mul2` (R95). -/
def mul2 (a : Byte) : Byte := if a.toNat < 0x80 then a <<< 1 else (a <<< 1) ^^^ 0x1B#8

/-- `mul3` (R95). -/
def mul3 (a : Byte) : Byte := mul2 a ^^^ a

/-- The product in GF(2^8) modulo `0x11B` (R93, R95), by the bits of the second factor from bit `n - 1` down. -/
def gfMulBits (a b : Byte) : Nat → Byte
  | 0 => 0
  | n + 1 => mul2 (gfMulBits a (b >>> 1) n) ^^^ (if b.getLsbD 0 then a else 0)

/-- The product in GF(2^8) modulo `0x11B`. -/
def gfMul (a b : Byte) : Byte := gfMulBits a b 8

/-- The affine map `A` of the substitution table's definition, with `c = 0x63` (R93). -/
def sboxAffine (b : Byte) : Byte :=
  b ^^^ b.rotateLeft 1 ^^^ b.rotateLeft 2 ^^^ b.rotateLeft 3 ^^^ b.rotateLeft 4 ^^^ 0x63#8

/-- One column (R95). -/
def mixColumn (a0 a1 a2 a3 : Byte) : List Byte := [
  mul2 a0 ^^^ mul3 a1 ^^^ a2 ^^^ a3,
  a0 ^^^ mul2 a1 ^^^ mul3 a2 ^^^ a3,
  a0 ^^^ a1 ^^^ mul2 a2 ^^^ mul3 a3,
  mul3 a0 ^^^ a1 ^^^ a2 ^^^ mul2 a3]

/-- `MixColumns` (R95), column by column in the layout of R92. -/
def mixColumns (v : Byte16) : Byte16 :=
  zext16 ((List.range 4).flatMap fun c =>
    mixColumn (byteAt v (4 * c)) (byteAt v (4 * c + 1)) (byteAt v (4 * c + 2)) (byteAt v (4 * c + 3)))

/-- `AddRoundKey` (R96). -/
def addRoundKey (v k : Byte16) : Byte16 := v ^^^ k

/-- `AESR(s, k)` (R91). -/
def aesr (s k : Byte16) : Byte16 := addRoundKey (mixColumns (shiftRows (subBytes s))) k

end Sys2Proof.Machine
end

