-- ==== Sys2Proof/Config.lean ====
section
/-! DEFINITION. What is fixed when an instance is built (00_scope R3, R6), and the values the spec leaves open. -/

namespace Sys2Proof

/-- The identity of the function one instance computes (R3): `L` lanes in groups of `G`, the seed table, the
round-key table and the finalizer key (R6; 10_state R25 to R27). -/
structure Config where
  /-- `L`, LANE_COUNT -/
  L : Nat
  /-- `G`, GROUP_SIZE -/
  G : Nat
  /-- `SEED[0 .. L-1]` -/
  seed : List Byte16
  /-- `RK[0 .. L-1]` -/
  rk : List Byte16
  /-- `FK` -/
  fk : Byte16
  deriving DecidableEq, Repr

/-- The constraints of R6 on an instance. -/
abbrev Config.Valid (c : Config) : Prop :=
  1 ≤ c.L ∧ c.L ≤ 63 ∧ 1 ≤ c.G ∧ c.G ≤ c.L ∧ c.L % c.G = 0 ∧ c.seed.length = c.L ∧ c.rk.length = c.L

/-- The OPEN seed table of the instance that `State.reset` describes (R6, D3): no value can be proved of it. -/
opaque Config.openSeed : Nat → Byte16

/-- The OPEN round-key table of that instance (R6, D4). -/
opaque Config.openRoundKey : Nat → Byte16

/-- The OPEN finalizer key of that instance (R6, D5). -/
opaque Config.openFinalKey : Byte16

/-- CORE-16 (R7): sixteen lanes in groups of four, tables OPEN. -/
def Config.core16 : Config where
  L := 16
  G := 4
  seed := (List.range 16).map Config.openSeed
  rk := (List.range 16).map Config.openRoundKey
  fk := Config.openFinalKey

/-- Free value: the word a digest register returns while its unit's `DONE` is 0 (10_state R38, R39;
93_implementation_defined I13), one per draw. -/
opaque Config.unspecifiedWord : Nat → BitVec 32

/-- Free value: which of two busy units steps next (44_reference_absorber R166, 45_host_operations R170); `true` is
OPT. -/
opaque Config.optStepsNext : Nat → Bool

end Sys2Proof
end

