-- ==== Sys2Proof/Machine/State.lean ====
section
/-! DEFINITION. The state of the machine (10_state), the reasons a step can stop, and the state after reset (R43). -/

namespace Sys2Proof.Machine

/-- The two units (10_state R20). -/
inductive UnitId where
  | opt
  | ref
  deriving DecidableEq, Repr

/-- Why a unit faults (60_exceptions R185). Taking a fault is a NEXT state (R188), not a stop of the model. -/
inductive Cause where
  /-- raised by a datapath handed an illegal word; code 1 -/
  | illegalUop
  /-- raised by every micro-operation but `LDSEED` while the lanes hold no value; code 2 -/
  | laneNoValue
  /-- raised by `XORD`, `RNDD`, `XORP` when the bytes needed are not all below `LENL`; code 3 -/
  | readOverrun
  /-- raised by the OPT sequencer on entry to the tail stage; code 4 -/
  | tailBound
  /-- raised by a start command to a busy unit; code 5 -/
  | hostProtocol
  deriving DecidableEq, Repr

/-- Where a sequencer is in its schedule procedure: the label of the next `issue` (or test) of OPT_SCHEDULE
(43_sequencer_optimized R130) or REF_SCHEDULE (44_reference_absorber R160). The encoding is the model's own, as 10_state
R29 allows. -/
inductive SeqPoint where
  /-- `issue LDSEED` -/
  | init
  /-- BULK-LOAD: `issue XORD GI*G, G` -/
  | bulkLoad
  /-- BULK-LOOP, the three micro-operations of one group -/
  | loopRnd1 | loopRnd2 | loopData
  /-- BULK-POST, the three micro-operations of one group -/
  | postRnd1 | postRnd2 | postZero
  /-- TAIL: the entry check -/
  | tailEntry
  /-- TAIL-GROUP: the test of the loop, then the rounds of one pass -/
  | groupTest | groupRnd1 | groupRnd2 | groupZero
  /-- TAIL-SINGLE: the test of the loop, then the rounds of one pass -/
  | singleTest | singleRnd1 | singleRnd2 | singleZero
  /-- TAIL-PART: the rounds after `XORP` -/
  | partRnd1 | partRnd2 | partZero
  /-- REF: one chunk -/
  | chunkLoad | chunkRnd1 | chunkRnd2 | chunkZero
  /-- FINAL -/
  | fold | lenx | key1 | key2 | white | out
  /-- the schedule is exhausted, or none has been started -/
  | stop
  deriving DecidableEq, Repr

/-- The sequencer's place and loop variables (10_state R29), naturals by D1. -/
structure SeqRegs where
  /-- the place in the procedure; the model's own -/
  point : SeqPoint
  /-- `TL`, tail lane index (OPT), 6 bits -/
  tl : Nat
  /-- `SB`, super-block counter (OPT), 64 bits -/
  sb : Nat
  /-- `GI`, group index (OPT), 6 bits -/
  gi : Nat
  /-- `K`, chunk counter (REF), 64 bits -/
  k : Nat
  deriving DecidableEq, Repr

/-- A message space (20_memory R50): (offset, byte) cells, offsets strictly rising. An offset that is not listed holds no
byte that could be delivered (45_host_operations R181, first duty). -/
abbrev Message := List Host.Cell

/-- One unit's state (10_state R20 to R32). -/
structure UnitState where
  /-- `LANE[0 .. L-1]`, or no value (R21, R23) -/
  lanes : Option (List Byte16)
  /-- `DIGEST`, or no value (R38, R39) -/
  digest : Option Byte16
  /-- `BUSY` (R32) -/
  busy : Bool
  /-- `DONE` (R32) -/
  done : Bool
  /-- `FAULT` (R32) -/
  fault : Bool
  /-- `FCAUSE` (R32) -/
  fcause : BitVec 4
  /-- `UPC`, 64 bits, a natural by R12 and D1 (R29, R31) -/
  upc : Nat
  /-- `CUR`, 64 bits, a natural by R12 and D1 (R29, R30) -/
  cur : Nat
  /-- `LENL`, 64 bits, a natural by R12 and D1 (R29) -/
  lenl : Nat
  /-- `TL`, `SB`, `GI`, `K` and the place in the schedule (R29) -/
  seq : SeqRegs
  /-- `PADBUF` (R28) -/
  padbuf : Byte16
  /-- `LENBUF` (R28) -/
  lenbuf : Byte16
  /-- the message at the unit's read port (R42; 20_memory R50) -/
  msg : Message
  deriving DecidableEq, Repr

/-- What happens next: the agents' moves (10_state R20), which interleave freely (45_host_operations R170), as data. -/
inductive Move where
  /-- the host writes a register (R170) -/
  | regWrite (off : BitVec 7) (v : BitVec 32)
  /-- the host reads a register (R170) -/
  | regRead (off : BitVec 7)
  /-- a unit's sequencer takes its step, if it has one (43_sequencer_optimized R144, 44_reference_absorber R166) -/
  | sequence (u : UnitId)
  /-- a busy unit's datapath, taken alone, is handed a word (60_exceptions R186, R193); no move of the complete
  hardware -/
  | hand (u : UnitId) (w : BitVec 16)
  /-- the host makes a message byte readable at a unit's read port, before a start (45_host_operations R178 step 1) -/
  | place (u : UnitId) (off : BitVec 64) (b : Byte)
  /-- the reset input is asserted and released (70_reset_and_hazards R210, R211) -/
  | reset
  deriving DecidableEq, Repr

/-- The machine. -/
structure State where
  /-- the instance's constants (R41), which no step changes -/
  cfg : Config
  /-- OPT -/
  opt : UnitState
  /-- REF -/
  ref : UnitState
  /-- `LEN_LO` (R36) -/
  lenLo : BitVec 32
  /-- `LEN_HI` (R36) -/
  lenHi : BitVec 32
  /-- the word the last register read returned (`reg_rdata`, R42) -/
  rdata : BitVec 32
  /-- the unit whose datapath runs a micro-operation; the model's own -/
  active : UnitId
  /-- the moves to come, first first; the model's own -/
  moves : List Move
  /-- how many free values have been drawn; the model's own -/
  draws : Nat
  deriving DecidableEq, Repr

/-- Why the model stops with a fault. The hardware's own faults are next states (60_exceptions R188). -/
inductive Fault where
  /-- raised by a sequencer turn of a unit that is `BUSY` although its schedule holds no further micro-operation. `OUT`
  ends every schedule and clears `BUSY` (42_finalize_ops R122), so no run of the complete hardware comes here; safe. -/
  | scheduleExhausted
  deriving DecidableEq, Repr

/-- Why the model refuses a step. -/
inductive Refusal where
  /-- raised by an arm of `exec` that has no meaning yet; safe -/
  | notModelled (mnemonic : String)
  /-- raised by a register access whose offset is not a multiple of 4, which is no move of the model
  (45_host_operations R170; 93_implementation_defined I20, `refuse`); safe -/
  | registerAccess
  /-- raised by placing a byte in a busy unit's message, a move the model does not give the host
  (70_reset_and_hazards R217; I23, `refuse`); safe -/
  | messageWhileBusy
  deriving DecidableEq, Repr

/-- The sequencer registers after reset: unspecified by R43; the values are the model's (log 3, log 15). -/
def SeqRegs.reset : SeqRegs where
  point := .stop
  tl := 0
  sb := 0
  gi := 0
  k := 0

/-- A unit after reset (R43), its read port presenting `msg`. `UPC`, `CUR`, `LENL`, the sequencer registers and the
scratch buffers are unspecified there; 0 is the model's choice (log 3). -/
def UnitState.resetWith (msg : Message) : UnitState where
  lanes := none
  digest := none
  busy := false
  done := false
  fault := false
  fcause := 0
  upc := 0
  cur := 0
  lenl := 0
  seq := SeqRegs.reset
  padbuf := zero16
  lenbuf := zero16
  msg := msg

/-- The machine after reset, for the instance `c`, nothing presented and no move pending (R43, R210). -/
def State.resetOf (c : Config) : State where
  cfg := c
  opt := UnitState.resetWith []
  ref := UnitState.resetWith []
  lenLo := 0
  lenHi := 0
  rdata := 0
  active := .opt
  moves := []
  draws := 0

/-- The machine after reset, for the instance the scope note names (00_scope R7, CORE-16), tables OPEN. -/
def State.reset : State := State.resetOf Config.core16

end Sys2Proof.Machine
end

