-- ==== Sys2Proof/Machine/Flags.lean ====
section
/-! DEFINITION. The flags of a unit (10_state R32), their updates, and the `STATUS` and `CONFIG` words (R35, R37). -/

namespace Sys2Proof.Machine

/-- The cause codes (60_exceptions R185). -/
def causeCode : Cause → BitVec 4
  | .illegalUop => 1
  | .laneNoValue => 2
  | .readOverrun => 3
  | .tailBound => 4
  | .hostProtocol => 5

/-- The flags after `OUT`: `BUSY` cleared, `DONE` set (42_finalize_ops R122). -/
def flagsFinished (u : UnitState) : UnitState := { u with busy := false, done := true }

/-- The flags after a start command: `DONE` cleared, `BUSY` set (45_host_operations R171). -/
def flagsStarted (u : UnitState) : UnitState := { u with done := false, busy := true }

/-- The flags after a fault: `FCAUSE` if `FAULT` was 0, `FAULT` set, `BUSY` cleared (60_exceptions R188). -/
def flagsFaulted (cause : Cause) (u : UnitState) : UnitState :=
  { u with fcause := if u.fault then u.fcause else causeCode cause, fault := true, busy := false }

/-- One unit's byte of `STATUS` (R35): `FCAUSE` in bits 7:4, bit 3 reserved, `FAULT`, `DONE`, `BUSY`. -/
def statusByte (u : UnitState) : BitVec 8 :=
  u.fcause ++ 0#1 ++ BitVec.ofBool u.fault ++ BitVec.ofBool u.done ++ BitVec.ofBool u.busy

/-- `STATUS` (R35): REF's byte above OPT's, bits 31:16 reserved. -/
def statusWord (s : State) : BitVec 32 := 0#16 ++ statusByte s.ref ++ statusByte s.opt

/-- `CONFIG` (R37, R176): `G * 256 + L`. -/
def configWord (c : Config) : BitVec 32 := BitVec.ofNat 32 (c.G * 256 + c.L)

end Sys2Proof.Machine
end

