-- ==== Sys2Proof/Machine/Message.lean ====
section
/-! DEFINITION. The message space (20_memory R50 to R58): the form of the cell list, reading, and what the host does to
present bytes. -/

namespace Sys2Proof.Machine

/-- Offsets strictly rise and all are above `lo`'s bound: every offset is at least `lo` and below `2^64` (R51). -/
def Message.risesFrom (lo : Nat) : Message → Bool
  | [] => true
  | (a, _) :: m => decide (lo ≤ a) && decide (a < 2 ^ 64) && Message.risesFrom (a + 1) m

/-- The canonical form. An unlisted offset holds no byte, so no listed byte equals what an unlisted one reads as. -/
def Message.wf (m : Message) : Bool := Message.risesFrom 0 m

/-- The byte at an offset, or none where none can be delivered (45_host_operations R181). -/
def Message.read : Message → Nat → Option Byte
  | [], _ => none
  | (a, b) :: m, off => if a = off then some b else Message.read m off

/-- `MemRead(off, n)`: the `n` bytes at `off`, ascending (20_memory R52); none where one of them cannot be delivered. -/
def Message.readBytes (m : Message) (off : Nat) : Nat → Option (List Byte)
  | 0 => some []
  | n + 1 =>
    match Message.read m off, Message.readBytes m (off + 1) n with
    | some b, some bs => some (b :: bs)
    | _, _ => none

/-- The host presents byte `b` at an offset (R178 step 1). -/
def Message.write : Message → Nat → Byte → Message
  | [], off, b => [(off, b)]
  | (a, c) :: m, off, b =>
    if off < a then (off, b) :: (a, c) :: m
    else if off = a then (a, b) :: m
    else (a, c) :: Message.write m off b

/-- The message whose bytes are `bs` from offset `off` on. -/
def Message.ofBytesFrom (off : Nat) : List Byte → Message
  | [] => []
  | b :: bs => (off, b) :: Message.ofBytesFrom (off + 1) bs

/-- The message `bs`. -/
def Message.ofBytes (bs : List Byte) : Message := Message.ofBytesFrom 0 bs

end Sys2Proof.Machine
end

