-- ==== Sys2Proof/Machine/Operands.lean ====
section
/-! DEFINITION. Operand assembly (30_encoding R71 to R75): lane ranges, keys, chunks, the padded chunk and the length
block. -/

namespace Sys2Proof.Machine

/-- The lane range of a ULC word is legal on an instance with `L` lanes: `cnt >= 1` and `lane + cnt <= L` (R71, R77). -/
def laneRangeLegal (L : Nat) (lane cnt : BitVec 6) : Bool :=
  decide (1 ≤ cnt.toNat) && decide (lane.toNat + cnt.toNat ≤ L)

/-- `f` on the named lanes `lane .. lane+cnt-1`, lane `i` getting `f i v`; the other lanes unchanged (R72). -/
def onNamedLanes (lane cnt : Nat) (f : Nat → Byte16 → Byte16) (ls : List Byte16) : List Byte16 :=
  ls.mapIdx fun i v => if lane ≤ i ∧ i < lane + cnt then f i v else v

/-- `SEED[i]` (10_state R25). -/
def seedAt (c : Config) (i : Nat) : Byte16 := c.seed.getD i zero16

/-- `RK[i]` (10_state R26). -/
def roundKeyAt (c : Config) (i : Nat) : Byte16 := c.rk.getD i zero16

/-- A full chunk: the 16 bytes at `off` (R73). -/
def chunkAt (m : Message) (off : Nat) : Option Byte16 := (m.readBytes off 16).map zext16

/-- `D[0 .. n-1]`: `n` chunks from `off` on, in message order (R73). -/
def chunksAt (m : Message) (off : Nat) : Nat → Option (List Byte16)
  | 0 => some []
  | n + 1 =>
    match chunkAt m off, chunksAt m (off + 16) n with
    | some d, some ds => some (d :: ds)
    | _, _ => none

/-- The padded chunk of `XORP`: the `rem` bytes at `off`, then zeros (R74). -/
def paddedChunkAt (m : Message) (off rem : Nat) : Option Byte16 := (m.readBytes off rem).map zext16

/-- The length block `LE64(LENL) ++ zeros(8)` (R75). -/
def lengthBlock (lenl : Nat) : Byte16 := zext16 (le64 lenl ++ List.replicate 8 0#8)

/-- The exclusive or of all lanes, ascending (42_finalize_ops R120). -/
def foldLanes (ls : List Byte16) : Byte16 := ls.foldl (· ^^^ ·) zero16

end Sys2Proof.Machine
end

