-- ==== Sys2Proof/Machine/Ops.lean ====
section
/-! DEFINITION. The named operations: a unit of the state, taking a fault (60_exceptions R188), running a
micro-operation's effect with its checks (R186), the start command (45_host_operations R171), reset (R210). -/

namespace Sys2Proof.Machine

/-- Unit `u`'s state. -/
def State.unit (s : State) : UnitId → UnitState
  | .opt => s.opt
  | .ref => s.ref

/-- Replace unit `u`'s state. -/
def State.setUnit (s : State) (u : UnitId) (x : UnitState) : State :=
  match u with
  | .opt => { s with opt := x }
  | .ref => { s with ref := x }

/-- `raise Fault(cause)` on unit `u`: the flags of R188 and nothing else. There is no handler and no saved program
counter, and no return from it but reset (R188, R192). -/
def State.raise (s : State) (u : UnitId) (cause : Cause) : State :=
  s.setUnit u (flagsFaulted cause (s.unit u))

/-- What a micro-operation does to its unit: complete, fault before writing anything (R188), or wait for a message byte
that is not delivered (45_host_operations R181). -/
inductive UopResult where
  | done (x : UnitState)
  | fault (cause : Cause)
  | wait
  deriving DecidableEq, Repr

/-- Go on if the check holds, else fault (R186). -/
def require (ok : Bool) (cause : Cause) (k : UopResult) : UopResult := if ok then k else .fault cause

/-- Go on with the lanes' values, else `LANE_NOVALUE` (10_state R23; R186 condition 2). -/
def withLanes (x : UnitState) (k : List Byte16 → UopResult) : UopResult :=
  match x.lanes with
  | some ls => k ls
  | none => .fault .laneNoValue

/-- Go on with message data, or wait: a read that is not delivered never completes (45_host_operations R181, D35). -/
def withData {α : Type} (data : Option α) (k : α → UopResult) : UopResult :=
  match data with
  | some d => k d
  | none => .wait

/-- Run a micro-operation's effect on the active unit. A completed one adds 1 to `UPC` (10_state R31). -/
def State.perform (s : State) (effect : Config → UnitState → UopResult) : Host.Outcome State Fault Refusal :=
  match effect s.cfg (s.unit s.active) with
  | .done x => .next (s.setUnit s.active { x with upc := x.upc + 1 })
  | .fault cause => .next (s.raise s.active cause)
  | .wait => .next s

/-- The template R99 of the fixed-key rounds: check, check, then one AES round on every named lane `i` with `key i`. -/
def fixedRound (key : Config → Nat → Byte16) (lane cnt : BitVec 6) (c : Config) (x : UnitState) : UopResult :=
  require (laneRangeLegal c.L lane cnt) .illegalUop <|
  withLanes x fun ls =>
  .done { x with lanes := some (onNamedLanes lane.toNat cnt.toNat (fun i v => aesr v (key c i)) ls) }

/-- The micro-operations that take the next `cnt` chunks (R73, R99, R111): check, check, check the bound, read, give lane
`lane + j` the chunk `D[j]` by `f`, advance `CUR`. -/
def takeChunks (f : Byte16 → Byte16 → Byte16) (lane cnt : BitVec 6) (c : Config) (x : UnitState) : UopResult :=
  require (laneRangeLegal c.L lane cnt) .illegalUop <|
  withLanes x fun ls =>
  require (decide (x.cur + 16 * cnt.toNat ≤ x.lenl)) .readOverrun <|
  withData (chunksAt x.msg x.cur cnt.toNat) fun ds =>
  .done { x with
    lanes := some (onNamedLanes lane.toNat cnt.toNat (fun i v => f v (ds.getD (i - lane.toNat) zero16)) ls)
    cur := x.cur + 16 * cnt.toNat }

/-- The message length in the length registers (10_state R36). -/
def State.len (s : State) : Nat := s.lenHi.toNat * 2 ^ 32 + s.lenLo.toNat

/-- A start command to unit `u` (R171): ignored on a faulted unit, `HOST_PROTOCOL` on a busy one (R189), else the
invocation begins and what the last one left is discarded. The sequencer is placed at the head of its schedule. -/
def State.start (s : State) (u : UnitId) : State :=
  let x := s.unit u
  if x.fault then s
  else if x.busy then s.raise u .hostProtocol
  else s.setUnit u (flagsStarted { x with
    lenl := s.len, cur := 0, upc := 0, lanes := none, digest := none, seq := { x.seq with point := .init } })

/-- Reset (70_reset_and_hazards R210, R211): every piece of the hardware's state at its reset value. The constants, the
host's message and the model's own bookkeeping are not the hardware's state. -/
def State.resetNow (s : State) : State :=
  { State.resetOf s.cfg with
    opt := UnitState.resetWith s.opt.msg
    ref := UnitState.resetWith s.ref.msg
    rdata := s.rdata
    moves := s.moves
    draws := s.draws }

end Sys2Proof.Machine
end

