-- ==== Sys2Proof/Machine/Finalize.lean ====
section
/-! DEFINITION. The finalization micro-operations (42_finalize_ops). -/

namespace Sys2Proof.Machine

/-- `FOLD`'s effect (R120): lane 0 gets the exclusive or of all lanes. -/
def foldEffect (_ : Config) (x : UnitState) : UopResult :=
  withLanes x fun ls => .done { x with lanes := some (ls.set 0 (foldLanes ls)) }

/-- `FOLD` (R120). -/
def execFold (s : State) : Host.Outcome State Fault Refusal := s.perform foldEffect

/-- `LENX`'s effect (R121): exclusive-or the length block into lane 0. -/
def lenxEffect (_ : Config) (x : UnitState) : UopResult :=
  withLanes x fun ls => .done { x with
    lenbuf := lengthBlock x.lenl
    lanes := some (ls.set 0 (ls.headD zero16 ^^^ lengthBlock x.lenl)) }

/-- `LENX` (R121). -/
def execLenx (s : State) : Host.Outcome State Fault Refusal := s.perform lenxEffect

/-- `OUT`'s effect (R122): copy lane 0 to the digest register and end the invocation. -/
def outEffect (_ : Config) (x : UnitState) : UopResult :=
  withLanes x fun ls => .done (flagsFinished { x with digest := some (ls.headD zero16) })

/-- `OUT` (R122). -/
def execOut (s : State) : Host.Outcome State Fault Refusal := s.perform outEffect

end Sys2Proof.Machine
end

