-- ==== Sys2Proof/Machine/HostCommands.lean ====
section
/-! DEFINITION. The host commands, words written to `CTRL` (30_encoding R78; 45_host_operations R171). -/

namespace Sys2Proof.Machine

/-- `START_OPT`, and after it `START_REF` when the word has both bits (R171). -/
def execStartOpt (withRef : Bool) (s : State) : Host.Outcome State Fault Refusal :=
  .next (if withRef then (s.start .opt).start .ref else s.start .opt)

/-- `START_REF` alone (R171). -/
def execStartRef (s : State) : Host.Outcome State Fault Refusal := .next (s.start .ref)

end Sys2Proof.Machine
end

