-- ==== Sys2Proof/Machine/Illegal.lean ====
section
/-! DEFINITION. The words of the illegal and reserved opcodes: each raises `ILLEGAL_UOP` and changes nothing else
(30_encoding R77, 60_exceptions R186). -/

namespace Sys2Proof.Machine

/-- The effect of a word that is no micro-operation (R77). -/
def illegalEffect (_ : Config) (_ : UnitState) : UopResult := .fault .illegalUop

/-- `op = 0x0`. -/
def execIllegalOp0 (s : State) : Host.Outcome State Fault Refusal := s.perform illegalEffect

/-- `op = 0xB`. -/
def execReservedOpB (s : State) : Host.Outcome State Fault Refusal := s.perform illegalEffect

/-- `op = 0xC`. -/
def execReservedOpC (s : State) : Host.Outcome State Fault Refusal := s.perform illegalEffect

/-- `op = 0xD`. -/
def execReservedOpD (s : State) : Host.Outcome State Fault Refusal := s.perform illegalEffect

/-- `op = 0xE`. -/
def execReservedOpE (s : State) : Host.Outcome State Fault Refusal := s.perform illegalEffect

/-- `op = 0xF`. -/
def execReservedOpF (s : State) : Host.Outcome State Fault Refusal := s.perform illegalEffect

end Sys2Proof.Machine
end

