-- ==== Sys2Proof/Machine/InitAbsorb.lean ====
section
/-! DEFINITION. The initialization and data-absorption micro-operations (41_init_absorb_ops). -/

namespace Sys2Proof.Machine

/-- `LDSEED`'s effect (R110): every lane gets its seed, whether or not the lanes held a value. -/
def ldseedEffect (c : Config) (x : UnitState) : UopResult :=
  .done { x with lanes := some ((List.range c.L).map (seedAt c)) }

/-- `LDSEED` (R110). -/
def execLdseed (s : State) : Host.Outcome State Fault Refusal := s.perform ldseedEffect

/-- `XORD lane, cnt` (R111): exclusive-or the next `cnt` chunks into the named lanes. -/
def execXord (lane cnt : BitVec 6) (s : State) : Host.Outcome State Fault Refusal :=
  s.perform (takeChunks (fun v d => v ^^^ d) lane cnt)

/-- `XORP`'s effect (R112): exclusive-or the zero-padded partial chunk into one lane. -/
def xorpEffect (lane : BitVec 6) (c : Config) (x : UnitState) : UopResult :=
  require (laneRangeLegal c.L lane 1) .illegalUop <|
  withLanes x fun ls =>
  require (decide (1 ≤ x.lenl - x.cur) && decide (x.lenl - x.cur ≤ 15)) .readOverrun <|
  withData (paddedChunkAt x.msg x.cur (x.lenl - x.cur)) fun pad =>
  .done { x with
    padbuf := pad
    lanes := some (onNamedLanes lane.toNat 1 (fun _ v => v ^^^ pad) ls)
    cur := x.lenl }

/-- `XORP lane` (R112). -/
def execXorp (lane : BitVec 6) (s : State) : Host.Outcome State Fault Refusal := s.perform (xorpEffect lane)

end Sys2Proof.Machine
end

