-- ==== Sys2Proof/Machine/Rounds.lean ====
section
/-! DEFINITION. The round micro-operations (40_aes_round_ops R98 to R103). -/

namespace Sys2Proof.Machine

/-- `RNDF lane, cnt` (R100): one round per named lane, key `RK[i]`. -/
def execRndf (lane cnt : BitVec 6) (s : State) : Host.Outcome State Fault Refusal :=
  s.perform (fixedRound roundKeyAt lane cnt)

/-- `RNDZ lane, cnt` (R102): one round per named lane, key all zero. -/
def execRndz (lane cnt : BitVec 6) (s : State) : Host.Outcome State Fault Refusal :=
  s.perform (fixedRound (fun _ _ => zero16) lane cnt)

/-- `RNDK lane, cnt` (R101): one round per named lane, key `FK`. -/
def execRndk (lane cnt : BitVec 6) (s : State) : Host.Outcome State Fault Refusal :=
  s.perform (fixedRound (fun c _ => c.fk) lane cnt)

/-- `RNDD lane, cnt` (R103): one round per named lane, key the next chunk. -/
def execRndd (lane cnt : BitVec 6) (s : State) : Host.Outcome State Fault Refusal :=
  s.perform (takeChunks (fun v d => aesr v d) lane cnt)

end Sys2Proof.Machine
end

