-- ==== Sys2Proof/Machine/Dispatch.lean ====
section
/-! DEFINITION. One arm per row of the opcode table. A micro-operation runs on the active unit. -/

namespace Sys2Proof.Machine

def exec (i : Instr) (s : State) : Host.Outcome State Fault Refusal :=
  match i with
  | .ldseed => Sys2Proof.Machine.execLdseed s
  | .xord lane cnt => Sys2Proof.Machine.execXord lane cnt s
  | .xorp lane => Sys2Proof.Machine.execXorp lane s
  | .rndf lane cnt => Sys2Proof.Machine.execRndf lane cnt s
  | .rndz lane cnt => Sys2Proof.Machine.execRndz lane cnt s
  | .rndd lane cnt => Sys2Proof.Machine.execRndd lane cnt s
  | .rndk lane cnt => Sys2Proof.Machine.execRndk lane cnt s
  | .fold => Sys2Proof.Machine.execFold s
  | .lenx => Sys2Proof.Machine.execLenx s
  | .out => Sys2Proof.Machine.execOut s
  | .illegalOp0 _ => Sys2Proof.Machine.execIllegalOp0 s
  | .reservedOpB _ => Sys2Proof.Machine.execReservedOpB s
  | .reservedOpC _ => Sys2Proof.Machine.execReservedOpC s
  | .reservedOpD _ => Sys2Proof.Machine.execReservedOpD s
  | .reservedOpE _ => Sys2Proof.Machine.execReservedOpE s
  | .reservedOpF _ => Sys2Proof.Machine.execReservedOpF s
  | .startOpt withRef _ => Sys2Proof.Machine.execStartOpt withRef s
  | .startRef _ => Sys2Proof.Machine.execStartRef s

end Sys2Proof.Machine
end

