-- ==== Sys2Proof/Machine/Sequencer.lean ====
section
/-! DEFINITION. The two sequencers: OPT_SCHEDULE (43_sequencer_optimized R130) and REF_SCHEDULE (44_reference_absorber
R160) as the step each takes from where it stands. -/

namespace Sys2Proof.Machine

/-- What a sequencer does in one step (R144): hand over a micro-operation and, once it has completed, stand at `q`; or
raise a fault; or nothing, its schedule being exhausted. -/
inductive Issue where
  | uop (i : Instr) (q : SeqRegs)
  | fault (cause : Cause)
  | stopped
  deriving DecidableEq, Repr

/-- `NG = L / G` (R6). -/
def groups (c : Config) : Nat := c.L / c.G

/-- `S = 16 * L` (R6). -/
def superBlock (c : Config) : Nat := 16 * c.L

/-- `NSB`, the number of full super-blocks (R130, R131). -/
def nsb (c : Config) (lenl : Nat) : Nat := lenl / superBlock c

/-- `NTC`, the number of full chunks in the tail (R130, R131). -/
def ntc (c : Config) (lenl : Nat) : Nat := lenl % superBlock c / 16

/-- `REM`, the bytes in the final partial chunk (R130, R131). -/
def remBytes (lenl : Nat) : Nat := lenl % 16

/-- `n = ceil(LENL / 16)`, the number of chunks (R160). -/
def chunkCount (lenl : Nat) : Nat := (lenl + 15) / 16

/-- A lane or count field. -/
def field (n : Nat) : BitVec 6 := BitVec.ofNat 6 n

/-- The next group of the pass at `point`, or `done` when the pass is over. -/
def nextGroup (c : Config) (q : SeqRegs) (point : SeqPoint) (done : SeqRegs) : SeqRegs :=
  if q.gi + 1 < groups c then { q with gi := q.gi + 1, point := point } else done

/-- Where a pass over super-block data leads: pass `SB` of BULK-LOOP while `SB < NSB`, else BULK-POST (R135, R136). -/
def loopOrPost (c : Config) (lenl sb : Nat) (q : SeqRegs) : SeqRegs :=
  { q with sb := sb, gi := 0, point := if sb < nsb c lenl then .loopRnd1 else .postRnd1 }

/-- TAIL-PART, then FINAL (R141, R143). -/
def issuePart (lenl : Nat) (q : SeqRegs) : Issue :=
  if 0 < remBytes lenl then .uop (.xorp (field q.tl)) { q with point := .partRnd1 }
  else .uop .fold { q with point := .lenx }

/-- TAIL-SINGLE: one more pass while a full chunk is left (R140). -/
def issueSingle (c : Config) (lenl : Nat) (q : SeqRegs) : Issue :=
  if 1 ≤ ntc c lenl - q.tl then .uop (.xord (field q.tl) 1) { q with point := .singleRnd1 }
  else issuePart lenl q

/-- TAIL-GROUP: one more pass while `G` full chunks are left (R139). -/
def issueGroup (c : Config) (lenl : Nat) (q : SeqRegs) : Issue :=
  if c.G ≤ ntc c lenl - q.tl then .uop (.xord (field q.tl) (field c.G)) { q with point := .groupRnd1 }
  else issueSingle c lenl q

/-- The TAIL entry check (R138; 60_exceptions R187), then `TL <- 0`. -/
def issueTail (c : Config) (cur lenl : Nat) (q : SeqRegs) : Issue :=
  if superBlock c ≤ lenl - cur then .fault .tailBound
  else issueGroup c lenl { q with tl := 0 }

/-- FINAL (R143), the same in both schedules (R164). -/
def issueFinal (q : SeqRegs) : Issue :=
  match q.point with
  | .fold => .uop .fold { q with point := .lenx }
  | .lenx => .uop .lenx { q with point := .key1 }
  | .key1 => .uop (.rndk 0 1) { q with point := .key2 }
  | .key2 => .uop (.rndk 0 1) { q with point := .white }
  | .white => .uop (.rndz 0 1) { q with point := .out }
  | .out => .uop .out { q with point := .stop }
  | _ => .stopped

/-- OPT_SCHEDULE (R130). -/
def optIssue (c : Config) (cur lenl : Nat) (q : SeqRegs) : Issue :=
  let first := field (q.gi * c.G)
  let all := field c.G
  let tail := field q.tl
  match q.point with
  | .init =>
    .uop .ldseed (if 1 ≤ nsb c lenl then { q with point := .bulkLoad, gi := 0 } else { q with point := .tailEntry })
  | .bulkLoad => .uop (.xord first all) (nextGroup c q .bulkLoad (loopOrPost c lenl 1 q))
  | .loopRnd1 => .uop (.rndf first all) { q with point := .loopRnd2 }
  | .loopRnd2 => .uop (.rndf first all) { q with point := .loopData }
  | .loopData => .uop (.rndd first all) (nextGroup c q .loopRnd1 (loopOrPost c lenl (q.sb + 1) q))
  | .postRnd1 => .uop (.rndf first all) { q with point := .postRnd2 }
  | .postRnd2 => .uop (.rndf first all) { q with point := .postZero }
  | .postZero => .uop (.rndz first all) (nextGroup c q .postRnd1 { q with point := .tailEntry })
  | .tailEntry => issueTail c cur lenl q
  | .groupTest => issueGroup c lenl q
  | .groupRnd1 => .uop (.rndf tail all) { q with point := .groupRnd2 }
  | .groupRnd2 => .uop (.rndf tail all) { q with point := .groupZero }
  | .groupZero => .uop (.rndz tail all) { q with point := .groupTest, tl := q.tl + c.G }
  | .singleTest => issueSingle c lenl q
  | .singleRnd1 => .uop (.rndf tail 1) { q with point := .singleRnd2 }
  | .singleRnd2 => .uop (.rndf tail 1) { q with point := .singleZero }
  | .singleZero => .uop (.rndz tail 1) { q with point := .singleTest, tl := q.tl + 1 }
  | .partRnd1 => .uop (.rndf tail 1) { q with point := .partRnd2 }
  | .partRnd2 => .uop (.rndf tail 1) { q with point := .partZero }
  | .partZero => .uop (.rndz tail 1) { q with point := .fold }
  | _ => issueFinal q

/-- REF_SCHEDULE (R160). -/
def refIssue (c : Config) (lenl : Nat) (q : SeqRegs) : Issue :=
  let lane := field (q.k % c.L)
  match q.point with
  | .init => .uop .ldseed { q with k := 0, point := if 0 < chunkCount lenl then .chunkLoad else .fold }
  | .chunkLoad =>
    .uop (if q.k + 1 = chunkCount lenl ∧ 0 < remBytes lenl then .xorp lane else .xord lane 1)
      { q with point := .chunkRnd1 }
  | .chunkRnd1 => .uop (.rndf lane 1) { q with point := .chunkRnd2 }
  | .chunkRnd2 => .uop (.rndf lane 1) { q with point := .chunkZero }
  | .chunkZero =>
    .uop (.rndz lane 1) { q with k := q.k + 1, point := if q.k + 1 < chunkCount lenl then .chunkLoad else .fold }
  | _ => issueFinal q

/-- What unit `u`'s sequencer does next: a function of the instance's `L` and `G`, the latched length, the cursor (for
the tail check only) and its own place, never of message or lane data (R147). -/
def issue (u : UnitId) (c : Config) (x : UnitState) : Issue :=
  match u with
  | .opt => optIssue c x.cur x.lenl x.seq
  | .ref => refIssue c x.lenl x.seq

end Sys2Proof.Machine
end

