-- ==== Sys2Proof/Machine/Datapath.lean ====
section
/-! DEFINITION. A datapath handed a word (60_exceptions R186), and one step of a sequencer (43_sequencer_optimized R144,
44_reference_absorber R166). -/

namespace Sys2Proof.Machine

/-- The datapath of unit `u` is handed the word `w`: it runs the micro-operation, or raises `ILLEGAL_UOP` on a word that
is none (R77, R186). -/
def handWord (u : UnitId) (w : BitVec 16) (s : State) : Host.Outcome State Fault Refusal :=
  match decodeWord w with
  | .ok i => exec i { s with active := u }
  | .error _ => .next ({ s with active := u }.raise u .illegalUop)

/-- Move unit `u`'s sequencer to `q`. -/
def State.setSeq (s : State) (u : UnitId) (q : SeqRegs) : State := s.setUnit u { s.unit u with seq := q }

/-- The sequencer advances exactly when the micro-operation it issued has completed, which is when `UPC` has advanced
(10_state R31); after a fault nothing else changes (60_exceptions R188). -/
def advanceSeq (u : UnitId) (before : State) (q : SeqRegs) :
    Host.Outcome State Fault Refusal → Host.Outcome State Fault Refusal
  | .next t => .next (if (t.unit u).upc = (before.unit u).upc + 1 then t.setSeq u q else t)
  | .fault f => .fault f
  | .refused r => .refused r

/-- One step of unit `u`'s sequencer, enabled exactly when `BUSY = 1` (R144): hand the word of the next micro-operation
to the datapath, which executes it completely. A unit that is not busy has no step (60_exceptions R201). -/
def sequencerStep (u : UnitId) (s : State) : Host.Outcome State Fault Refusal :=
  if (s.unit u).busy then
    match issue u s.cfg (s.unit u) with
    | .uop i q => advanceSeq u s q (handWord u (uopWord i) s)
    | .fault cause => .next (s.raise u cause)
    | .stopped => .fault .scheduleExhausted
  else .next s

/-- `k` steps of unit `u`'s sequencer, one after the other, the other agents standing still. -/
def sequencerRun (u : UnitId) : Nat → State → Host.Outcome State Fault Refusal
  | 0, s => .next s
  | k + 1, s =>
    match sequencerStep u s with
    | .next t => sequencerRun u k t
    | .fault f => .fault f
    | .refused r => .refused r

end Sys2Proof.Machine
end

