-- ==== Sys2Proof/Machine/HostPort.lean ====
section
/-! DEFINITION. The host's moves on the register file (10_state R33 to R39; 45_host_operations R170 to R177) and on the
message (R178 step 1). -/

namespace Sys2Proof.Machine

/-- What a register read returns: a word, or an unspecified one. -/
inductive RegValue where
  | word (v : BitVec 32)
  | unspecified
  deriving DecidableEq, Repr

/-- `DIGESTk` (R38) or `RDIGESTk` (R39) of a unit: bytes `4k .. 4k+3` of its digest while `DONE = 1`, else an
unspecified word (R175). -/
def digestWord (x : UnitState) (k : Nat) : RegValue :=
  match x.done, x.digest with
  | true, some d => .word (d.extractLsb' (32 * k) 32)
  | _, _ => .unspecified

/-- The register map, read (R33, R173 to R177). `off` is a byte offset. -/
def regValue (s : State) (off : BitVec 7) : RegValue :=
  match off.toNat with
  | 0x04 => .word (statusWord s)
  | 0x08 => .word s.lenLo
  | 0x0C => .word s.lenHi
  | 0x10 => .word (configWord s.cfg)
  | 0x20 => digestWord s.opt 0
  | 0x24 => digestWord s.opt 1
  | 0x28 => digestWord s.opt 2
  | 0x2C => digestWord s.opt 3
  | 0x30 => digestWord s.ref 0
  | 0x34 => digestWord s.ref 1
  | 0x38 => digestWord s.ref 2
  | 0x3C => digestWord s.ref 3
  | _ => .word 0

/-- Offsets that are multiples of 4 (R170). -/
def aligned (off : BitVec 7) : Bool := off.toNat % 4 == 0

/-- `RegRead(off)`: no side effect on the hardware (R59). An unspecified word is a free value (I13). -/
def regRead (off : BitVec 7) (s : State) : Host.Outcome State Fault Refusal :=
  if aligned off then
    match regValue s off with
    | .word v => .next { s with rdata := v }
    | .unspecified => .next { s with rdata := Config.unspecifiedWord s.draws, draws := s.draws + 1 }
  else .refused .registerAccess

/-- A write to `CTRL` (R34, R78): the host command it encodes, if any. -/
def ctrlWrite (v : BitVec 32) (s : State) : Host.Outcome State Fault Refusal :=
  match decodeCommand v with
  | .ok i => exec i s
  | .error _ => .next s

/-- `RegWrite(off, v)` (R170 to R173, R177). -/
def regWrite (off : BitVec 7) (v : BitVec 32) (s : State) : Host.Outcome State Fault Refusal :=
  if aligned off then
    match off.toNat with
    | 0x00 => ctrlWrite v s
    | 0x08 => .next { s with lenLo := v }
    | 0x0C => .next { s with lenHi := v }
    | _ => .next s
  else .refused .registerAccess

/-- The host presents a message byte to a unit's read port; not while the unit is busy (70_reset_and_hazards R217). -/
def placeByte (u : UnitId) (off : BitVec 64) (b : Byte) (s : State) : Host.Outcome State Fault Refusal :=
  if (s.unit u).busy then .refused .messageWhileBusy
  else .next (s.setUnit u { s.unit u with msg := (s.unit u).msg.write off.toNat b })

end Sys2Proof.Machine
end

