-- ==== Sys2Proof/Machine/Agents.lean ====
section
/-! DEFINITION. One move of one agent (10_state R20), and what the busy units do when no move is pending. -/

namespace Sys2Proof.Machine

/-- One move. A handed word is taken by a busy unit only: a unit that is not busy has no step (R144, R201). -/
def act (m : Move) (s : State) : Host.Outcome State Fault Refusal :=
  match m with
  | .regWrite off v => regWrite off v s
  | .regRead off => regRead off s
  | .sequence u => sequencerStep u s
  | .hand u w => if (s.unit u).busy then handWord u w s else .next s
  | .place u off b => placeByte u off b s
  | .reset => .next s.resetNow

/-- No move is pending: a busy unit steps; which of two is a free value (R166); a machine with no busy unit has no
enabled step and stays as it is (R201, R212). -/
def onItsOwn (s : State) : Host.Outcome State Fault Refusal :=
  match s.opt.busy, s.ref.busy with
  | true, true =>
    sequencerStep (if Config.optStepsNext s.draws then .opt else .ref) { s with draws := s.draws + 1 }
  | true, false => sequencerStep .opt s
  | false, true => sequencerStep .ref s
  | false, false => .next s

/-- The next step of the whole: the first pending move, or none pending. -/
def stepMove (s : State) : Host.Outcome State Fault Refusal :=
  match s.moves with
  | m :: rest => act m { s with moves := rest }
  | [] => onItsOwn s

/-- Put an instruction where `step` takes its next one from: a 16-bit word at the OPT datapath, which has a step because
the unit is busy (R144); a 32-bit word in the host's hands as a write to `CTRL` (R78). -/
def State.presentWord (s : State) (nbits w : Nat) : State :=
  if nbits = 16 then
    { s with moves := .hand .opt (BitVec.ofNat 16 w) :: s.moves, opt := { s.opt with busy := true } }
  else if nbits = 32 then { s with moves := .regWrite 0 (BitVec.ofNat 32 w) :: s.moves }
  else s

end Sys2Proof.Machine
end

