-- ==== Sys2Proof/Machine/Digest.lean ====
section
/-! DEFINITION. What a message's digest is, in closed form (43_sequencer_optimized R148), apart from any sequencer. -/

namespace Sys2Proof.Machine

/-- `c[k]`: chunk `k` of a message of `lenl` bytes, the last one zero-padded (R148). A byte that is not delivered counts
as 0 here; statements ask for delivered bytes. -/
def messageChunk (m : Message) (lenl k : Nat) : Byte16 :=
  zext16 ((List.range (min 16 (lenl - 16 * k))).map fun j => (m.read (16 * k + j)).getD 0)

/-- `Mix(i, x)` (R148). -/
def mix (c : Config) (i : Nat) (x : Byte16) : Byte16 :=
  aesr (aesr (aesr x (roundKeyAt c i)) (roundKeyAt c i)) zero16

/-- `V[k][i]`: lane `i` after the first `k` chunks (R148). -/
def absorbed (c : Config) (m : Message) (lenl : Nat) : Nat → Nat → Byte16
  | 0, i => seedAt c i
  | k + 1, i =>
    if i = k % c.L then mix c i (absorbed c m lenl k i ^^^ messageChunk m lenl k) else absorbed c m lenl k i

/-- The whitening of the finalizer (42_finalize_ops R123). -/
def whiten (c : Config) (a : Byte16) : Byte16 := aesr (aesr (aesr a c.fk) c.fk) zero16

/-- `Digest(M)` (R148). -/
def digestOf (c : Config) (m : Message) (lenl : Nat) : Byte16 :=
  whiten c (foldLanes ((List.range c.L).map (absorbed c m lenl (chunkCount lenl))) ^^^ lengthBlock lenl)

/-- The lane message byte `off` is routed to (10_state R24). -/
def routedLane (c : Config) (off : Nat) : Nat := off / 16 % c.L

end Sys2Proof.Machine
end

