-- ==== Sys2Proof/Machine/Schedule.lean ====
section
/-! DEFINITION. The pseudo-operations (30_encoding R80), the two schedules written out as lists (43_sequencer_optimized
R130, 44_reference_absorber R160), their sizes (R149, R165), and the assembler text of a micro-operation (R79). The step
does not read these: they are the clear form that the sequencers' steps are held to. -/

namespace Sys2Proof.Machine

/-- `ABSORB lane, cnt` (R80). -/
def absorbOps (lane cnt : Nat) : List Instr :=
  [.xord (field lane) (field cnt), .rndf (field lane) (field cnt), .rndf (field lane) (field cnt),
   .rndz (field lane) (field cnt)]

/-- `ABSORBP lane` (R80). -/
def absorbPartOps (lane : Nat) : List Instr :=
  [.xorp (field lane), .rndf (field lane) 1, .rndf (field lane) 1, .rndz (field lane) 1]

/-- `MIXD lane, cnt` (R80). -/
def mixDataOps (lane cnt : Nat) : List Instr :=
  [.rndf (field lane) (field cnt), .rndf (field lane) (field cnt), .rndd (field lane) (field cnt)]

/-- `MIXZ lane, cnt` (R80). -/
def mixZeroOps (lane cnt : Nat) : List Instr :=
  [.rndf (field lane) (field cnt), .rndf (field lane) (field cnt), .rndz (field lane) (field cnt)]

/-- `FINAL` (R80, R143). -/
def finalOps : List Instr := [.fold, .lenx, .rndk 0 1, .rndk 0 1, .rndz 0 1, .out]

/-- `BULK` (R133 to R136). -/
def bulkOps (c : Config) (lenl : Nat) : List Instr :=
  if 1 ≤ nsb c lenl then
    (List.range (groups c)).map (fun g => .xord (field (g * c.G)) (field c.G)) ++
    (List.range (nsb c lenl - 1)).flatMap (fun _ =>
      (List.range (groups c)).flatMap fun g => mixDataOps (g * c.G) c.G) ++
    (List.range (groups c)).flatMap (fun g => mixZeroOps (g * c.G) c.G)
  else []

/-- `TAIL` (R138 to R141). -/
def tailOps (c : Config) (lenl : Nat) : List Instr :=
  (List.range (ntc c lenl / c.G)).flatMap (fun j => absorbOps (j * c.G) c.G) ++
  (List.range (ntc c lenl % c.G)).flatMap (fun j => absorbOps (ntc c lenl / c.G * c.G + j) 1) ++
  (if 0 < remBytes lenl then absorbPartOps (ntc c lenl) else [])

/-- OPT_SCHEDULE (R130). -/
def optSchedule (c : Config) (lenl : Nat) : List Instr :=
  [.ldseed] ++ bulkOps c lenl ++ tailOps c lenl ++ finalOps

/-- One chunk of REF_SCHEDULE (R160, R162, R163). -/
def chunkOps (c : Config) (lenl k : Nat) : List Instr :=
  if k + 1 = chunkCount lenl ∧ 0 < remBytes lenl then absorbPartOps (k % c.L) else absorbOps (k % c.L) 1

/-- REF_SCHEDULE (R160). -/
def refSchedule (c : Config) (lenl : Nat) : List Instr :=
  [.ldseed] ++ (List.range (chunkCount lenl)).flatMap (chunkOps c lenl) ++ finalOps

/-- Unit `u`'s schedule. -/
def schedule (u : UnitId) (c : Config) (lenl : Nat) : List Instr :=
  match u with
  | .opt => optSchedule c lenl
  | .ref => refSchedule c lenl

/-- The micro-operations of the bulk stage, `[NSB >= 1] * NG * (3 * NSB + 1)` (R149). -/
def bulkSize (c : Config) (lenl : Nat) : Nat :=
  if 1 ≤ nsb c lenl then groups c * (3 * nsb c lenl + 1) else 0

/-- `N_opt` (R149). -/
def optSize (c : Config) (lenl : Nat) : Nat :=
  7 + bulkSize c lenl + 4 * (ntc c lenl / c.G + ntc c lenl % c.G + (if 0 < remBytes lenl then 1 else 0))

/-- `N_ref` (R165). -/
def refSize (lenl : Nat) : Nat := 4 * chunkCount lenl + 7

/-- The size of unit `u`'s schedule. -/
def scheduleSize (u : UnitId) (c : Config) (lenl : Nat) : Nat :=
  match u with
  | .opt => optSize c lenl
  | .ref => refSize lenl

/-- How many AES rounds a micro-operation evaluates: one per named lane of a round (40_aes_round_ops R99). -/
def roundCount : Instr → Nat
  | .rndf _ cnt => cnt.toNat
  | .rndz _ cnt => cnt.toNat
  | .rndd _ cnt => cnt.toNat
  | .rndk _ cnt => cnt.toNat
  | _ => 0

/-- Micro-operations one after the other on the active unit. -/
def runUops : List Instr → State → Host.Outcome State Fault Refusal
  | [], s => .next s
  | i :: is, s =>
    match exec i s with
    | .next t => runUops is t
    | .fault f => .fault f
    | .refused r => .refused r

/-- `NAME lane, cnt` in decimal. -/
def assemblyULC (name : String) (lane cnt : BitVec 6) : String :=
  name ++ " " ++ toString lane.toNat ++ ", " ++ toString cnt.toNat

/-- The assembler text of a micro-operation (R79); the illegal words and the host commands have none. -/
def assembly : Instr → Option String
  | .ldseed => some "LDSEED"
  | .xord lane cnt => some (assemblyULC "XORD" lane cnt)
  | .xorp lane => some ("XORP " ++ toString lane.toNat)
  | .rndf lane cnt => some (assemblyULC "RNDF" lane cnt)
  | .rndz lane cnt => some (assemblyULC "RNDZ" lane cnt)
  | .rndd lane cnt => some (assemblyULC "RNDD" lane cnt)
  | .rndk lane cnt => some (assemblyULC "RNDK" lane cnt)
  | .fold => some "FOLD"
  | .lenx => some "LENX"
  | .out => some "OUT"
  | .illegalOp0 _ => none
  | .reservedOpB _ => none
  | .reservedOpC _ => none
  | .reservedOpD _ => none
  | .reservedOpE _ => none
  | .reservedOpF _ => none
  | .startOpt _ _ => none
  | .startRef _ => none

end Sys2Proof.Machine
end

