-- ==== Sys2Proof/Safety.lean ====
section
/-! DEFINITION. What the statements mean by a legal state, by a unit that is where its schedule says, and by a message
that can be read. -/

namespace Sys2Proof.Machine

/-- At most one of `BUSY`, `DONE`, `FAULT` is 1 (10_state R32). -/
def UnitState.flagsLegal (x : UnitState) : Bool :=
  !(x.busy && x.done) && !(x.busy && x.fault) && !(x.done && x.fault)

/-- `FCAUSE` is 0 without a fault and a code from 1 to 5 with one (60_exceptions R185). -/
def UnitState.causeLegal (x : UnitState) : Bool :=
  if x.fault then decide (1 ≤ x.fcause.toNat) && decide (x.fcause.toNat ≤ 5) else x.fcause == 0

/-- Either no lane holds a value or all `L` do (10_state R23). -/
def UnitState.lanesLegal (c : Config) (x : UnitState) : Bool :=
  match x.lanes with
  | some ls => ls.length == c.L
  | none => true

/-- The digest register holds a value exactly while `DONE` is 1 (10_state R38). -/
def UnitState.digestLegal (x : UnitState) : Bool := x.digest.isSome == x.done

/-- `CUR <= LENL < 2^64` (00_scope R12, 10_state R30). -/
def UnitState.cursorLegal (x : UnitState) : Bool := decide (x.cur ≤ x.lenl) && decide (x.lenl < 2 ^ 64)

/-- What every step keeps, of one unit. -/
def UnitState.legal (c : Config) (x : UnitState) : Bool :=
  x.flagsLegal && x.causeLegal && x.lanesLegal c && x.digestLegal && x.cursorLegal && x.msg.wf

/-- What every step keeps: a legal instance, and two legal units. -/
def State.Legal (s : State) : Prop :=
  s.cfg.Valid ∧ s.opt.legal s.cfg = true ∧ s.ref.legal s.cfg = true

/-- Every byte of the message is delivered (45_host_operations R181, first duty). -/
def Readable (m : Message) (lenl : Nat) : Prop := ∀ a, a < lenl → (m.read a).isSome = true

/-- The invocation has just begun: nothing has been issued (45_host_operations R171). -/
def UnitState.JustStarted (x : UnitState) : Prop :=
  x.busy = true ∧ x.done = false ∧ x.fault = false ∧ x.lanes = none ∧ x.digest = none ∧ x.cur = 0 ∧ x.upc = 0 ∧
  x.seq.point = .init

/-- The bytes the bulk stage consumes, `NSB * S` (43_sequencer_optimized R133, R137). -/
def bulkBytes (c : Config) (lenl : Nat) : Nat := nsb c lenl * superBlock c

/-- The offset of the first byte not yet read, by the sequencer's place alone: the loop invariants of OPT_SCHEDULE (R134,
R135, R137, R139 to R141, R146). -/
def optCursor (c : Config) (lenl : Nat) (q : SeqRegs) : Nat :=
  match q.point with
  | .init => 0
  | .bulkLoad => 16 * (q.gi * c.G)
  | .loopRnd1 | .loopRnd2 | .loopData => q.sb * superBlock c + 16 * (q.gi * c.G)
  | .postRnd1 | .postRnd2 | .postZero | .tailEntry => bulkBytes c lenl
  | .groupTest | .singleTest => bulkBytes c lenl + 16 * q.tl
  | .groupRnd1 | .groupRnd2 | .groupZero => bulkBytes c lenl + 16 * (q.tl + c.G)
  | .singleRnd1 | .singleRnd2 | .singleZero => bulkBytes c lenl + 16 * (q.tl + 1)
  | _ => lenl

/-- The index in OPT_SCHEDULE of the micro-operation the place issues next (R144, R149). -/
def optIndex (c : Config) (lenl : Nat) (q : SeqRegs) : Nat :=
  let tail := 1 + bulkSize c lenl
  let singles := tail + 4 * (ntc c lenl / c.G) + 4 * (q.tl - ntc c lenl / c.G * c.G)
  let part := tail + 4 * (ntc c lenl / c.G + ntc c lenl % c.G)
  let final := optSize c lenl - 6
  match q.point with
  | .init => 0
  | .bulkLoad => 1 + q.gi
  | .loopRnd1 => 1 + groups c * (3 * q.sb - 2) + 3 * q.gi
  | .loopRnd2 => 2 + groups c * (3 * q.sb - 2) + 3 * q.gi
  | .loopData => 3 + groups c * (3 * q.sb - 2) + 3 * q.gi
  | .postRnd1 => 1 + groups c * (3 * nsb c lenl - 2) + 3 * q.gi
  | .postRnd2 => 2 + groups c * (3 * nsb c lenl - 2) + 3 * q.gi
  | .postZero => 3 + groups c * (3 * nsb c lenl - 2) + 3 * q.gi
  | .tailEntry => tail
  | .groupTest => tail + 4 * (q.tl / c.G)
  | .groupRnd1 => tail + 4 * (q.tl / c.G) + 1
  | .groupRnd2 => tail + 4 * (q.tl / c.G) + 2
  | .groupZero => tail + 4 * (q.tl / c.G) + 3
  | .singleTest => singles
  | .singleRnd1 => singles + 1
  | .singleRnd2 => singles + 2
  | .singleZero => singles + 3
  | .partRnd1 => part + 1
  | .partRnd2 => part + 2
  | .partZero => part + 3
  | .fold => final
  | .lenx => final + 1
  | .key1 => final + 2
  | .key2 => final + 3
  | .white => final + 4
  | .out => final + 5
  | _ => optSize c lenl

/-- The ranges of the loop variables at each place of OPT_SCHEDULE (R130, R142). -/
def optRanges (c : Config) (lenl : Nat) (q : SeqRegs) : Bool :=
  match q.point with
  | .init | .tailEntry | .fold | .lenx | .key1 | .key2 | .white | .out => true
  | .bulkLoad => decide (1 ≤ nsb c lenl) && decide (q.gi < groups c)
  | .loopRnd1 | .loopRnd2 | .loopData =>
    decide (1 ≤ q.sb) && decide (q.sb < nsb c lenl) && decide (q.gi < groups c)
  | .postRnd1 | .postRnd2 | .postZero =>
    decide (1 ≤ nsb c lenl) && decide (q.sb = nsb c lenl) && decide (q.gi < groups c)
  | .groupTest => decide (q.tl % c.G = 0) && decide (q.tl ≤ ntc c lenl)
  | .groupRnd1 | .groupRnd2 | .groupZero => decide (q.tl % c.G = 0) && decide (q.tl + c.G ≤ ntc c lenl)
  | .singleTest => decide (ntc c lenl / c.G * c.G ≤ q.tl) && decide (q.tl ≤ ntc c lenl)
  | .singleRnd1 | .singleRnd2 | .singleZero =>
    decide (ntc c lenl / c.G * c.G ≤ q.tl) && decide (q.tl + 1 ≤ ntc c lenl)
  | .partRnd1 | .partRnd2 | .partZero => decide (q.tl = ntc c lenl) && decide (0 < remBytes lenl)
  | _ => false

/-- `CUR` at each place of REF_SCHEDULE (44_reference_absorber R160, R162). -/
def refCursor (lenl : Nat) (q : SeqRegs) : Nat :=
  match q.point with
  | .init => 0
  | .chunkLoad => 16 * q.k
  | .chunkRnd1 | .chunkRnd2 | .chunkZero => min lenl (16 * (q.k + 1))
  | _ => lenl

/-- The index in REF_SCHEDULE of the micro-operation the place issues next (R165). -/
def refIndex (lenl : Nat) (q : SeqRegs) : Nat :=
  match q.point with
  | .init => 0
  | .chunkLoad => 1 + 4 * q.k
  | .chunkRnd1 => 2 + 4 * q.k
  | .chunkRnd2 => 3 + 4 * q.k
  | .chunkZero => 4 + 4 * q.k
  | .fold => 1 + 4 * chunkCount lenl
  | .lenx => 2 + 4 * chunkCount lenl
  | .key1 => 3 + 4 * chunkCount lenl
  | .key2 => 4 + 4 * chunkCount lenl
  | .white => 5 + 4 * chunkCount lenl
  | .out => 6 + 4 * chunkCount lenl
  | _ => refSize lenl

/-- The range of `K` at each place of REF_SCHEDULE. -/
def refRanges (lenl : Nat) (q : SeqRegs) : Bool :=
  match q.point with
  | .init | .fold | .lenx | .key1 | .key2 | .white | .out => true
  | .chunkLoad | .chunkRnd1 | .chunkRnd2 | .chunkZero => decide (q.k < chunkCount lenl)
  | _ => false

/-- A busy unit stands in its schedule: its cursor and `UPC` are what the place says, and past the first
micro-operation its lanes hold values. A unit that is not busy may be anywhere. -/
def onSchedule (u : UnitId) (c : Config) (x : UnitState) : Bool :=
  !x.busy ||
  ((match u with
    | .opt =>
      optRanges c x.lenl x.seq && decide (x.cur = optCursor c x.lenl x.seq) && decide (x.upc = optIndex c x.lenl x.seq)
    | .ref => refRanges x.lenl x.seq && decide (x.cur = refCursor x.lenl x.seq) && decide (x.upc = refIndex x.lenl x.seq))
   && (x.lanes.isSome || decide (x.seq.point = .init)))

/-- The loop variables fit the widths the spec gives them (10_state R29). -/
def SeqRegs.fit (q : SeqRegs) : Bool :=
  decide (q.tl < 2 ^ 6) && decide (q.gi < 2 ^ 6) && decide (q.sb < 2 ^ 64) && decide (q.k < 2 ^ 64)

/-- The complete hardware: legal, and each unit where its schedule says. -/
def State.Running (s : State) : Prop :=
  s.Legal ∧ onSchedule .opt s.cfg s.opt = true ∧ onSchedule .ref s.cfg s.ref = true ∧
  s.opt.seq.fit = true ∧ s.ref.seq.fit = true

/-- A move of the complete hardware: any but handing a word to a datapath taken alone (log 6). -/
def Move.ofHardware : Move → Bool
  | .hand _ _ => false
  | .regWrite _ _ => true
  | .regRead _ => true
  | .sequence _ => true
  | .place _ _ _ => true
  | .reset => true

/-- The fault R186 names for a word `w` handed to a unit in state `x`: the first of its three conditions that holds.
`op`, `lane`, `cnt` are the word's fields as numbers (30_encoding R70). -/
def faultOfWord (c : Config) (x : UnitState) (w : Nat) : Option Cause :=
  let op := w / 4096
  let lane := w / 64 % 64
  let cnt := w % 64
  let isU0 := op = 1 ∨ op = 8 ∨ op = 9 ∨ op = 10
  let isULC := op = 2 ∨ op = 4 ∨ op = 5 ∨ op = 6 ∨ op = 7
  if op = 0 ∨ 11 ≤ op ∨ (isU0 ∧ ¬(lane = 0 ∧ cnt = 0)) ∨ (op = 3 ∧ cnt ≠ 1) ∨ (isULC ∧ cnt = 0) ∨
      ((op = 3 ∨ isULC) ∧ c.L < lane + cnt) then some .illegalUop
  else if op ≠ 1 ∧ x.lanes = none then some .laneNoValue
  else if (op = 2 ∨ op = 6) ∧ x.lenl < x.cur + 16 * cnt then some .readOverrun
  else if op = 3 ∧ ¬(1 ≤ x.lenl - x.cur ∧ x.lenl - x.cur ≤ 15) then some .readOverrun
  else none

/-- The message spaces read alike before and after, byte by byte. -/
def MessagesUnchanged (s t : State) : Prop :=
  ∀ u a, (t.unit u).msg.read a = (s.unit u).msg.read a

/-- The active unit after a micro-operation that writes its lanes, its cursor and `UPC` and nothing else; everything
outside that unit is as in `s`. -/
def State.lanesWritten (s : State) (ls : List Byte16) (cur : Nat) : State :=
  s.setUnit s.active { s.unit s.active with lanes := some ls, cur := cur, upc := (s.unit s.active).upc + 1 }

/-- `i` names `lane .. lane+cnt-1` and is one of the fixed-key rounds. -/
def IsFixedRound (i : Instr) (lane cnt : BitVec 6) : Prop :=
  i = .rndf lane cnt ∨ i = .rndk lane cnt ∨ i = .rndz lane cnt

/-- `i` names `lane .. lane+cnt-1` and takes message bytes. -/
def IsDataOp (i : Instr) (lane cnt : BitVec 6) : Prop :=
  i = .xord lane cnt ∨ i = .rndd lane cnt ∨ (i = .xorp lane ∧ cnt = 1)

/-- A fixed-key round `i` with key `key` does what R99 says of every legal form, on every state whose lanes hold values:
it completes, each named lane gets one AES round, and nothing else but `UPC` changes. -/
def RoundsNamedLanes (i : BitVec 6 → BitVec 6 → Instr) (key : Config → Nat → Byte16) : Prop :=
  ∀ (s : State) (x : UnitState) (ls : List Byte16) (lane cnt : BitVec 6),
    s.unit s.active = x → x.lanes = some ls → 1 ≤ cnt.toNat → lane.toNat + cnt.toNat ≤ s.cfg.L →
    ∃ ls', exec (i lane cnt) s = .next (s.lanesWritten ls' x.cur) ∧ ls'.length = ls.length ∧
      (∀ j, lane.toNat ≤ j → j < lane.toNat + cnt.toNat → ls'[j]? = (ls[j]?).map fun v => aesr v (key s.cfg j)) ∧
      (∀ j, j < lane.toNat ∨ lane.toNat + cnt.toNat ≤ j → ls'[j]? = ls[j]?) ∧
      MessagesUnchanged s (s.lanesWritten ls' x.cur)

/-- From every state in which `i lane cnt` completes, running `i` on its named lanes one at a time, in the order `order`
gives the lane offsets, has the same effect but for the count in `UPC` (41_init_absorb_ops R113). -/
def SplitsInOrder (i : BitVec 6 → BitVec 6 → Instr) (order : List Nat) : Prop :=
  ∀ (s t : State) (lane cnt : BitVec 6), s.cfg.L ≤ 63 → order.Perm (List.range cnt.toNat) →
    exec (i lane cnt) s = .next t → (t.unit s.active).upc = (s.unit s.active).upc + 1 →
    runUops (order.map fun j => i (lane + BitVec.ofNat 6 j) 1) s =
      .next (t.setUnit s.active { t.unit s.active with upc := (s.unit s.active).upc + cnt.toNat })

/-- The other unit. -/
def UnitId.other : UnitId → UnitId
  | .opt => .ref
  | .ref => .opt

/-- Two units that differ at most in the values of data: lanes, digest, scratch buffers, message bytes
(43_sequencer_optimized R147). -/
def SameControlUnit (x y : UnitState) : Prop :=
  x.lanes.isSome = y.lanes.isSome ∧ x.digest.isSome = y.digest.isSome ∧ x.busy = y.busy ∧ x.done = y.done ∧
  x.fault = y.fault ∧ x.fcause = y.fcause ∧ x.upc = y.upc ∧ x.cur = y.cur ∧ x.lenl = y.lenl ∧ x.seq = y.seq ∧
  ∀ a, (x.msg.read a).isSome = (y.msg.read a).isSome

/-- Two machines that differ at most in the values of data and of tables. -/
def SameControl (s t : State) : Prop :=
  s.cfg.L = t.cfg.L ∧ s.cfg.G = t.cfg.G ∧ SameControlUnit s.opt t.opt ∧ SameControlUnit s.ref t.ref ∧
  s.lenLo = t.lenLo ∧ s.lenHi = t.lenHi ∧ s.active = t.active ∧ s.moves = t.moves ∧ s.draws = t.draws

end Sys2Proof.Machine
end

