-- ==== Sys2Proof/Certificates/Slice0/Obligations.lean ====
section
/-! DEFINITION. The statements for the provers. Each docstring says which rule of spec/ it formalises. -/

open Sys2Proof Sys2Proof.Machine

/-! ## Encoding -/

/-- Decoding the word of a well-formed instruction gives the instruction back, every operand at every value (R70, R71,
R76, R78). -/
def Obligations.DecodeOfEncodeIsTheInstruction : Prop :=
  ∀ i : Instr, i.wellFormed = true → decodeTableWord i.nbits (encode i) = some i

/-- Every word has at most one meaning, and that meaning's word is the word: no bit is dropped (R70, R76, R78). -/
def Obligations.EncodeOfDecodeIsTheWord : Prop :=
  (∀ (w : BitVec 16) (i : Instr), decodeWord w = .ok i → i.wellFormed = true ∧ i.nbits = 16 ∧ uopWord i = w) ∧
  (∀ (v : BitVec 32) (i : Instr), decodeCommand v = .ok i → i.wellFormed = true ∧ i.nbits = 32 ∧ encode i = v.toNat)

/-- Words of 95_test_vectors section 4.1 decode as its table says, one per opcode, and two words to `CTRL`. -/
def Obligations.ListedWordsDecodeAsListed : Prop :=
  decodeWord 0x1000 = .ok .ldseed ∧ decodeWord 0x20C2 = .ok (.xord 3 2) ∧ decodeWord 0x3081 = .ok (.xorp 2) ∧
  decodeWord 0x4304 = .ok (.rndf 12 4) ∧ decodeWord 0x5102 = .ok (.rndz 4 2) ∧ decodeWord 0x6082 = .ok (.rndd 2 2) ∧
  decodeWord 0x7010 = .ok (.rndk 0 16) ∧ decodeWord 0x8000 = .ok .fold ∧ decodeWord 0x9000 = .ok .lenx ∧
  decodeWord 0xA000 = .ok .out ∧ decodeWord 0x1040 = .error .fieldNotZero ∧ decodeWord 0x2000 = .error .countZero ∧
  decodeWord 0x3082 = .error .countNotOne ∧ decodeWord 0xFFFF = .ok (.reservedOpF 0xFFF) ∧
  decodeCommand 0x80000001 = .ok (.startOpt false 0x20000000) ∧ decodeCommand 0xFFFFFFFC = .error .noCommand

/-! ## A step, and a word handed to a datapath -/

/-- A step runs the decoded instruction: a word handed to a busy unit, a word written to `CTRL`, a sequencer's turn
(after which the sequencer advances if the micro-operation completed), and a word placed by `withFetchWord`. The list of
moves and the handed word are the model's own (log 5, log 6). -/
def Obligations.StepRunsTheDecodedInstruction : Prop :=
  (∀ (s : State) (u : UnitId) (w : BitVec 16) (rest : List Move) (i : Instr),
    s.moves = .hand u w :: rest → (s.unit u).busy = true → decodeWord w = .ok i →
    step s = exec i { s with moves := rest, active := u }) ∧
  (∀ (s : State) (v : BitVec 32) (rest : List Move) (i : Instr),
    s.moves = .regWrite 0 v :: rest → decodeCommand v = .ok i → step s = exec i { s with moves := rest }) ∧
  (∀ (s : State) (u : UnitId) (rest : List Move) (i : Instr) (q : SeqRegs),
    s.moves = .sequence u :: rest → (s.unit u).busy = true → issue u s.cfg (s.unit u) = .uop i q →
    decodeWord (uopWord i) = .ok i →
    step s = advanceSeq u s q (exec i { s with moves := rest, active := u })) ∧
  (∀ (s : State) (w : Nat) (i : Instr), decodeTableWord 16 w = some i →
    step (s.withFetchWord 16 w) = exec i { s with active := .opt, opt := { s.opt with busy := true } }) ∧
  (∀ (s : State) (w : Nat) (i : Instr), decodeTableWord 32 w = some i → step (s.withFetchWord 32 w) = exec i s)

/-- The model's form of the agents' interleaving when no move is pending (log 5, log 13): a machine with no busy unit
stays as it is (R201, R212), else the step is a step of one busy unit's sequencer (R144, R166). -/
def Obligations.StepWithoutMovesIsABusyUnitsStep : Prop :=
  ∀ s : State, s.moves = [] →
    (s.opt.busy = false → s.ref.busy = false → step s = .next s) ∧
    (s.opt.busy = true ∨ s.ref.busy = true →
      ∃ u n, (s.unit u).busy = true ∧ s.draws ≤ n ∧ step s = sequencerStep u { s with draws := n })

/-- R186: the datapath of a unit handed any word raises the first of its three conditions that holds, and if none holds
it executes the micro-operation the word is, which then raises no fault. -/
def Obligations.HandedWordFaultsInTheOrderOfTheRule : Prop :=
  ∀ (s : State) (u : UnitId) (w : BitVec 16),
    match faultOfWord s.cfg (s.unit u) w.toNat with
    | some k => handWord u w s = .next (({ s with active := u } : State).raise u k)
    | none => ∃ i t, decodeWord w = .ok i ∧ i.legalUop s.cfg.L = true ∧ handWord u w s = exec i { s with active := u } ∧
        exec i { s with active := u } = .next t ∧ (t.unit u).fault = (s.unit u).fault ∧
        (t.unit u).fcause = (s.unit u).fcause

/-! ## Initialization and absorption -/

/-- R110: on a legal instance `LDSEED` completes on every state and gives the lanes exactly the seed table. -/
def Obligations.LdseedLoadsTheSeedTable : Prop :=
  ∀ s : State, s.cfg.Valid →
    exec .ldseed s = .next (s.lanesWritten s.cfg.seed (s.unit s.active).cur) ∧
    MessagesUnchanged s (s.lanesWritten s.cfg.seed (s.unit s.active).cur)

/-- R111, R73: a legal `XORD` on lanes that hold values, with its bytes below `LENL` and delivered, completes; byte `b` of
the `j`-th named lane is exclusive-ored with message byte `CUR + 16 j + b`, other lanes keep their values, `CUR` advances
by `16 * cnt`, nothing else changes. -/
def Obligations.XordAbsorbsConsecutiveChunks : Prop :=
  ∀ (s : State) (x : UnitState) (ls : List Byte16) (lane cnt : BitVec 6),
    s.unit s.active = x → x.lanes = some ls → 1 ≤ cnt.toNat → lane.toNat + cnt.toNat ≤ s.cfg.L →
    x.cur + 16 * cnt.toNat ≤ x.lenl →
    (∀ a, x.cur ≤ a → a < x.cur + 16 * cnt.toNat → (x.msg.read a).isSome = true) →
    ∃ ls', exec (.xord lane cnt) s = .next (s.lanesWritten ls' (x.cur + 16 * cnt.toNat)) ∧ ls'.length = ls.length ∧
      (∀ j v, j < cnt.toNat → ls[lane.toNat + j]? = some v → ∃ w, ls'[lane.toNat + j]? = some w ∧
        ∀ b, b < 16 → byteAt w b = byteAt v b ^^^ (x.msg.read (x.cur + 16 * j + b)).getD 0) ∧
      (∀ j, j < lane.toNat ∨ lane.toNat + cnt.toNat ≤ j → ls'[j]? = ls[j]?) ∧
      MessagesUnchanged s (s.lanesWritten ls' (x.cur + 16 * cnt.toNat))

/-- R112, R74: a legal `XORP` with 1 to 15 bytes left, all delivered, completes: `PADBUF` gets the last bytes and then
zeros, the named lane is exclusive-ored with it, `CUR` becomes `LENL`, nothing else changes. -/
def Obligations.XorpAbsorbsThePaddedChunk : Prop :=
  ∀ (s : State) (x : UnitState) (ls : List Byte16) (lane : BitVec 6),
    s.unit s.active = x → x.lanes = some ls → lane.toNat < s.cfg.L → x.cur < x.lenl → x.lenl ≤ x.cur + 15 →
    (∀ a, x.cur ≤ a → a < x.lenl → (x.msg.read a).isSome = true) →
    ∃ ls' pad t, exec (.xorp lane) s = .next t ∧
      t = s.setUnit s.active { x with lanes := some ls', padbuf := pad, cur := x.lenl, upc := x.upc + 1 } ∧
      (∀ b, b < 16 → byteAt pad b = if x.cur + b < x.lenl then (x.msg.read (x.cur + b)).getD 0 else 0) ∧
      ls'[lane.toNat]? = (ls[lane.toNat]?).map (fun v => v ^^^ pad) ∧
      (∀ j, j ≠ lane.toNat → ls'[j]? = ls[j]?) ∧ MessagesUnchanged s t

/-- R181 (first duty), D35: a data micro-operation that passes every check but needs a byte that is not delivered waits:
nothing changes. That the model waits, where I24 also allows to refuse, is the model's choice (log 7). -/
def Obligations.DataOperationWaitsForAnUndeliveredByte : Prop :=
  ∀ (s : State) (x : UnitState) (ls : List Byte16) (lane cnt : BitVec 6) (a : Nat),
    s.unit s.active = x → x.lanes = some ls → x.cur ≤ a → x.msg.read a = none →
    (1 ≤ cnt.toNat → lane.toNat + cnt.toNat ≤ s.cfg.L → x.cur + 16 * cnt.toNat ≤ x.lenl → a < x.cur + 16 * cnt.toNat →
      exec (.xord lane cnt) s = .next s ∧ exec (.rndd lane cnt) s = .next s) ∧
    (lane.toNat < s.cfg.L → x.lenl ≤ x.cur + 15 → a < x.lenl → exec (.xorp lane) s = .next s)

/-! ## Rounds -/

/-- R99 to R102: every legal `RNDF`, `RNDK`, `RNDZ` on lanes that hold values completes, with the key of the lane, the
finalizer key, the zero key. -/
def Obligations.FixedKeyRoundsRoundTheNamedLanes : Prop :=
  RoundsNamedLanes .rndf roundKeyAt ∧ RoundsNamedLanes .rndk (fun c _ => c.fk) ∧
  RoundsNamedLanes .rndz (fun _ _ => zero16)

/-- R103, R73: a legal `RNDD` on lanes that hold values, with its bytes below `LENL` and delivered, completes; the key of
the `j`-th named lane is the chunk at `CUR + 16 j`, and `CUR` advances by `16 * cnt`. -/
def Obligations.RnddKeysRoundsWithConsecutiveChunks : Prop :=
  ∀ (s : State) (x : UnitState) (ls : List Byte16) (lane cnt : BitVec 6),
    s.unit s.active = x → x.lanes = some ls → 1 ≤ cnt.toNat → lane.toNat + cnt.toNat ≤ s.cfg.L →
    x.cur + 16 * cnt.toNat ≤ x.lenl →
    (∀ a, x.cur ≤ a → a < x.cur + 16 * cnt.toNat → (x.msg.read a).isSome = true) →
    ∃ ls', exec (.rndd lane cnt) s = .next (s.lanesWritten ls' (x.cur + 16 * cnt.toNat)) ∧ ls'.length = ls.length ∧
      (∀ j, j < cnt.toNat → ∃ key, (∀ b, b < 16 → x.msg.read (x.cur + 16 * j + b) = some (byteAt key b)) ∧
        ls'[lane.toNat + j]? = (ls[lane.toNat + j]?).map fun v => aesr v key) ∧
      (∀ j, j < lane.toNat ∨ lane.toNat + cnt.toNat ≤ j → ls'[j]? = ls[j]?) ∧
      MessagesUnchanged s (s.lanesWritten ls' (x.cur + 16 * cnt.toNat))

/-- R91 to R95: the check values of 95_test_vectors section 2 (the AES standard's examples). -/
def Obligations.RoundReproducesTheStandardsExamples : Prop :=
  aesr (0xf0e0d0c0b0a090807060504030201000#128) (0xfe76abd6f178a6dafa72afd2fd74aad6#128)
    = 0xe48f12cbd843182d68ce5a85e810d889#128 ∧
  aesr (0x0848f8e92a8dc69a2be2f4a0bee33d19#128) (0x05766c2a3939a323b12c548817fefaa0#128)
    = 0x49506a0243ea5b6b2b359f68f27f9ca4#128 ∧
  aesr zero16 zero16 = 0x63636363636363636363636363636363#128

/-- R93's definition of its table: the entry for `a` is the affine image of the inverse of `a` in GF(2^8) modulo `0x11B`,
0 counting as its own inverse. -/
def Obligations.SubstitutionTableIsAffineOfInverse : Prop :=
  sbox 0 = sboxAffine 0 ∧ ∀ a : Byte, a ≠ 0 → ∃ b : Byte, gfMul a b = 1 ∧ sbox a = sboxAffine b

/-- R97. -/
def Obligations.KeyEntersByExclusiveOr : Prop :=
  ∀ s k : Byte16, aesr s k = aesr s zero16 ^^^ k

/-- R91, last sentence but one: for a fixed key the round is a bijection. -/
def Obligations.RoundIsABijection : Prop :=
  ∀ k : Byte16, Function.Bijective fun s => aesr s k

/-- R104: wherever `RNDD` completes, `RNDZ` and then `XORD` leave the same state but for one more in `UPC`. -/
def Obligations.DataKeyedRoundIsZeroRoundThenXor : Prop :=
  ∀ (s t : State) (lane cnt : BitVec 6), exec (.rndd lane cnt) s = .next t →
    (t.unit s.active).upc = (s.unit s.active).upc + 1 →
    runUops [.rndz lane cnt, .xord lane cnt] s =
      .next (t.setUnit s.active { t.unit s.active with upc := (t.unit s.active).upc + 1 })

/-- R113: a completed micro-operation on `cnt` lanes is the `cnt` micro-operations on one lane each: for `XORD` and `RNDD`
in ascending order, for `RNDF`, `RNDK`, `RNDZ` in any order. -/
def Obligations.LaneRangesSplitIntoSingleLanes : Prop :=
  (∀ n, SplitsInOrder .xord (List.range n)) ∧ (∀ n, SplitsInOrder .rndd (List.range n)) ∧
  (∀ order, SplitsInOrder .rndf order ∧ SplitsInOrder .rndk order ∧ SplitsInOrder .rndz order)

/-- R114, of rounds and data micro-operations: a fixed-key round commutes with any other fixed-key round or data
micro-operation on disjoint lanes, from every state whose lanes hold values. -/
def Obligations.RoundsOnDisjointLanesCommute : Prop :=
  ∀ (s : State) (ls : List Byte16) (i j : Instr) (a m b n : BitVec 6),
    (s.unit s.active).lanes = some ls → (IsFixedRound i a m ∨ IsDataOp i a m) → IsFixedRound j b n →
    i.legalUop s.cfg.L = true → j.legalUop s.cfg.L = true →
    (a.toNat + m.toNat ≤ b.toNat ∨ b.toNat + n.toNat ≤ a.toNat) →
    runUops [i, j] s = runUops [j, i] s

/-! ## Finalization -/

/-- R120: `FOLD` on lanes that hold values completes and lane 0 gets the exclusive or of all lanes, whatever order `p`
visits them in; the other lanes keep their values and nothing else changes. -/
def Obligations.FoldXorsAllLanesInAnyOrder : Prop :=
  ∀ (s : State) (x : UnitState) (ls p : List Byte16), s.unit s.active = x → x.lanes = some ls → ls ≠ [] → p.Perm ls →
    ∃ ls', exec .fold s = .next (s.lanesWritten ls' x.cur) ∧ ls'.length = ls.length ∧
      ls'[0]? = some (p.foldr (fun v acc => v ^^^ acc) zero16) ∧ (∀ j, 1 ≤ j → ls'[j]? = ls[j]?) ∧
      MessagesUnchanged s (s.lanesWritten ls' x.cur)

/-- R121, R75: `LENX` on lanes that hold values completes and exclusive-ors the length, eight bytes little-endian then
zeros, into lane 0; nothing else but `LENBUF` and `UPC` changes. -/
def Obligations.LenxXorsTheLengthBlock : Prop :=
  ∀ (s : State) (x : UnitState) (v : Byte16) (vs : List Byte16), s.unit s.active = x → x.lanes = some (v :: vs) →
    ∃ block t, exec .lenx s = .next t ∧
      t = s.setUnit s.active { x with lanes := some ((v ^^^ block) :: vs), lenbuf := block, upc := x.upc + 1 } ∧
      (∀ b, b < 8 → byteAt block b = BitVec.ofNat 8 (x.lenl / 256 ^ b)) ∧
      (∀ b, 8 ≤ b → b < 16 → byteAt block b = 0) ∧ MessagesUnchanged s t

/-- R122: `OUT` on lanes that hold values completes: the digest register gets lane 0, `BUSY` is cleared, `DONE` set. -/
def Obligations.OutDeliversLaneZero : Prop :=
  ∀ (s : State) (x : UnitState) (v : Byte16) (vs : List Byte16), s.unit s.active = x → x.lanes = some (v :: vs) →
    ∃ t, exec .out s = .next t ∧
      t = s.setUnit s.active { x with digest := some v, busy := false, done := true, upc := x.upc + 1 } ∧
      MessagesUnchanged s t

/-- R122, second half, R20: `OUT` is the only micro-operation that writes a flag or the digest register; any other either
takes a fault or leaves the flags, the cause and the digest of its unit. None touches the other unit, a length register or
the configuration. -/
def Obligations.OnlyOutWritesFlagsAndDigest : Prop :=
  ∀ (i : Instr) (s t : State), i.nbits = 16 → exec i s = .next t →
    (i ≠ .out → (∃ k, t = s.raise s.active k) ∨
      ((t.unit s.active).busy = (s.unit s.active).busy ∧ (t.unit s.active).done = (s.unit s.active).done ∧
       (t.unit s.active).fault = (s.unit s.active).fault ∧ (t.unit s.active).fcause = (s.unit s.active).fcause ∧
       (t.unit s.active).digest = (s.unit s.active).digest)) ∧
    t.unit s.active.other = s.unit s.active.other ∧ t.cfg = s.cfg ∧ t.lenLo = s.lenLo ∧ t.lenHi = s.lenHi ∧
    t.rdata = s.rdata

/-! ## Illegal words and faults -/

/-- R77: every word of an illegal or reserved opcode takes `ILLEGAL_UOP`, on every state. -/
def Obligations.IllegalOpcodesTakeIllegalUop : Prop :=
  ∀ (s : State) (rest : BitVec 12) (i : Instr),
    (i = .illegalOp0 rest ∨ i = .reservedOpB rest ∨ i = .reservedOpC rest ∨ i = .reservedOpD rest ∨
      i = .reservedOpE rest ∨ i = .reservedOpF rest) →
    exec i s = .next (s.raise s.active .illegalUop)

/-- R188: taking a fault writes `FCAUSE` (if `FAULT` was 0) with the cause's code, `FAULT` and `BUSY`, and nothing else;
afterwards the unit's sequencer has no step and its start command changes nothing. -/
def Obligations.FaultEntryWritesOnlyTheFlags : Prop :=
  ∀ (s : State) (u : UnitId) (k : Cause),
    s.raise u k = s.setUnit u { s.unit u with
      fault := true, busy := false, fcause := if (s.unit u).fault = true then (s.unit u).fcause else causeCode k } ∧
    causeCode .illegalUop = 1 ∧ causeCode .laneNoValue = 2 ∧ causeCode .readOverrun = 3 ∧ causeCode .tailBound = 4 ∧
    causeCode .hostProtocol = 5 ∧ MessagesUnchanged s (s.raise u k) ∧
    sequencerStep u (s.raise u k) = .next (s.raise u k) ∧ (s.raise u k).start u = s.raise u k

/-- R187, R138: on entry to the tail stage the OPT sequencer checks `LENL - CUR < S`; if not, its step is the fault
`TAIL_BOUND` and nothing else; if so, it issues a micro-operation. REF's sequencer has no such check. That the place is called `tailEntry` is the model's
encoding (log 15). -/
def Obligations.TailEntryChecksTheBound : Prop :=
  ∀ s : State, s.opt.busy = true → s.opt.seq.point = .tailEntry →
    (16 * s.cfg.L ≤ s.opt.lenl - s.opt.cur → sequencerStep .opt s = .next (s.raise .opt .tailBound)) ∧
    (s.opt.lenl - s.opt.cur < 16 * s.cfg.L → ∃ i q, issue .opt s.cfg s.opt = .uop i q) ∧
    ∀ k, issue .ref s.cfg s.ref ≠ .fault k

/-- R192: no step but reset clears `FAULT` or changes `FCAUSE` of a faulted unit. -/
def Obligations.OnlyResetClearsAFault : Prop :=
  ∀ (s t : State) (u : UnitId), step s = .next t → (s.unit u).fault = true → s.moves.head? ≠ some .reset →
    (t.unit u).fault = true ∧ (t.unit u).fcause = (s.unit u).fcause

/-- R210, R43, R213: reset, applied in any state, leaves both units idle without fault, lanes and digests without value,
the length registers 0; the constants stay. Only the values R43 states are claimed. That the pending moves and the host's
message stay is the model's choice (log 12). -/
def Obligations.ResetLeavesTheStatedValues : Prop :=
  ∀ (s : State) (rest : List Move), s.moves = .reset :: rest →
    ∃ t, step s = .next t ∧ t.cfg = s.cfg ∧ t.lenLo = 0 ∧ t.lenHi = 0 ∧ t.moves = rest ∧
      (∀ u, (t.unit u).busy = false ∧ (t.unit u).done = false ∧ (t.unit u).fault = false ∧ (t.unit u).fcause = 0 ∧
        (t.unit u).lanes = none ∧ (t.unit u).digest = none) ∧ MessagesUnchanged s t

/-- R43, R7: the state after reset has the values R43 states; that it is CORE-16 is the model's choice (log 1). -/
def Obligations.StateResetHasTheStatedValues : Prop :=
  State.reset.cfg.L = 16 ∧ State.reset.cfg.G = 4 ∧ State.reset.lenLo = 0 ∧ State.reset.lenHi = 0 ∧
  ∀ u, (State.reset.unit u).busy = false ∧ (State.reset.unit u).done = false ∧ (State.reset.unit u).fault = false ∧
    (State.reset.unit u).fcause = 0 ∧ (State.reset.unit u).lanes = none ∧ (State.reset.unit u).digest = none

/-! ## Host commands and registers -/

/-- R171: a start command to an idle unit without fault begins an invocation: the length is latched, `CUR` and `UPC` are
0, lanes and digest lose their values, `DONE` is cleared, `BUSY` set (the sequencer's place is the model's own, log 15); a word
with both bits starts OPT and REF; nothing else changes. -/
def Obligations.StartBeginsAnInvocation : Prop :=
  ∀ (s : State) (withRef : Bool) (ignored : BitVec 30),
    let began (x : UnitState) : UnitState := { x with
      lenl := s.lenHi.toNat * 2 ^ 32 + s.lenLo.toNat, cur := 0, upc := 0, lanes := none, digest := none, done := false,
      busy := true, seq := { x.seq with point := .init } }
    (s.opt.busy = false → s.opt.fault = false → (withRef = true → s.ref.busy = false ∧ s.ref.fault = false) →
      exec (.startOpt withRef ignored) s =
        .next { s with opt := began s.opt, ref := if withRef then began s.ref else s.ref }) ∧
    (s.ref.busy = false → s.ref.fault = false → exec (.startRef ignored) s = .next { s with ref := began s.ref })

/-- R189, R171: a start command to a busy unit takes `HOST_PROTOCOL` there, one to a faulted unit is ignored, and a word
with both bits judges each unit by its own flags. -/
def Obligations.StartOfABusyOrFaultedUnit : Prop :=
  ∀ (s : State) (ignored : BitVec 30),
    (s.opt.fault = true → exec (.startOpt false ignored) s = .next s) ∧
    (s.ref.fault = true → exec (.startRef ignored) s = .next s) ∧
    (s.opt.fault = false → s.opt.busy = true →
      exec (.startOpt false ignored) s = .next (s.raise .opt .hostProtocol)) ∧
    (s.ref.fault = false → s.ref.busy = true → exec (.startRef ignored) s = .next (s.raise .ref .hostProtocol)) ∧
    (∃ a b t, exec (.startOpt false ignored) s = .next a ∧ exec (.startRef ignored) s = .next b ∧
      exec (.startOpt true ignored) s = .next t ∧ t = { s with opt := a.opt, ref := b.ref })

/-- R172: no step but reset changes a unit's latched length, except a start command that begins an invocation of that unit,
which latches what the length registers hold then. A write to the length registers reaches no running unit. -/
def Obligations.LatchedLengthChangesOnlyAtAStart : Prop :=
  ∀ (s t : State) (u : UnitId), step s = .next t → s.moves.head? ≠ some .reset →
    (t.unit u).lenl = (s.unit u).lenl ∨
    ∃ v rest, s.moves = .regWrite 0 v :: rest ∧ (match u with | .opt => v.getLsbD 0 | .ref => v.getLsbD 1) = true ∧
      (s.unit u).busy = false ∧ (s.unit u).fault = false ∧
      (t.unit u).lenl = s.lenHi.toNat * 2 ^ 32 + s.lenLo.toNat

/-- R35: `STATUS`, bit by bit; a read has no side effect and a write none either. -/
def Obligations.StatusWordIsTheFlags : Prop :=
  ∀ s : State, ∃ w : BitVec 32, regRead 0x04 s = .next { s with rdata := w } ∧
    w.getLsbD 0 = s.opt.busy ∧ w.getLsbD 1 = s.opt.done ∧ w.getLsbD 2 = s.opt.fault ∧ w.getLsbD 3 = false ∧
    w.extractLsb' 4 4 = s.opt.fcause ∧ w.getLsbD 8 = s.ref.busy ∧ w.getLsbD 9 = s.ref.done ∧
    w.getLsbD 10 = s.ref.fault ∧ w.getLsbD 11 = false ∧ w.extractLsb' 12 4 = s.ref.fcause ∧ w.extractLsb' 16 16 = 0 ∧
    ∀ v, regWrite 0x04 v s = .next s

/-- R173: a write to `LEN_LO` or `LEN_HI` stores the value, a read returns it, neither has another effect; reset makes them
0; no sequencer step writes them. -/
def Obligations.LengthRegistersAreStorage : Prop :=
  ∀ (s : State) (v : BitVec 32),
    regWrite 0x08 v s = .next { s with lenLo := v } ∧ regWrite 0x0C v s = .next { s with lenHi := v } ∧
    regRead 0x08 s = .next { s with rdata := s.lenLo } ∧ regRead 0x0C s = .next { s with rdata := s.lenHi } ∧
    s.resetNow.lenLo = 0 ∧ s.resetNow.lenHi = 0 ∧
    ∀ u t, sequencerStep u s = .next t → t.lenLo = s.lenLo ∧ t.lenHi = s.lenHi

/-- R37, R176: `CONFIG` of a legal instance reads `L` in bits 5:0, `G` in bits 13:8, the other bits 0. -/
def Obligations.ConfigReadsLanesAndGroup : Prop :=
  ∀ s : State, s.cfg.Valid → ∃ w : BitVec 32, regRead 0x10 s = .next { s with rdata := w } ∧
    w.toNat = s.cfg.G * 256 + s.cfg.L ∧ configWord Config.core16 = 0x410 ∧ (w.extractLsb' 0 6).toNat = s.cfg.L ∧ w.extractLsb' 6 2 = 0 ∧
    (w.extractLsb' 8 6).toNat = s.cfg.G ∧ w.extractLsb' 14 18 = 0 ∧ ∀ v, regWrite 0x10 v s = .next s

/-- R38, R39, R175: with `DONE`, byte `m` of digest word `k` is digest byte `4k + m`, for OPT at `0x20 + 4k` and for REF
at `0x30 + 4k`; reading changes no flag. -/
def Obligations.DigestWordsHoldTheDigestBytes : Prop :=
  ∀ (s : State) (u : UnitId) (d : Byte16) (k : Nat), (s.unit u).done = true → (s.unit u).digest = some d → k < 4 →
    ∃ w : BitVec 32,
      regRead (BitVec.ofNat 7 ((match u with | .opt => 0x20 | .ref => 0x30) + 4 * k)) s = .next { s with rdata := w } ∧
      ∀ m, m < 4 → w.extractLsb' (8 * m) 8 = byteAt d (4 * k + m)

/-- R175, I13: with `DONE = 0` a digest word reads as an unspecified value. That it is the next free draw is the model's
form (log 9); nothing is said of the value. -/
def Obligations.DigestReadWithoutDoneIsFree : Prop :=
  ∀ (s : State) (u : UnitId) (k : Nat), (s.unit u).done = false → k < 4 →
    ∃ w : BitVec 32,
      regRead (BitVec.ofNat 7 ((match u with | .opt => 0x20 | .ref => 0x30) + 4 * k)) s =
        .next { s with rdata := w, draws := s.draws + 1 }

/-- R177: `CTRL` and the reserved offsets read 0; writes to `STATUS`, `CONFIG`, a digest register or a reserved offset
are ignored. -/
def Obligations.OtherOffsetsReadZeroAndIgnoreWrites : Prop :=
  ∀ (s : State) (off : BitVec 7) (v : BitVec 32), off.toNat % 4 = 0 →
    (off.toNat = 0 ∨ (0x14 ≤ off.toNat ∧ off.toNat ≤ 0x1C) ∨ 0x40 ≤ off.toNat → regRead off s = .next { s with rdata := 0 }) ∧
    (off.toNat ≠ 0 → off.toNat ≠ 0x08 → off.toNat ≠ 0x0C → regWrite off v s = .next s)

/-- R170, I20: a register access at an offset that is not a multiple of 4 is no move of the model, and the step refuses
it by name (log 14). -/
def Obligations.UnalignedRegisterAccessIsRefused : Prop :=
  ∀ (s : State) (off : BitVec 7) (v : BitVec 32) (rest : List Move), off.toNat % 4 ≠ 0 →
    (s.moves = .regWrite off v :: rest ∨ s.moves = .regRead off :: rest) → step s = .refused .registerAccess

/-- R217, R178 step 1: presenting a byte to an idle unit changes that byte of that unit's message and nothing else; to a
busy unit it is no move (log 8). -/
def Obligations.MessageBytesArePresentedToIdleUnits : Prop :=
  ∀ (s : State) (u : UnitId) (off : BitVec 64) (b : Byte),
    ((s.unit u).busy = true → placeByte u off b s = .refused .messageWhileBusy) ∧
    ((s.unit u).busy = false → ∃ m, placeByte u off b s = .next (s.setUnit u { s.unit u with msg := m }) ∧
      m.read off.toNat = some b ∧ (∀ a, a ≠ off.toNat → m.read a = (s.unit u).msg.read a) ∧
      ((s.unit u).msg.wf = true → m.wf = true))

/-! ## What every step keeps -/

/-- R32, R185, R23, R38, R12, R30: every step, of any agent, keeps a legal state legal: the flags one at a time, the cause
legal, all lanes or none with values, the digest present exactly with `DONE`, `CUR <= LENL < 2^64`, the message in its
canonical form. -/
def Obligations.EveryStepKeepsLegal : Prop :=
  ∀ s t : State, s.Legal → step s = .next t → t.Legal

/-- The state after reset meets the two invariants below and above, CORE-16 being the model's choice (log 1). -/
def Obligations.ResetIsLegalAndRunning : Prop := State.reset.Legal ∧ State.reset.Running

/-- R130, R146, R160, R29, R31: every step of the complete hardware keeps each busy unit where its schedule says: cursor,
`UPC` and loop variables. The place is in the model's own encoding (log 15). -/
def Obligations.EveryHardwareStepKeepsRunning : Prop :=
  ∀ s t : State, s.Running → (∀ m, s.moves.head? = some m → m.ofHardware = true) → step s = .next t → t.Running

/-- R193: in the complete hardware the only fault a step can raise is `HOST_PROTOCOL`, and no step finds a schedule
exhausted. -/
def Obligations.RunningHardwareRaisesOnlyHostProtocol : Prop :=
  ∀ s : State, s.Running → (∀ m, s.moves.head? = some m → m.ofHardware = true) →
    (∀ f, step s ≠ .fault f) ∧
    ∀ t u, step s = .next t → (s.unit u).fault = false → (t.unit u).fault = true →
      (t.unit u).fcause = causeCode .hostProtocol ∧ ∃ v rest, s.moves = .regWrite 0 v :: rest

/-- R31: `UPC` of a busy unit of the complete hardware stays below `2^63`. -/
def Obligations.UopCounterNeverWraps : Prop :=
  ∀ (s : State) (u : UnitId), s.Running → (s.unit u).busy = true → (s.unit u).upc < 2 ^ 63

/-- R3, R41, R173: no step changes the configuration, and the length registers change only by the host's write or
reset. -/
def Obligations.NoStepChangesConfigurationOrLength : Prop :=
  ∀ s t : State, step s = .next t → t.cfg = s.cfg ∧
    ((∀ off v, s.moves.head? ≠ some (.regWrite off v)) → s.moves.head? ≠ some .reset →
      t.lenLo = s.lenLo ∧ t.lenHi = s.lenHi)

/-- R50, R51, R217: no step writes a message, except the host presenting a byte (log 8); reset keeps it (log 12). -/
def Obligations.HardwareNeverWritesTheMessage : Prop :=
  ∀ s t : State, step s = .next t → (∀ u off b, s.moves.head? ≠ some (.place u off b)) → MessagesUnchanged s t

/-- R20, R199: a sequencer's step touches only its own unit, and what it does there depends on that unit and the
instance's constants alone. -/
def Obligations.UnitsAreIndependent : Prop :=
  (∀ (s t : State) (u : UnitId), sequencerStep u s = .next t →
    t.unit u.other = s.unit u.other ∧ t.cfg = s.cfg ∧ t.lenLo = s.lenLo ∧ t.lenHi = s.lenHi ∧ t.rdata = s.rdata ∧
    t.moves = s.moves ∧ t.draws = s.draws) ∧
  (∀ (s s' t : State) (u : UnitId), s'.cfg = s.cfg → s'.unit u = s.unit u → sequencerStep u s = .next t →
    ∃ t', sequencerStep u s' = .next t' ∧ t'.unit u = t.unit u)

/-- R166: the two units' steps may be taken in either order with the same result (up to which unit ran last). -/
def Obligations.UnitStepsCommute : Prop :=
  ∀ s a b : State, sequencerStep .opt s = .next a → sequencerStep .ref s = .next b →
    ∃ t t', sequencerStep .ref a = .next t ∧ sequencerStep .opt b = .next t' ∧
      ({ t with active := .opt } : State) = { t' with active := .opt }

/-- R147, R226, R65: control is independent of data. Two machines that differ only in lane values, digests, message bytes
and tables take the same kind of step and differ only there afterwards. -/
def Obligations.ControlIsIndependentOfData : Prop :=
  ∀ s s' t : State, SameControl s s' → step s = .next t → ∃ t', step s' = .next t' ∧ SameControl t t'

/-! ## The schedules and the digest -/

/-- R149, R165: the schedules have `N_opt` and `N_ref` micro-operations, below `2^63`, and evaluate the AES round
`3 * n + 3` times. -/
def Obligations.ScheduleSizes : Prop :=
  ∀ (u : UnitId) (c : Config) (lenl : Nat), c.Valid → lenl < 2 ^ 64 →
    (schedule u c lenl).length = scheduleSize u c lenl ∧ scheduleSize u c lenl < 2 ^ 63 ∧
    ((schedule u c lenl).map roundCount).sum = 3 * chunkCount lenl + 3

/-- R77, R130, R160: every micro-operation of a schedule is legal on its instance, and the first is `LDSEED`. -/
def Obligations.SchedulesHoldLegalMicroOperations : Prop :=
  ∀ (u : UnitId) (c : Config) (lenl : Nat), c.Valid →
    (schedule u c lenl).head? = some .ldseed ∧
    ∀ i, i ∈ schedule u c lenl → i.wellFormed = true ∧ i.legalUop c.L = true

/-- R130, R144, R160, R166: from the start of an invocation, with the message delivered, the `k`-th step of a unit's
sequencer issues the `k`-th micro-operation of its schedule, for every `k`. An invocation has just begun where the start
command leaves the sequencer (log 15). -/
def Obligations.SequencerIssuesItsSchedule : Prop :=
  ∀ (s : State) (u : UnitId) (k : Nat), s.cfg.Valid → (s.unit u).JustStarted →
    Readable (s.unit u).msg (s.unit u).lenl → k < scheduleSize u s.cfg (s.unit u).lenl →
    ∃ t i q, sequencerRun u k s = .next t ∧ (t.unit u).busy = true ∧ (t.unit u).upc = k ∧
      issue u t.cfg (t.unit u) = .uop i q ∧ (schedule u s.cfg (s.unit u).lenl)[k]? = some i

/-- R148, R167, first halves: just before `FOLD` a unit's lanes are `V[n][0 .. L-1]` of the closed form and every byte has
been consumed (R146). -/
def Obligations.LanesBeforeFoldAreTheClosedForm : Prop :=
  ∀ (s : State) (u : UnitId) (x : UnitState), s.cfg.Valid → s.unit u = x → x.JustStarted → Readable x.msg x.lenl →
    ∃ t, sequencerRun u (scheduleSize u s.cfg x.lenl - 6) s = .next t ∧ (t.unit u).cur = x.lenl ∧
      (t.unit u).lanes = some ((List.range s.cfg.L).map (absorbed s.cfg x.msg x.lenl (chunkCount x.lenl)))

/-- R148, R151: every invocation of OPT on a delivered message ends, after exactly `N_opt` steps, in `DONE` without fault
and with the digest of the closed form. -/
def Obligations.OptRunDeliversTheClosedFormDigest : Prop :=
  ∀ s : State, s.cfg.Valid → s.opt.JustStarted → Readable s.opt.msg s.opt.lenl →
    ∃ t, sequencerRun .opt (optSize s.cfg s.opt.lenl) s = .next t ∧ t.opt.busy = false ∧ t.opt.done = true ∧
      t.opt.fault = false ∧ t.opt.cur = s.opt.lenl ∧ t.opt.upc = optSize s.cfg s.opt.lenl ∧ t.ref = s.ref ∧
      t.opt.digest = some (digestOf s.cfg s.opt.msg s.opt.lenl)

/-- R167, R160, R165: the same of REF, after exactly `N_ref` steps. -/
def Obligations.RefRunDeliversTheClosedFormDigest : Prop :=
  ∀ s : State, s.cfg.Valid → s.ref.JustStarted → Readable s.ref.msg s.ref.lenl →
    ∃ t, sequencerRun .ref (refSize s.ref.lenl) s = .next t ∧ t.ref.busy = false ∧ t.ref.done = true ∧
      t.ref.fault = false ∧ t.ref.cur = s.ref.lenl ∧ t.ref.upc = refSize s.ref.lenl ∧ t.opt = s.opt ∧
      t.ref.digest = some (digestOf s.cfg s.ref.msg s.ref.lenl)

/-- R167, R180: the verification call. One write starts both idle units on the same delivered message; whatever order the
two then step in (a free value, log 5), after the write and `N_opt + N_ref` steps both are done and `DIGEST = RDIGEST`. -/
def Obligations.OracleEquivalence : Prop :=
  ∀ (s : State) (v : BitVec 32), s.cfg.Valid → s.moves = [.regWrite 0 v] → v.getLsbD 0 = true → v.getLsbD 1 = true →
    (∀ u, (s.unit u).busy = false ∧ (s.unit u).fault = false ∧ Readable (s.unit u).msg s.len) →
    (∀ a, a < s.len → s.ref.msg.read a = s.opt.msg.read a) →
    ∃ t : State, core.run (1 + optSize s.cfg s.len + refSize s.len) s = .next t ∧ t.opt.done = true ∧
      t.ref.done = true ∧ t.opt.fault = false ∧ t.ref.fault = false ∧ t.opt.digest = t.ref.digest ∧
      t.opt.digest = some (digestOf s.cfg s.opt.msg s.len)

/-- R178: one digest call on OPT. The host writes the length and `START_OPT`; after these three moves and `N_opt` steps of
the machine on its own (log 5) OPT is done, and the four digest registers hold the bytes of the closed form's digest. -/
def Obligations.DigestCallReturnsTheDigest : Prop :=
  ∀ (s : State) (lo hi : BitVec 32), s.cfg.Valid →
    s.moves = [.regWrite 0x08 lo, .regWrite 0x0C hi, .regWrite 0x00 1] →
    s.opt.busy = false → s.opt.fault = false → s.ref.busy = false →
    Readable s.opt.msg (hi.toNat * 2 ^ 32 + lo.toNat) →
    ∃ t : State, core.run (3 + optSize s.cfg (hi.toNat * 2 ^ 32 + lo.toNat)) s = .next t ∧ t.opt.done = true ∧
      t.opt.fault = false ∧ ∀ k, k < 4 → ∃ w : BitVec 32,
        regRead (BitVec.ofNat 7 (0x20 + 4 * k)) t = .next { t with rdata := w } ∧
        ∀ m, m < 4 → w.extractLsb' (8 * m) 8 =
          byteAt (digestOf s.cfg s.opt.msg (hi.toNat * 2 ^ 32 + lo.toNat)) (4 * k + m)

/-- R150: the group size does not reach the digest: two instances that differ only in `G` deliver the same digest for the
same message, each after its own number of steps. -/
def Obligations.GroupSizeDoesNotReachTheDigest : Prop :=
  ∀ (s s' : State), s.cfg.Valid → s'.cfg.Valid → s'.cfg = { s.cfg with G := s'.cfg.G } →
    s.opt.JustStarted → s'.opt.JustStarted → s'.opt.lenl = s.opt.lenl → Readable s.opt.msg s.opt.lenl →
    (∀ a, a < s.opt.lenl → s'.opt.msg.read a = s.opt.msg.read a) →
    ∃ t t' d, sequencerRun .opt (optSize s.cfg s.opt.lenl) s = .next t ∧
      sequencerRun .opt (optSize s'.cfg s.opt.lenl) s' = .next t' ∧ t.opt.digest = some d ∧ t'.opt.digest = some d

/-- R24: lane `i` of the closed form depends on the lane's seed, its round key and the message bytes routed to it, and on
nothing else; a lane no chunk is routed to keeps its seed. -/
def Obligations.LaneDependsOnItsOwnBytes : Prop :=
  ∀ (c c' : Config) (m m' : Message) (lenl i : Nat), c'.L = c.L → seedAt c' i = seedAt c i →
    (∀ a, a < lenl → routedLane c a = i → m'.read a = m.read a) →
    ((roundKeyAt c' i = roundKeyAt c i → absorbed c' m' lenl (chunkCount lenl) i = absorbed c m lenl (chunkCount lenl) i) ∧
     ((∀ a, a < lenl → routedLane c a ≠ i) → absorbed c m lenl (chunkCount lenl) i = seedAt c i))
end

