-- ==== Sys2Proof/Laws/Bytes.lean ====
section
/-! SUPPORT. Bytes of a `Byte16`: building one from bytes and reading them back are inverse, and exclusive or is
bytewise. -/

namespace Sys2Proof.Machine

@[simp] theorem byteAt_xor (v w : Byte16) (j : Nat) : byteAt (v ^^^ w) j = byteAt v j ^^^ byteAt w j := by
  ext i; simp [byteAt]

@[simp] theorem byteAt_zero16 (j : Nat) : byteAt zero16 j = 0 := by
  ext i; simp [byteAt]

/-- Bit `i` of a value built from bytes is bit `i mod 8` of byte `i div 8`. -/
theorem getLsbD_zext16 (bs : List Byte) (i : Nat) (hi : i < 128) :
    (zext16 bs).getLsbD i = (bs.getD (i / 8) 0).getLsbD (i % 8) := by
  induction bs generalizing i with
  | nil => simp [zext16]
  | cons b bs ih =>
    simp only [zext16, BitVec.getLsbD_or, BitVec.getLsbD_shiftLeft, BitVec.getLsbD_setWidth]
    by_cases h8 : i < 8
    · simp [h8, hi, Nat.div_eq_of_lt h8, Nat.mod_eq_of_lt h8]
    · have hb : b.getLsbD i = false := BitVec.getLsbD_of_ge b i (by omega)
      have hd : i / 8 = (i - 8) / 8 + 1 := by omega
      have hm : i % 8 = (i - 8) % 8 := by omega
      rw [ih (i - 8) (by omega), hd, hm]
      simp [h8, hi, hb]

/-- Byte `j` of `zext16 bs` is the `j`-th of `bs`, zero past its end (00_scope R11). -/
@[simp] theorem byteAt_zext16 (bs : List Byte) (j : Nat) (hj : j < 16) : byteAt (zext16 bs) j = bs.getD j 0 := by
  apply BitVec.eq_of_getLsbD_eq
  intro i hi
  rw [byteAt, BitVec.getLsbD_extractLsb', getLsbD_zext16 _ _ (by omega)]
  have h1 : (8 * j + i) / 8 = j := by omega
  have h2 : (8 * j + i) % 8 = i := by omega
  simp [hi, h1, h2]

/-- A `Byte16` is its sixteen bytes. -/
theorem eq_of_byteAt_eq {v w : Byte16} (h : ∀ j, j < 16 → byteAt v j = byteAt w j) : v = w := by
  apply BitVec.eq_of_getLsbD_eq
  intro i hi
  have hb := congrArg (fun b : Byte => b.getLsbD (i % 8)) (h (i / 8) (by omega))
  have hi8 : i % 8 < 8 := Nat.mod_lt _ (by omega)
  have he : 8 * (i / 8) + i % 8 = i := by omega
  simpa [byteAt, BitVec.getLsbD_extractLsb', hi8, he] using hb

theorem zext16_nil : zext16 [] = zero16 := rfl

@[simp] theorem length_le64 (n : Nat) : (le64 n).length = 8 := by simp [le64]

end Sys2Proof.Machine
end

