-- ==== Sys2Proof/Laws/Message.lean ====
section
/-! SUPPORT. The message space: reading after presenting, and the canonical form (log 7). -/

namespace Sys2Proof.Machine

@[simp] theorem read_nil (a : Nat) : Message.read [] a = none := rfl

/-- A byte presented at an offset is read there. -/
@[simp] theorem read_write_same (m : Message) (a : Nat) (b : Byte) : (m.write a b).read a = some b := by
  induction m with
  | nil => simp [Message.write, Message.read]
  | cons p m ih =>
    obtain ⟨o, c⟩ := p
    unfold Message.write
    split
    · simp [Message.read]
    · split <;> rename_i h1 h2
      · simp [Message.read, h2]
      · rw [Message.read, if_neg (fun h => h2 h.symm), ih]

/-- A byte presented at an offset changes no other. -/
theorem read_write_of_ne (m : Message) {a o : Nat} (b : Byte) (h : o ≠ a) : (m.write a b).read o = m.read o := by
  induction m with
  | nil => simp [Message.write, Message.read, Ne.symm h]
  | cons p m ih =>
    obtain ⟨p, c⟩ := p
    unfold Message.write
    split
    · simp [Message.read, Ne.symm h]
    · split <;> rename_i h1 h2
      · subst h2; simp [Message.read, Ne.symm h]
      · simp [Message.read, ih]

theorem risesFrom_mono {lo lo' : Nat} (h : lo' ≤ lo) {m : Message} (hm : m.risesFrom lo = true) :
    m.risesFrom lo' = true := by
  cases m with
  | nil => rfl
  | cons p m =>
    obtain ⟨a, b⟩ := p
    simp only [Message.risesFrom, Bool.and_eq_true, decide_eq_true_eq] at hm ⊢
    exact ⟨⟨by omega, hm.1.2⟩, hm.2⟩

theorem risesFrom_write {m : Message} {lo a : Nat} (b : Byte) (hlo : lo ≤ a) (ha : a < 2 ^ 64)
    (hm : m.risesFrom lo = true) : (m.write a b).risesFrom lo = true := by
  induction m generalizing lo with
  | nil => simp [Message.write, Message.risesFrom, hlo]; omega
  | cons p m ih =>
    obtain ⟨o, c⟩ := p
    simp only [Message.risesFrom, Bool.and_eq_true, decide_eq_true_eq] at hm
    unfold Message.write
    split <;> rename_i h1
    · simp only [Message.risesFrom, Bool.and_eq_true, decide_eq_true_eq]
      exact ⟨⟨hlo, ha⟩, ⟨by omega, hm.1.2⟩, hm.2⟩
    · split <;> rename_i h2
      · simp only [Message.risesFrom, Bool.and_eq_true, decide_eq_true_eq]
        exact hm
      · simp only [Message.risesFrom, Bool.and_eq_true, decide_eq_true_eq]
        exact ⟨hm.1, ih (by omega) hm.2⟩

/-- Presenting a byte keeps the canonical form. -/
theorem write_keeps_wf {m : Message} {a : Nat} (b : Byte) (ha : a < 2 ^ 64) (hm : m.wf = true) :
    (m.write a b).wf = true := risesFrom_write b (Nat.zero_le a) ha hm

theorem risesFrom_ofBytesFrom (bs : List Byte) (off : Nat) (h : off + bs.length ≤ 2 ^ 64) :
    (Message.ofBytesFrom off bs).risesFrom off = true := by
  induction bs generalizing off with
  | nil => rfl
  | cons b bs ih =>
    simp only [List.length_cons] at h
    simp only [Message.ofBytesFrom, Message.risesFrom, Bool.and_eq_true, decide_eq_true_eq]
    exact ⟨⟨Nat.le_refl _, by omega⟩, ih _ (by omega)⟩

/-- A message given by its bytes has the canonical form. -/
theorem ofBytes_wf (bs : List Byte) (h : bs.length ≤ 2 ^ 64) : (Message.ofBytes bs).wf = true :=
  risesFrom_ofBytesFrom bs 0 (by omega)

/-- Reading `n` bytes succeeds exactly when each is delivered, and gives them in order. -/
theorem readBytes_eq_some {m : Message} {off n : Nat} {bs : List Byte} :
    m.readBytes off n = some bs ↔ bs.length = n ∧ ∀ j, j < n → m.read (off + j) = bs[j]? := by
  induction n generalizing off bs with
  | zero => simp [Message.readBytes, @eq_comm _ [] bs]
  | succ n ih =>
    unfold Message.readBytes
    constructor
    · intro h
      split at h
      · rename_i b bs' hb hbs
        cases h
        obtain ⟨hl, hr⟩ := ih.1 hbs
        refine ⟨by simp [hl], fun j hj => ?_⟩
        cases j with
        | zero => simpa using hb
        | succ j =>
          have := hr j (by omega)
          simpa [Nat.add_assoc, Nat.add_comm 1 j] using this
      · cases h
    · rintro ⟨hl, hr⟩
      cases bs with
      | nil => simp at hl
      | cons b bs =>
        have h0 : m.read off = some b := by simpa using hr 0 (by omega)
        have h1 : m.readBytes (off + 1) n = some bs := by
          refine ih.2 ⟨by simpa using hl, fun j hj => ?_⟩
          have := hr (j + 1) (by omega)
          simpa [Nat.add_assoc, Nat.add_comm 1 j] using this
        rw [h0, h1]

/-- When all `n` bytes are delivered the read completes. -/
theorem readBytes_of_isSome {m : Message} {off n : Nat} (h : ∀ j, j < n → (m.read (off + j)).isSome = true) :
    ∃ bs, m.readBytes off n = some bs := by
  refine ⟨(List.range n).map fun j => (m.read (off + j)).getD 0, readBytes_eq_some.2 ⟨by simp, fun j hj => ?_⟩⟩
  obtain ⟨b, hb⟩ := Option.isSome_iff_exists.1 (h j hj)
  simp [hj, hb]

end Sys2Proof.Machine
end

