-- ==== Sys2Proof/Laws/Operands.lean ====
section
/-! SUPPORT. What each operand function can answer: lanes named by a word, chunks, the length block, the fold. -/

namespace Sys2Proof.Machine

@[simp] theorem laneRangeLegal_iff (L : Nat) (lane cnt : BitVec 6) :
    laneRangeLegal L lane cnt = true ↔ 1 ≤ cnt.toNat ∧ lane.toNat + cnt.toNat ≤ L := by
  simp [laneRangeLegal]

@[simp] theorem length_onNamedLanes (lane cnt : Nat) (f : Nat → Byte16 → Byte16) (ls : List Byte16) :
    (onNamedLanes lane cnt f ls).length = ls.length := by simp [onNamedLanes]

/-- Every lane after an operation on named lanes. -/
theorem getElem?_onNamedLanes (lane cnt : Nat) (f : Nat → Byte16 → Byte16) (ls : List Byte16) (i : Nat) :
    (onNamedLanes lane cnt f ls)[i]? =
      if lane ≤ i ∧ i < lane + cnt then (ls[i]?).map (f i) else ls[i]? := by
  simp only [onNamedLanes, List.getElem?_mapIdx]
  split
  · rfl
  · cases ls[i]? <;> rfl

theorem getElem?_onNamedLanes_named {lane cnt : Nat} (f : Nat → Byte16 → Byte16) (ls : List Byte16) {i : Nat}
    (h : lane ≤ i ∧ i < lane + cnt) : (onNamedLanes lane cnt f ls)[i]? = (ls[i]?).map (f i) := by
  rw [getElem?_onNamedLanes, if_pos h]

theorem getElem?_onNamedLanes_other {lane cnt : Nat} (f : Nat → Byte16 → Byte16) (ls : List Byte16) {i : Nat}
    (h : ¬(lane ≤ i ∧ i < lane + cnt)) : (onNamedLanes lane cnt f ls)[i]? = ls[i]? := by
  rw [getElem?_onNamedLanes, if_neg h]

/-- A full chunk is delivered when its sixteen bytes are, and byte `j` of it is message byte `off + j`. -/
theorem chunkAt_spec {m : Message} {off : Nat} (h : ∀ j, j < 16 → (m.read (off + j)).isSome = true) :
    ∃ d, chunkAt m off = some d ∧ ∀ j, j < 16 → m.read (off + j) = some (byteAt d j) := by
  obtain ⟨bs, hbs⟩ := readBytes_of_isSome h
  refine ⟨zext16 bs, by simp [chunkAt, hbs], fun j hj => ?_⟩
  obtain ⟨hl, hr⟩ := readBytes_eq_some.1 hbs
  rw [byteAt_zext16 _ _ hj, hr j hj]
  simp [List.getD_eq_getElem?_getD, hl, hj]

/-- What a delivered chunk holds. -/
theorem chunkAt_eq_some {m : Message} {off : Nat} {d : Byte16} (h : chunkAt m off = some d) (j : Nat) (hj : j < 16) :
    m.read (off + j) = some (byteAt d j) := by
  simp only [chunkAt, Option.map_eq_some_iff] at h
  obtain ⟨bs, hbs, rfl⟩ := h
  obtain ⟨hl, hr⟩ := readBytes_eq_some.1 hbs
  rw [byteAt_zext16 _ _ hj, hr j hj]
  simp [List.getD_eq_getElem?_getD, hl, hj]

/-- The padded chunk is delivered when its bytes are; byte `j` is the message's below `rem` and 0 from there on. -/
theorem paddedChunkAt_spec {m : Message} {off rem : Nat} (h : ∀ j, j < rem → (m.read (off + j)).isSome = true) :
    ∃ d, paddedChunkAt m off rem = some d ∧
      ∀ j, j < 16 → byteAt d j = if j < rem then (m.read (off + j)).getD 0 else 0 := by
  obtain ⟨bs, hbs⟩ := readBytes_of_isSome h
  refine ⟨zext16 bs, by simp [paddedChunkAt, hbs], fun j hj => ?_⟩
  obtain ⟨hl, hr⟩ := readBytes_eq_some.1 hbs
  rw [byteAt_zext16 _ _ hj]
  split
  · rename_i hjr
    rw [hr j hjr]
    simp [List.getD_eq_getElem?_getD]
  · rename_i hjr
    simp [List.getD_eq_getElem?_getD, hl, hjr]

/-- `n` chunks are delivered exactly when each is, and they come in message order. -/
theorem chunksAt_eq_some {m : Message} {off n : Nat} {ds : List Byte16} :
    chunksAt m off n = some ds ↔ ds.length = n ∧ ∀ j, j < n → chunkAt m (off + 16 * j) = ds[j]? := by
  induction n generalizing off ds with
  | zero => simp [chunksAt, @eq_comm _ [] ds]
  | succ n ih =>
    unfold chunksAt
    constructor
    · intro h
      split at h
      · rename_i d ds' hd hds
        cases h
        obtain ⟨hl, hr⟩ := ih.1 hds
        refine ⟨by simp [hl], fun j hj => ?_⟩
        cases j with
        | zero => simpa using hd
        | succ j =>
          have := hr j (by omega)
          have e : off + 16 + 16 * j = off + 16 * (j + 1) := by omega
          rw [e] at this
          simpa using this
      · cases h
    · rintro ⟨hl, hr⟩
      cases ds with
      | nil => simp at hl
      | cons d ds =>
        have h0 : chunkAt m off = some d := by simpa using hr 0 (by omega)
        have h1 : chunksAt m (off + 16) n = some ds := by
          refine ih.2 ⟨by simpa using hl, fun j hj => ?_⟩
          have := hr (j + 1) (by omega)
          have e : off + 16 * (j + 1) = off + 16 + 16 * j := by omega
          rw [e] at this
          simpa using this
        rw [h0, h1]

/-- When all the bytes are delivered the chunks are. -/
theorem chunksAt_of_isSome {m : Message} {off n : Nat}
    (h : ∀ a, off ≤ a → a < off + 16 * n → (m.read a).isSome = true) : ∃ ds, chunksAt m off n = some ds := by
  induction n generalizing off with
  | zero => exact ⟨[], rfl⟩
  | succ n ih =>
    obtain ⟨d, hd, -⟩ := chunkAt_spec (m := m) (off := off) fun j hj => h _ (by omega) (by omega)
    obtain ⟨ds, hds⟩ := ih (off := off + 16) fun a h1 h2 => h a (by omega) (by omega)
    exact ⟨d :: ds, by simp [chunksAt, hd, hds]⟩

/-- The bytes of the length block (30_encoding R75). -/
theorem byteAt_lengthBlock (n j : Nat) (hj : j < 16) :
    byteAt (lengthBlock n) j = if j < 8 then BitVec.ofNat 8 (n / 256 ^ j) else 0 := by
  rw [lengthBlock, byteAt_zext16 _ _ hj, List.getD_eq_getElem?_getD]
  split
  · rename_i h
    rw [List.getElem?_append_left (by simpa using h)]
    simp [le64, h]
  · rename_i h
    rw [List.getElem?_append_right (by simpa using h)]
    have h8 : j - 8 < 8 := by omega
    simp only [length_le64, List.getElem?_replicate, h8, if_true, Option.getD_some]
    rfl

theorem foldl_xor_start (ls : List Byte16) (a : Byte16) :
    ls.foldl (· ^^^ ·) a = a ^^^ foldLanes ls := by
  induction ls generalizing a with
  | nil => simp [foldLanes]
  | cons v ls ih => simp only [foldLanes, List.foldl_cons]; rw [ih, ih, BitVec.zero_xor, BitVec.xor_assoc]

@[simp] theorem foldLanes_nil : foldLanes [] = zero16 := rfl

@[simp] theorem foldLanes_cons (v : Byte16) (ls : List Byte16) : foldLanes (v :: ls) = v ^^^ foldLanes ls := by
  rw [foldLanes, List.foldl_cons, foldl_xor_start, BitVec.zero_xor]

end Sys2Proof.Machine
end

