-- ==== Sys2Proof/Laws/State.lean ====
section
/-! SUPPORT. One lemma per field per update of the state, so that no proof unfolds a record update. -/

namespace Sys2Proof.Machine

/-! Reading and replacing a unit. -/

@[simp] theorem unit_opt (s : State) : s.unit .opt = s.opt := rfl
@[simp] theorem unit_ref (s : State) : s.unit .ref = s.ref := rfl
@[simp] theorem unit_setUnit (s : State) (u : UnitId) (x : UnitState) : (s.setUnit u x).unit u = x := by cases u <;> rfl
theorem unit_setUnit_of_ne (s : State) {u v : UnitId} (x : UnitState) (h : v ≠ u) :
    (s.setUnit u x).unit v = s.unit v := by
  cases u <;> cases v <;> first | rfl | exact absurd rfl h
@[simp] theorem setUnit_unit (s : State) (u : UnitId) : s.setUnit u (s.unit u) = s := by cases u <;> rfl
@[simp] theorem setUnit_setUnit (s : State) (u : UnitId) (x y : UnitState) :
    (s.setUnit u x).setUnit u y = s.setUnit u y := by cases u <;> rfl
@[simp] theorem setUnit_opt_opt (s : State) (x : UnitState) : (s.setUnit .opt x).opt = x := rfl
@[simp] theorem setUnit_opt_ref (s : State) (x : UnitState) : (s.setUnit .opt x).ref = s.ref := rfl
@[simp] theorem setUnit_ref_ref (s : State) (x : UnitState) : (s.setUnit .ref x).ref = x := rfl
@[simp] theorem setUnit_ref_opt (s : State) (x : UnitState) : (s.setUnit .ref x).opt = s.opt := rfl
@[simp] theorem setUnit_cfg (s : State) (u : UnitId) (x : UnitState) : (s.setUnit u x).cfg = s.cfg := by cases u <;> rfl
@[simp] theorem setUnit_lenLo (s : State) (u : UnitId) (x : UnitState) : (s.setUnit u x).lenLo = s.lenLo := by
  cases u <;> rfl
@[simp] theorem setUnit_lenHi (s : State) (u : UnitId) (x : UnitState) : (s.setUnit u x).lenHi = s.lenHi := by
  cases u <;> rfl
@[simp] theorem setUnit_rdata (s : State) (u : UnitId) (x : UnitState) : (s.setUnit u x).rdata = s.rdata := by
  cases u <;> rfl
@[simp] theorem setUnit_active (s : State) (u : UnitId) (x : UnitState) : (s.setUnit u x).active = s.active := by
  cases u <;> rfl
@[simp] theorem setUnit_moves (s : State) (u : UnitId) (x : UnitState) : (s.setUnit u x).moves = s.moves := by
  cases u <;> rfl
@[simp] theorem setUnit_draws (s : State) (u : UnitId) (x : UnitState) : (s.setUnit u x).draws = s.draws := by
  cases u <;> rfl
@[simp] theorem setUnit_len (s : State) (u : UnitId) (x : UnitState) : (s.setUnit u x).len = s.len := by
  cases u <;> rfl

/-! The model's own fields do not touch a unit. -/

@[simp] theorem unit_active (s : State) (v u : UnitId) : ({ s with active := v } : State).unit u = s.unit u := by
  cases u <;> rfl
@[simp] theorem unit_moves (s : State) (ms : List Move) (u : UnitId) :
    ({ s with moves := ms } : State).unit u = s.unit u := by cases u <;> rfl
@[simp] theorem unit_draws (s : State) (n : Nat) (u : UnitId) : ({ s with draws := n } : State).unit u = s.unit u := by
  cases u <;> rfl
@[simp] theorem unit_rdata (s : State) (v : BitVec 32) (u : UnitId) :
    ({ s with rdata := v } : State).unit u = s.unit u := by cases u <;> rfl
@[simp] theorem unit_lenLo (s : State) (v : BitVec 32) (u : UnitId) :
    ({ s with lenLo := v } : State).unit u = s.unit u := by cases u <;> rfl
@[simp] theorem unit_lenHi (s : State) (v : BitVec 32) (u : UnitId) :
    ({ s with lenHi := v } : State).unit u = s.unit u := by cases u <;> rfl

/-! Flags after a fault, a start and an end. -/

@[simp] theorem flagsFaulted_fault (k : Cause) (x : UnitState) : (flagsFaulted k x).fault = true := rfl
@[simp] theorem flagsFaulted_busy (k : Cause) (x : UnitState) : (flagsFaulted k x).busy = false := rfl
@[simp] theorem flagsFaulted_done (k : Cause) (x : UnitState) : (flagsFaulted k x).done = x.done := rfl
theorem flagsFaulted_fcause (k : Cause) (x : UnitState) :
    (flagsFaulted k x).fcause = if x.fault then x.fcause else causeCode k := rfl
@[simp] theorem flagsFaulted_lanes (k : Cause) (x : UnitState) : (flagsFaulted k x).lanes = x.lanes := rfl
@[simp] theorem flagsFaulted_digest (k : Cause) (x : UnitState) : (flagsFaulted k x).digest = x.digest := rfl
@[simp] theorem flagsFaulted_upc (k : Cause) (x : UnitState) : (flagsFaulted k x).upc = x.upc := rfl
@[simp] theorem flagsFaulted_cur (k : Cause) (x : UnitState) : (flagsFaulted k x).cur = x.cur := rfl
@[simp] theorem flagsFaulted_lenl (k : Cause) (x : UnitState) : (flagsFaulted k x).lenl = x.lenl := rfl
@[simp] theorem flagsFaulted_seq (k : Cause) (x : UnitState) : (flagsFaulted k x).seq = x.seq := rfl
@[simp] theorem flagsFaulted_padbuf (k : Cause) (x : UnitState) : (flagsFaulted k x).padbuf = x.padbuf := rfl
@[simp] theorem flagsFaulted_lenbuf (k : Cause) (x : UnitState) : (flagsFaulted k x).lenbuf = x.lenbuf := rfl
@[simp] theorem flagsFaulted_msg (k : Cause) (x : UnitState) : (flagsFaulted k x).msg = x.msg := rfl
@[simp] theorem flagsFinished_busy (x : UnitState) : (flagsFinished x).busy = false := rfl
@[simp] theorem flagsFinished_done (x : UnitState) : (flagsFinished x).done = true := rfl
@[simp] theorem flagsFinished_fault (x : UnitState) : (flagsFinished x).fault = x.fault := rfl
@[simp] theorem flagsStarted_busy (x : UnitState) : (flagsStarted x).busy = true := rfl
@[simp] theorem flagsStarted_done (x : UnitState) : (flagsStarted x).done = false := rfl
@[simp] theorem flagsStarted_fault (x : UnitState) : (flagsStarted x).fault = x.fault := rfl

/-! Raising a fault. -/

@[simp] theorem unit_raise (s : State) (u : UnitId) (k : Cause) : (s.raise u k).unit u = flagsFaulted k (s.unit u) := by
  simp [State.raise]
theorem unit_raise_of_ne (s : State) {u v : UnitId} (k : Cause) (h : v ≠ u) : (s.raise u k).unit v = s.unit v :=
  unit_setUnit_of_ne s _ h
@[simp] theorem raise_cfg (s : State) (u : UnitId) (k : Cause) : (s.raise u k).cfg = s.cfg := setUnit_cfg ..
@[simp] theorem raise_lenLo (s : State) (u : UnitId) (k : Cause) : (s.raise u k).lenLo = s.lenLo := setUnit_lenLo ..
@[simp] theorem raise_lenHi (s : State) (u : UnitId) (k : Cause) : (s.raise u k).lenHi = s.lenHi := setUnit_lenHi ..
@[simp] theorem raise_moves (s : State) (u : UnitId) (k : Cause) : (s.raise u k).moves = s.moves := setUnit_moves ..
@[simp] theorem raise_draws (s : State) (u : UnitId) (k : Cause) : (s.raise u k).draws = s.draws := setUnit_draws ..
@[simp] theorem raise_active (s : State) (u : UnitId) (k : Cause) : (s.raise u k).active = s.active := setUnit_active ..
@[simp] theorem raise_rdata (s : State) (u : UnitId) (k : Cause) : (s.raise u k).rdata = s.rdata := setUnit_rdata ..

/-! Placing a sequencer. -/

@[simp] theorem unit_setSeq (s : State) (u : UnitId) (q : SeqRegs) :
    (s.setSeq u q).unit u = { s.unit u with seq := q } := by simp [State.setSeq]
theorem unit_setSeq_of_ne (s : State) {u v : UnitId} (q : SeqRegs) (h : v ≠ u) :
    (s.setSeq u q).unit v = s.unit v := unit_setUnit_of_ne s _ h
@[simp] theorem setSeq_cfg (s : State) (u : UnitId) (q : SeqRegs) : (s.setSeq u q).cfg = s.cfg := setUnit_cfg ..
@[simp] theorem setSeq_lenLo (s : State) (u : UnitId) (q : SeqRegs) : (s.setSeq u q).lenLo = s.lenLo := setUnit_lenLo ..
@[simp] theorem setSeq_lenHi (s : State) (u : UnitId) (q : SeqRegs) : (s.setSeq u q).lenHi = s.lenHi := setUnit_lenHi ..
@[simp] theorem setSeq_moves (s : State) (u : UnitId) (q : SeqRegs) : (s.setSeq u q).moves = s.moves := setUnit_moves ..
@[simp] theorem setSeq_draws (s : State) (u : UnitId) (q : SeqRegs) : (s.setSeq u q).draws = s.draws := setUnit_draws ..
@[simp] theorem setSeq_active (s : State) (u : UnitId) (q : SeqRegs) : (s.setSeq u q).active = s.active :=
  setUnit_active ..
@[simp] theorem setSeq_rdata (s : State) (u : UnitId) (q : SeqRegs) : (s.setSeq u q).rdata = s.rdata := setUnit_rdata ..

/-! Reset. -/

@[simp] theorem resetNow_cfg (s : State) : s.resetNow.cfg = s.cfg := rfl
@[simp] theorem resetNow_opt (s : State) : s.resetNow.opt = UnitState.resetWith s.opt.msg := rfl
@[simp] theorem resetNow_ref (s : State) : s.resetNow.ref = UnitState.resetWith s.ref.msg := rfl
@[simp] theorem resetNow_lenLo (s : State) : s.resetNow.lenLo = 0 := rfl
@[simp] theorem resetNow_lenHi (s : State) : s.resetNow.lenHi = 0 := rfl
@[simp] theorem resetNow_moves (s : State) : s.resetNow.moves = s.moves := rfl
@[simp] theorem resetNow_draws (s : State) : s.resetNow.draws = s.draws := rfl
@[simp] theorem resetNow_rdata (s : State) : s.resetNow.rdata = s.rdata := rfl

end Sys2Proof.Machine
end

