-- ==== Sys2Proof/Laws/Ops.lean ====
section
/-! SUPPORT. What each shared operation can do, once each. -/

namespace Sys2Proof.Machine

/-! The combinators of R186. -/

@[simp] theorem require_true (k : Cause) (r : UopResult) : require true k r = r := rfl
@[simp] theorem require_false (k : Cause) (r : UopResult) : require false k r = .fault k := rfl
theorem require_eq_done {ok : Bool} {k : Cause} {r : UopResult} {x : UnitState} :
    require ok k r = .done x ↔ ok = true ∧ r = .done x := by cases ok <;> simp [require]
theorem withLanes_some {x : UnitState} {ls : List Byte16} (h : x.lanes = some ls) (k : List Byte16 → UopResult) :
    withLanes x k = k ls := by simp [withLanes, h]
theorem withLanes_none {x : UnitState} (h : x.lanes = none) (k : List Byte16 → UopResult) :
    withLanes x k = .fault .laneNoValue := by simp [withLanes, h]
theorem withLanes_eq_done {x y : UnitState} {k : List Byte16 → UopResult} :
    withLanes x k = .done y ↔ ∃ ls, x.lanes = some ls ∧ k ls = .done y := by
  unfold withLanes; split <;> simp_all
@[simp] theorem withData_some {α : Type} (d : α) (k : α → UopResult) : withData (some d) k = k d := rfl
@[simp] theorem withData_none {α : Type} (k : α → UopResult) : withData none k = .wait := rfl
theorem withData_eq_done {α : Type} {data : Option α} {k : α → UopResult} {y : UnitState} :
    withData data k = .done y ↔ ∃ d, data = some d ∧ k d = .done y := by
  cases data <;> simp [withData]

/-- A micro-operation's effect never stops the machine: it completes with `UPC` one higher, takes a fault, or waits with
nothing changed. -/
theorem perform_cases (s : State) (e : Config → UnitState → UopResult) :
    (∃ x, e s.cfg (s.unit s.active) = .done x ∧
      s.perform e = .next (s.setUnit s.active { x with upc := x.upc + 1 })) ∨
    (∃ k, e s.cfg (s.unit s.active) = .fault k ∧ s.perform e = .next (s.raise s.active k)) ∨
    (e s.cfg (s.unit s.active) = .wait ∧ s.perform e = .next s) := by
  unfold State.perform
  cases e s.cfg (s.unit s.active) with
  | done x => exact .inl ⟨x, rfl, rfl⟩
  | fault k => exact .inr (.inl ⟨k, rfl, rfl⟩)
  | wait => exact .inr (.inr ⟨rfl, rfl⟩)

theorem perform_done {s : State} {e : Config → UnitState → UopResult} {x : UnitState}
    (h : e s.cfg (s.unit s.active) = .done x) :
    s.perform e = .next (s.setUnit s.active { x with upc := x.upc + 1 }) := by simp [State.perform, h]
theorem perform_fault {s : State} {e : Config → UnitState → UopResult} {k : Cause}
    (h : e s.cfg (s.unit s.active) = .fault k) : s.perform e = .next (s.raise s.active k) := by
  simp [State.perform, h]
theorem perform_wait {s : State} {e : Config → UnitState → UopResult}
    (h : e s.cfg (s.unit s.active) = .wait) : s.perform e = .next s := by simp [State.perform, h]

/-- What a completed fixed-key round leaves (R99). -/
theorem fixedRound_eq_done {key : Config → Nat → Byte16} {lane cnt : BitVec 6} {c : Config} {x y : UnitState} :
    fixedRound key lane cnt c x = .done y ↔
      (1 ≤ cnt.toNat ∧ lane.toNat + cnt.toNat ≤ c.L) ∧ ∃ ls, x.lanes = some ls ∧
        y = { x with lanes := some (onNamedLanes lane.toNat cnt.toNat (fun i v => aesr v (key c i)) ls) } := by
  rw [fixedRound, require_eq_done, laneRangeLegal_iff, withLanes_eq_done]
  simp only [UopResult.done.injEq, @eq_comm _ y]

/-- What a completed data micro-operation leaves (R73, R99, R111). -/
theorem takeChunks_eq_done {f : Byte16 → Byte16 → Byte16} {lane cnt : BitVec 6} {c : Config} {x y : UnitState} :
    takeChunks f lane cnt c x = .done y ↔
      (1 ≤ cnt.toNat ∧ lane.toNat + cnt.toNat ≤ c.L) ∧ ∃ ls, x.lanes = some ls ∧
        x.cur + 16 * cnt.toNat ≤ x.lenl ∧ ∃ ds, chunksAt x.msg x.cur cnt.toNat = some ds ∧
        y = { x with
          lanes := some (onNamedLanes lane.toNat cnt.toNat
            (fun i v => f v (ds.getD (i - lane.toNat) zero16)) ls)
          cur := x.cur + 16 * cnt.toNat } := by
  rw [takeChunks, require_eq_done, laneRangeLegal_iff, withLanes_eq_done]
  simp only [require_eq_done, withData_eq_done, decide_eq_true_eq, UopResult.done.injEq, @eq_comm _ y]

/-- What a completed `XORP` leaves (R112). -/
theorem xorpEffect_eq_done {lane : BitVec 6} {c : Config} {x y : UnitState} :
    xorpEffect lane c x = .done y ↔
      lane.toNat + 1 ≤ c.L ∧ ∃ ls, x.lanes = some ls ∧ (1 ≤ x.lenl - x.cur ∧ x.lenl - x.cur ≤ 15) ∧
        ∃ pad, paddedChunkAt x.msg x.cur (x.lenl - x.cur) = some pad ∧
        y = { x with
          padbuf := pad
          lanes := some (onNamedLanes lane.toNat 1 (fun _ v => v ^^^ pad) ls)
          cur := x.lenl } := by
  rw [xorpEffect, require_eq_done, laneRangeLegal_iff, withLanes_eq_done]
  simp [require_eq_done, withData_eq_done, @eq_comm _ y]

/-- A start command does one of three things (45_host_operations R171). -/
theorem start_cases (s : State) (u : UnitId) :
    ((s.unit u).fault = true ∧ s.start u = s) ∨
    ((s.unit u).fault = false ∧ (s.unit u).busy = true ∧ s.start u = s.raise u .hostProtocol) ∨
    ((s.unit u).fault = false ∧ (s.unit u).busy = false ∧ s.start u = s.setUnit u (flagsStarted { s.unit u with
      lenl := s.len, cur := 0, upc := 0, lanes := none, digest := none,
      seq := { (s.unit u).seq with point := .init } })) := by
  unfold State.start
  cases hf : (s.unit u).fault
  · cases hb : (s.unit u).busy
    · exact .inr (.inr ⟨rfl, rfl, by simp [hf, hb]⟩)
    · exact .inr (.inl ⟨rfl, rfl, by simp [hf, hb]⟩)
  · exact .inl ⟨rfl, by simp [hf]⟩

/-- The length in the length registers fits in 64 bits (10_state R36). -/
theorem len_lt (s : State) : s.len < 2 ^ 64 := by
  have h1 := s.lenHi.isLt
  have h2 := s.lenLo.isLt
  simp only [State.len]
  omega

/-- Every micro-operation is an effect on the active unit, run by `perform`. -/
theorem exec_uop_eq_perform {i : Instr} (h : i.nbits = 16) : ∃ e, ∀ s, exec i s = s.perform e := by
  cases i with
  | startOpt w ig => exact absurd h (show ¬32 = 16 by decide)
  | startRef ig => exact absurd h (show ¬32 = 16 by decide)
  | ldseed => exact ⟨ldseedEffect, fun _ => rfl⟩
  | xord lane cnt => exact ⟨takeChunks (fun v d => v ^^^ d) lane cnt, fun _ => rfl⟩
  | xorp lane => exact ⟨xorpEffect lane, fun _ => rfl⟩
  | rndf lane cnt => exact ⟨fixedRound roundKeyAt lane cnt, fun _ => rfl⟩
  | rndz lane cnt => exact ⟨fixedRound (fun _ _ => zero16) lane cnt, fun _ => rfl⟩
  | rndd lane cnt => exact ⟨takeChunks (fun v d => aesr v d) lane cnt, fun _ => rfl⟩
  | rndk lane cnt => exact ⟨fixedRound (fun c _ => c.fk) lane cnt, fun _ => rfl⟩
  | fold => exact ⟨foldEffect, fun _ => rfl⟩
  | lenx => exact ⟨lenxEffect, fun _ => rfl⟩
  | out => exact ⟨outEffect, fun _ => rfl⟩
  | _ => exact ⟨illegalEffect, fun _ => rfl⟩

/-- A micro-operation acts on the active unit and on nothing else: completed, faulted or waiting. -/
theorem exec_uop_cases {i : Instr} (h : i.nbits = 16) (s : State) :
    (∃ x : UnitState, exec i s = .next (s.setUnit s.active { x with upc := x.upc + 1 })) ∨
    (∃ k, exec i s = .next (s.raise s.active k)) ∨ exec i s = .next s := by
  obtain ⟨e, he⟩ := exec_uop_eq_perform h
  rw [he s]
  rcases perform_cases s e with ⟨x, -, h⟩ | ⟨k, -, h⟩ | ⟨-, h⟩
  · exact .inl ⟨x, h⟩
  · exact .inr (.inl ⟨k, h⟩)
  · exact .inr (.inr h)

/-- No micro-operation and no host command stops the machine: `exec` always answers a next state. -/
theorem exec_eq_next (i : Instr) (s : State) : ∃ t, exec i s = .next t := by
  by_cases h : i.nbits = 16
  · rcases exec_uop_cases h s with ⟨x, hx⟩ | ⟨k, hk⟩ | hw <;> exact ⟨_, by assumption⟩
  · cases i with
    | startOpt w ig => exact ⟨_, rfl⟩
    | startRef ig => exact ⟨_, rfl⟩
    | _ => exact absurd rfl h

end Sys2Proof.Machine
end

