-- ==== Sys2Proof/Laws/Agents.lean ====
section
/-! SUPPORT. What a handed word, a sequencer's step, a host move and the step can do. -/

namespace Sys2Proof.Machine

/-- The decoder gives sixteen-bit words sixteen-bit instructions. -/
theorem nbits_of_decodeWord {w : BitVec 16} {i : Instr} (h : decodeWord w = .ok i) : i.nbits = 16 := by
  unfold decodeWord decodeU0 decodeUL decodeULC at h
  split at h <;> (try split at h) <;> simp_all <;> subst_vars <;> rfl

/-- A handed word changes its unit alone: its datapath completes, faults or waits. -/
theorem handWord_cases (u : UnitId) (w : BitVec 16) (s : State) :
    (∃ x : UnitState, handWord u w s = .next (({ s with active := u } : State).setUnit u { x with upc := x.upc + 1 })) ∨
    (∃ k, handWord u w s = .next (({ s with active := u } : State).raise u k)) ∨
    handWord u w s = .next { s with active := u } := by
  unfold handWord
  split
  · rename_i i hi
    exact exec_uop_cases (nbits_of_decodeWord hi) { s with active := u }
  · exact .inr (.inl ⟨_, rfl⟩)

/-- A sequencer's step: idle, a fault entry, an exhausted schedule, or one micro-operation handed to the datapath. -/
theorem sequencerStep_cases (u : UnitId) (s : State) :
    ((s.unit u).busy = false ∧ sequencerStep u s = .next s) ∨
    ((s.unit u).busy = true ∧ ∃ k, issue u s.cfg (s.unit u) = .fault k ∧
      sequencerStep u s = .next (s.raise u k)) ∨
    ((s.unit u).busy = true ∧ issue u s.cfg (s.unit u) = .stopped ∧
      sequencerStep u s = .fault .scheduleExhausted) ∨
    ((s.unit u).busy = true ∧ ∃ i q, issue u s.cfg (s.unit u) = .uop i q ∧
      sequencerStep u s = advanceSeq u s q (handWord u (uopWord i) s)) := by
  unfold sequencerStep
  cases hb : (s.unit u).busy
  · exact .inl ⟨rfl, by simp⟩
  · cases hi : issue u s.cfg (s.unit u) with
    | uop i q => exact .inr (.inr (.inr ⟨rfl, i, q, rfl, by simp⟩))
    | fault k => exact .inr (.inl ⟨rfl, k, rfl, by simp⟩)
    | stopped => exact .inr (.inr (.inl ⟨rfl, rfl, by simp⟩))

/-- The step takes the first pending move. -/
theorem step_cons {s : State} {m : Move} {rest : List Move} (h : s.moves = m :: rest) :
    step s = act m { s with moves := rest } := by simp [step, stepMove, h]

/-- With no pending move the busy units step on their own. -/
theorem step_nil {s : State} (h : s.moves = []) : step s = onItsOwn s := by simp [step, stepMove, h]

/-- Nothing pending and no unit busy: nothing happens. -/
theorem step_idle {s : State} (h : s.moves = []) (ho : s.opt.busy = false) (hr : s.ref.busy = false) :
    step s = .next s := by simp [step_nil h, onItsOwn, ho, hr]

/-- Every write to `CTRL` is one of: no command, `START_OPT` with or without `START_REF`, `START_REF`. -/
theorem ctrlWrite_cases (v : BitVec 32) (s : State) :
    ctrlWrite v s = .next s ∨ ctrlWrite v s = .next (s.start .opt) ∨
    ctrlWrite v s = .next ((s.start .opt).start .ref) ∨ ctrlWrite v s = .next (s.start .ref) := by
  unfold ctrlWrite decodeCommand
  cases h0 : v.getLsbD 0 <;> cases h1 : v.getLsbD 1 <;> simp [exec, execStartOpt, execStartRef]

end Sys2Proof.Machine
end

