-- ==== Sys2Proof/Laws/PerInstr.lean ====
section
/-! SUPPORT. One statement about every instruction, one lemma per constructor: its code fits its word. -/

namespace Sys2Proof.Laws

/-- The number `encode i` fits the width of `i`'s word (30_encoding R70, R78). -/
def EncodingFits.Statement (i : Instr) : Prop := encode i < 2 ^ i.nbits

/-- A micro-operation's code with a four-bit opcode fits 16 bits. -/
theorem uopCode_lt {op : Nat} (h : op < 16) (lane cnt : BitVec 6) : uopCode op lane cnt < 2 ^ 16 := by
  have h1 := lane.isLt
  have h2 := cnt.isLt
  simp only [uopCode]
  omega

theorem EncodingFits.ldseed : EncodingFits.Statement .ldseed := uopCode_lt (by decide) ..
theorem EncodingFits.xord (lane cnt : BitVec 6) : EncodingFits.Statement (.xord lane cnt) := uopCode_lt (by decide) ..
theorem EncodingFits.xorp (lane : BitVec 6) : EncodingFits.Statement (.xorp lane) := uopCode_lt (by decide) ..
theorem EncodingFits.rndf (lane cnt : BitVec 6) : EncodingFits.Statement (.rndf lane cnt) := uopCode_lt (by decide) ..
theorem EncodingFits.rndz (lane cnt : BitVec 6) : EncodingFits.Statement (.rndz lane cnt) := uopCode_lt (by decide) ..
theorem EncodingFits.rndd (lane cnt : BitVec 6) : EncodingFits.Statement (.rndd lane cnt) := uopCode_lt (by decide) ..
theorem EncodingFits.rndk (lane cnt : BitVec 6) : EncodingFits.Statement (.rndk lane cnt) := uopCode_lt (by decide) ..
theorem EncodingFits.fold : EncodingFits.Statement .fold := uopCode_lt (by decide) ..
theorem EncodingFits.lenx : EncodingFits.Statement .lenx := uopCode_lt (by decide) ..
theorem EncodingFits.out : EncodingFits.Statement .out := uopCode_lt (by decide) ..

/-- A word of an illegal opcode: the opcode's base and twelve bits. -/
theorem rest_lt {base : Nat} (h : base ≤ 0xF000) (rest : BitVec 12) : base + rest.toNat < 2 ^ 16 := by
  have := rest.isLt
  omega

theorem EncodingFits.illegalOp0 (rest : BitVec 12) : EncodingFits.Statement (.illegalOp0 rest) := by
  have := rest_lt (base := 0) (by decide) rest
  simpa [EncodingFits.Statement, encode, Instr.nbits] using this
theorem EncodingFits.reservedOpB (rest : BitVec 12) : EncodingFits.Statement (.reservedOpB rest) :=
  rest_lt (by decide) rest
theorem EncodingFits.reservedOpC (rest : BitVec 12) : EncodingFits.Statement (.reservedOpC rest) :=
  rest_lt (by decide) rest
theorem EncodingFits.reservedOpD (rest : BitVec 12) : EncodingFits.Statement (.reservedOpD rest) :=
  rest_lt (by decide) rest
theorem EncodingFits.reservedOpE (rest : BitVec 12) : EncodingFits.Statement (.reservedOpE rest) :=
  rest_lt (by decide) rest
theorem EncodingFits.reservedOpF (rest : BitVec 12) : EncodingFits.Statement (.reservedOpF rest) :=
  rest_lt (by decide) rest
theorem EncodingFits.startOpt (withRef : Bool) (ignored : BitVec 30) :
    EncodingFits.Statement (.startOpt withRef ignored) := by
  have := ignored.isLt
  cases withRef <;> simp only [EncodingFits.Statement, encode, Instr.nbits] <;> simp <;> omega
theorem EncodingFits.startRef (ignored : BitVec 30) : EncodingFits.Statement (.startRef ignored) := by
  have := ignored.isLt
  simp only [EncodingFits.Statement, encode, Instr.nbits]
  omega

end Sys2Proof.Laws
end

