-- ==== Sys2Proof/Tests/Slice0.lean ====
section
/-! SUPPORT. Tests: expected values are those of 95_test_vectors, on its instance T4. Witnesses: for every statement with
hypotheses, operands and states that meet them. -/

namespace Sys2Proof.Tests

open Sys2Proof Sys2Proof.Machine

-- One theorem at a time: a thread for each kernel evaluation of this file would pass the memory limit.
set_option Elab.async false

/-! ## The test instance -/

/-- A byte string written as 95_test_vectors writes it, byte 0 leftmost. -/
def txt (v : BitVec 128) : Byte16 := zext16 ((List.range 16).map fun j => byteAt v (15 - j))

/-- Entry `i` of a table given by formula (95_test_vectors section 1). -/
def entry (f : Nat → Nat) (i : Nat) : Byte16 := zext16 ((List.range 16).map fun j => BitVec.ofNat 8 (f (16 * i + j)))

/-- T4, with group size `g`. -/
def t4With (g : Nat) : Config where
  L := 4
  G := g
  seed := (List.range 4).map (entry fun k => (k * k + 29 * k + 1) % 251)
  rk := (List.range 4).map (entry fun k => (3 * k * k + 53 * k + 195) % 251)
  fk := entry (fun k => (0x5A + 17 * k) % 256) 0

/-- T4. -/
def t4 : Config := t4With 2

/-- The first `n` bytes of the test message. -/
def bytes (n : Nat) : Message := Message.ofBytes ((List.range n).map fun k => BitVec.ofNat 8 ((3 + 7 * k) % 251))

/-- OPT of T4 busy with the given lanes, cursor and latched length, `n` bytes of the test message delivered. -/
def busyAt (lanes : Option (List Byte16)) (cur lenl n : Nat) : State :=
  { State.resetOf t4 with
    opt := { UnitState.resetWith (bytes n) with lanes := lanes, busy := true, cur := cur, lenl := lenl } }

/-- OPT busy, lanes as after `LDSEED`. -/
def seeded (cur lenl : Nat) : State := busyAt (some t4.seed) cur lenl lenl

/-- OPT busy, lanes without value. -/
def unseeded : State := busyAt none 0 64 0

/-- T4 after reset with both units presented `n` bytes, and the length registers at `n`. -/
def ready (n : Nat) : State :=
  { State.resetOf t4 with
    opt := UnitState.resetWith (bytes n), ref := UnitState.resetWith (bytes n), lenLo := BitVec.ofNat 32 n }

/-- Both units just started on `n` bytes. -/
def started (n : Nat) : State := ((ready n).start .opt).start .ref

/-- The host about to start both units on 37 bytes. -/
def verifying : State := { ready 37 with moves := [.regWrite 0x00 3] }

/-- The host about to make a digest call on 37 bytes. -/
def calling : State := { ready 37 with moves := [.regWrite 0x08 37, .regWrite 0x0C 0, .regWrite 0x00 1] }

/-- Both units done with digest `d`. -/
def finished (d : Byte16) : State :=
  { State.resetOf t4 with
    opt := { UnitState.resetWith [] with done := true, digest := some d }
    ref := { UnitState.resetWith [] with done := true, digest := some d } }

/-- OPT at the tail entry with `LENL - CUR = left`. -/
def atTail (left : Nat) : State :=
  { seeded 0 left with opt := { (seeded 0 left).opt with seq := { SeqRegs.reset with point := .tailEntry } } }

/-- What the state after a step holds, if there is one. -/
def after {α : Type} (f : State → α) : Host.Outcome State Fault Refusal → Option α
  | .next t => some (f t)
  | .fault _ => none
  | .refused _ => none

/-- Lane `i` of OPT after a step. -/
def lane (i : Nat) (o : Host.Outcome State Fault Refusal) : Option Byte16 :=
  (after (fun t => (t.opt.lanes.getD [])[i]?) o).join

/-- Lanes `i` and `k` and the cursor of OPT after a step. -/
def lanes2 (i k : Nat) (o : Host.Outcome State Fault Refusal) : Option Byte16 × Option Byte16 × Option Nat :=
  (lane i o, lane k o, after (fun t => t.opt.cur) o)

/-- `STATUS` after OPT is handed a word, and whether the lanes, the cursor and `UPC` are as before. -/
def handed (s : State) (w : BitVec 16) : Option (BitVec 32 × Bool) :=
  after (fun t => (statusWord t, t.opt.lanes == s.opt.lanes && t.opt.cur == s.opt.cur && t.opt.upc == s.opt.upc))
    (handWord .opt w s)

/-- Whether a step completes its micro-operation on the active unit. -/
def completes (i : Instr) (s : State) : Bool :=
  after (fun t => (t.unit s.active).upc) (exec i s) == some ((s.unit s.active).upc + 1)

theorem test_t4_tables :
    t4.seed[3]? = some (txt 0xb73aba41c550d867f3861bad46dc7918) ∧
    t4.rk[2]? = some (txt 0xc2bfc2cbdaef0f305784b7f03479c41a) ∧ t4.fk = txt 0x5a6b7c8d9eafc0d1e2f3041526374859 := by
  decide +kernel

/-! ## Well-formedness: one ill-formed term for each check -/

theorem test_ill_formed_counts :
    (Instr.xord 0 0).wellFormed = false ∧ (Instr.rndf 1 0).wellFormed = false ∧ (Instr.rndz 2 0).wellFormed = false ∧
    (Instr.rndd 3 0).wellFormed = false ∧ (Instr.rndk 4 0).wellFormed = false := by decide

theorem test_illegal_ranges :
    (Instr.xord 1 4).legalUop 4 = false ∧ (Instr.rndf 4 1).legalUop 4 = false ∧ (Instr.rndz 63 63).legalUop 63 = false ∧
    (Instr.rndd 0 0).legalUop 4 = false ∧ (Instr.rndk 0 5).legalUop 4 = false ∧ (Instr.xorp 4).legalUop 4 = false := by
  decide

theorem test_illegal_opcodes :
    (Instr.illegalOp0 0).legalUop 4 = false ∧ (Instr.reservedOpB 0).legalUop 4 = false ∧
    (Instr.reservedOpC 1).legalUop 4 = false ∧ (Instr.reservedOpD 0).legalUop 4 = false ∧
    (Instr.reservedOpE 0).legalUop 4 = false ∧ (Instr.reservedOpF 4095).legalUop 4 = false ∧
    (Instr.startOpt true 0).legalUop 4 = false ∧ (Instr.startRef 0).legalUop 4 = false := by decide

theorem test_legal_boundary :
    (Instr.xord 0 4).legalUop 4 = true ∧ (Instr.rndf 3 1).legalUop 4 = true ∧ (Instr.xorp 3).legalUop 4 = true := by decide

/-! ## Decoding: words written out from R70, R76, R78 -/

theorem test_decode_u0 :
    decodeWord 0b0001000000000000#16 = .ok .ldseed ∧ decodeWord 0b1000000000000000#16 = .ok .fold ∧
    decodeWord 0b1001000000000000#16 = .ok .lenx ∧ decodeWord 0b1010000000000000#16 = .ok .out := by decide

theorem test_decode_ulc :
    decodeWord 0b0010000011000010#16 = .ok (.xord 3 2) ∧ decodeWord 0b0100001100000100#16 = .ok (.rndf 12 4) ∧
    decodeWord 0b0101000100000010#16 = .ok (.rndz 4 2) ∧ decodeWord 0b0110000010000010#16 = .ok (.rndd 2 2) ∧
    decodeWord 0b0111000000010000#16 = .ok (.rndk 0 16) ∧ decodeWord 0b0010111111111111#16 = .ok (.xord 63 63) := by decide

theorem test_decode_ul : decodeWord 0b0011000011000001#16 = .ok (.xorp 3) := by decide

theorem test_decode_illegal_opcodes :
    decodeWord 0b0000000000000000#16 = .ok (.illegalOp0 0) ∧ decodeWord 0b1011000000000001#16 = .ok (.reservedOpB 1) ∧
    decodeWord 0b1100000001000000#16 = .ok (.reservedOpC 64) ∧ decodeWord 0b1101100000000000#16 = .ok (.reservedOpD 2048) ∧
    decodeWord 0b1110000000000000#16 = .ok (.reservedOpE 0) ∧ decodeWord 0b1111111111111111#16 = .ok (.reservedOpF 4095) := by
  decide

theorem test_decode_rejects_fields :
    decodeWord 0x1001 = .error .fieldNotZero ∧ decodeWord 0x1040 = .error .fieldNotZero ∧
    decodeWord 0x8001 = .error .fieldNotZero ∧ decodeWord 0x9040 = .error .fieldNotZero ∧
    decodeWord 0xA03F = .error .fieldNotZero ∧ decodeWord 0x3080 = .error .countNotOne ∧
    decodeWord 0x3082 = .error .countNotOne ∧ decodeWord 0x2000 = .error .countZero ∧
    decodeWord 0x4100 = .error .countZero ∧ decodeWord 0x7FC0 = .error .countZero := by decide

theorem test_decode_commands :
    decodeCommand 0 = .error .noCommand ∧ decodeCommand 1 = .ok (.startOpt false 0) ∧ decodeCommand 2 = .ok (.startRef 0) ∧
    decodeCommand 3 = .ok (.startOpt true 0) ∧ decodeCommand 0xFFFFFFFC = .error .noCommand ∧
    decodeCommand 0x80000001 = .ok (.startOpt false 0x20000000) := by decide

theorem test_decode_table_word :
    decodeTableWord 16 0x3081 = some (.xorp 2) ∧ decodeTableWord 32 2 = some (.startRef 0) ∧
    decodeTableWord 16 0x3082 = none ∧ decodeTableWord 24 0x1000 = none := by decide

theorem test_encode :
    encode (.xord 12 4) = 0x2304 ∧ encode (.rndf 12 4) = 0x4304 ∧ encode (.rndd 8 4) = 0x6204 ∧
    encode (.rndz 15 1) = 0x53C1 ∧ encode (.xorp 15) = 0x33C1 ∧ encode (.rndk 0 1) = 0x7001 ∧
    encode (.startOpt true 0) = 3 ∧ encode (.reservedOpC 1) = 0xC001 := by decide

/-- R79's example of a listing line. -/
theorem test_assembly : assembly (.rndf 2 1) = some "RNDF 2, 1" ∧ encode (.rndf 2 1) = 0x4081 := by
  constructor <;> rfl

/-! ## The AES round: 95_test_vectors section 2 -/

theorem test_sbox :
    sbox 0x00 = 0x63 ∧ sbox 0x01 = 0x7c ∧ sbox 0x53 = 0xed ∧ sbox 0x7c = 0x10 ∧ sbox 0xff = 0x16 := by decide +kernel

theorem test_sub_bytes :
    subBytes (txt 0x00102030405060708090a0b0c0d0e0f0) = txt 0x63cab7040953d051cd60e0e7ba70e18c := by decide +kernel

theorem test_shift_rows :
    shiftRows (txt 0x63cab7040953d051cd60e0e7ba70e18c) = txt 0x6353e08c0960e104cd70b751bacad0e7 := by decide +kernel

theorem test_mix_columns :
    mixColumns (txt 0xdb135345f20a225c01010101c6c6c6c6) = txt 0x8e4da1bc9fdc589d01010101c6c6c6c6 := by decide +kernel

theorem test_round_appendix_b :
    aesr (txt 0x193de3bea0f4e22b9ac68d2ae9f84808) (txt 0xa0fafe1788542cb123a339392a6c7605)
      = txt 0xa49c7ff2689f352b6b5bea43026a5049 := by decide +kernel

theorem test_round_of_ones : aesr (txt 0xffffffffffffffffffffffffffffffff) zero16 = txt 0x16161616161616161616161616161616 := by
  decide +kernel

/-! ## Micro-operations: 95_test_vectors sections 4.2 to 4.4 -/

theorem test_ldseed :
    lanes2 0 3 (exec .ldseed unseeded)
      = (some (txt 0x011f3f6185abd3022e5c8cbef22d659f), some (txt 0xb73aba41c550d867f3861bad46dc7918), some 0) := by
  decide +kernel

theorem test_xord :
    lanes2 0 1 (exec (.xord 0 2) (seeded 0 37))
      = (some (txt 0x02152e799a8dfe36151ec5eea57300f3), some (txt 0xa864df286bb9ea65b9d209c79c7fdbb4), some 32) := by
  decide +kernel

theorem test_xorp :
    lanes2 2 3 (exec (.xorp 2) (seeded 32 37))
      = (some (txt 0x27cd761156b8258f006ede55c944bc3b), some (txt 0xb73aba41c550d867f3861bad46dc7918), some 37) ∧
    after (fun t => t.opt.padbuf) (exec (.xorp 2) (seeded 32 37)) = some (txt 0xe3eaf1f8040000000000000000000000) := by
  decide +kernel

theorem test_rndf :
    lanes2 2 3 (exec (.rndf 2 2) (seeded 0 64))
      = (some (txt 0xb1beb5411b7b78f6d89b74bf199ab476), some (txt 0xcf8665c2bde40397ef3ad6a7ac5670bc), some 0) := by
  decide +kernel

theorem test_rndk :
    lanes2 1 2 (exec (.rndk 1 2) (seeded 0 64))
      = (some (txt 0xae8fca256c7b0fca08213d35f22ba604), some (txt 0x296a0b075f3bb7176decc75a0bd43835), some 0) := by
  decide +kernel

theorem test_rndz :
    lanes2 3 0 (exec (.rndz 3 1) (seeded 0 64))
      = (some (txt 0xbe48535dae6c0b1efa98ec74db77bc3e), some (txt 0x011f3f6185abd3022e5c8cbef22d659f), some 0) := by
  decide +kernel

theorem test_rndd :
    lanes2 2 3 (exec (.rndd 2 2) (seeded 0 64))
      = (some (txt 0x700b6692deb25af2b45d8a1f7abd1500), some (txt 0xcd32d2d521fa96ba512a55b41cb969e2), some 32) := by
  decide +kernel

theorem test_fold :
    lanes2 0 1 (exec .fold (seeded 0 0))
      = (some (txt 0xa91c5c69f66c592bcfd4f9412604aed4), some (txt 0xdb1e5ea0e42f77c11260b0075bb10e68), some 0) := by
  decide +kernel

theorem test_lenx :
    lane 0 (exec .lenx (busyAt (some [txt 0xa91c5c69f66c592bcfd4f9412604aed4]) 37 37 0))
      = some (txt 0x8c1c5c69f66c592bcfd4f9412604aed4) := by decide +kernel

theorem test_lenx_long :
    lane 0 (exec .lenx (busyAt (some [zero16]) 0 0x0123456789ABCDEF 0)) = some (txt 0xefcdab89674523010000000000000000) := by
  decide +kernel

theorem test_out :
    after (fun t => (statusWord t, t.opt.digest)) (exec .out (busyAt (some [txt 0x6a87ecc624fbfab53b6ffd4a71ef286b]) 0 0 0))
      = some (0x00000002, some (txt 0x6a87ecc624fbfab53b6ffd4a71ef286b)) := by decide +kernel

/-! ## Faults: 95_test_vectors section 4.5, nothing else written -/

theorem test_faults_without_value :
    handed unseeded 0x0000 = some (0x14, true) ∧ handed unseeded 0x8000 = some (0x24, true) ∧
    handed unseeded 0x2001 = some (0x24, true) ∧ handed unseeded 0x2005 = some (0x14, true) := by decide +kernel

theorem test_read_overruns :
    handed (seeded 0 0) 0x2001 = some (0x34, true) ∧ handed (seeded 0 31) 0x2002 = some (0x34, true) ∧
    handed (seeded 0 31) 0x6002 = some (0x34, true) ∧ handed (seeded 0 0) 0x3001 = some (0x34, true) ∧
    handed (seeded 0 16) 0x3001 = some (0x34, true) ∧ handed (seeded 0 40) 0x3001 = some (0x34, true) := by decide +kernel

theorem test_illegal_words :
    handed (seeded 0 64) 0x4044 = some (0x14, true) ∧ handed (seeded 0 64) 0x4100 = some (0x14, true) ∧
    handed (seeded 0 64) 0x3082 = some (0x14, true) ∧ handed (seeded 0 64) 0xB000 = some (0x14, true) ∧
    handed (seeded 0 64) 0xA001 = some (0x14, true) ∧ handed (seeded 0 64) 0xC001 = some (0x14, true) ∧
    handed (seeded 0 64) 0xD000 = some (0x14, true) ∧ handed (seeded 0 64) 0xE000 = some (0x14, true) ∧
    handed (seeded 0 64) 0xFFFF = some (0x14, true) := by decide +kernel

theorem test_tail_bound :
    after statusWord (sequencerStep .opt (atTail 64)) = some 0x44 ∧
    after statusWord (sequencerStep .opt (atTail 63)) = some 0x01 := by decide +kernel

/-! ## Host moves: 95_test_vectors sections 4.5 and 4.6 -/

theorem test_start_opt :
    after (fun t => (statusWord t, t.opt.lenl, t.opt.lanes.isSome)) (regWrite 0x00 1 (ready 37)) = some (1, 37, false) := by
  decide +kernel

theorem test_start_ref :
    after (fun t => (statusWord t, t.ref.lenl, t.opt.busy)) (regWrite 0x00 2 (ready 37)) = some (0x100, 37, false) := by
  decide +kernel

theorem test_start_while_busy :
    after statusWord (regWrite 0x00 1 unseeded) = some 0x54 ∧ after statusWord (regWrite 0x00 3 (started 0)) = some 0x5454 := by
  decide +kernel

theorem test_start_after_fault :
    after statusWord (regWrite 0x00 1 (unseeded.raise .opt .hostProtocol)) = some 0x54 ∧
    after statusWord (regWrite 0x00 2 (unseeded.raise .opt .hostProtocol)) = some 0x154 := by decide +kernel

theorem test_reset_clears_a_fault : statusWord (unseeded.raise .opt .illegalUop).resetNow = 0 := by decide +kernel

theorem test_config :
    regValue (State.resetOf t4) 0x10 = .word 0x204 ∧ configWord Config.core16 = 0x410 := by decide +kernel

theorem test_digest_words :
    regValue (finished (txt 0x6a87ecc624fbfab53b6ffd4a71ef286b)) 0x20 = .word 0xc6ec876a ∧
    regValue (finished (txt 0x6a87ecc624fbfab53b6ffd4a71ef286b)) 0x24 = .word 0xb5fafb24 ∧
    regValue (finished (txt 0x6a87ecc624fbfab53b6ffd4a71ef286b)) 0x38 = .word 0x4afd6f3b ∧
    regValue (finished (txt 0x6a87ecc624fbfab53b6ffd4a71ef286b)) 0x3C = .word 0x6b28ef71 := by decide +kernel

theorem test_digest_is_unspecified_after_reset : regValue (State.resetOf t4) 0x20 = .unspecified := by decide +kernel

theorem test_reserved_offsets_read_zero :
    [0x00#7, 0x14#7, 0x18#7, 0x1C#7, 0x40#7, 0x7C#7].map (regValue (finished 1)) = List.replicate 6 (.word 0) := by
  decide +kernel

theorem test_length_latched :
    after (fun t => t.opt.lenl)
      (regWrite 0x00 1 { State.resetOf t4 with lenLo := 0x89ABCDEF, lenHi := 0x01234567 }) = some 0x0123456789ABCDEF := by
  decide +kernel

/-! ## Schedules: 95_test_vectors section 4.7 -/

theorem test_schedule_sizes :
    optSize t4 0 = 7 ∧ optSize t4 37 = 15 ∧ optSize t4 64 = 15 ∧ optSize t4 147 = 29 ∧ optSize t4 191 = 33 ∧
    refSize 37 = 19 ∧ refSize 64 = 23 ∧ refSize 147 = 47 := by decide +kernel

theorem test_opt_tail_of_37 :
    ((optSchedule t4 37).drop 1).take 8 =
      [.xord 0 2, .rndf 0 2, .rndf 0 2, .rndz 0 2, .xorp 2, .rndf 2 1, .rndf 2 1, .rndz 2 1] := by decide +kernel

theorem test_first_sequencer_step :
    issue .opt t4 (started 37).opt = .uop .ldseed { SeqRegs.reset with point := .tailEntry } ∧
    issue .opt t4 (started 64).opt = .uop .ldseed { SeqRegs.reset with point := .bulkLoad } := by decide +kernel

/-! ## The state after reset and the first step -/

theorem test_reset_messages_canonical : State.reset.opt.msg.wf = true ∧ State.reset.ref.msg.wf = true := by decide

theorem test_message_write_canonical :
    ((Message.write (Message.write [] 5 1) 3 2).write 5 7) = [(3, 2), (5, 7)] ∧
    ((Message.write (Message.write [] 5 1) 3 2).write 5 7).wf = true := by decide

theorem test_first_step_runs_the_word :
    after statusWord (step (State.reset.withFetchWord 16 0xF000)) = some 0x14 ∧
    after statusWord (step (State.reset.withFetchWord 16 0x8000)) = some 0x24 ∧
    after statusWord (step (State.reset.withFetchWord 32 0x00000003)) = some 0x101 := by decide +kernel

theorem test_first_step_ldseed :
    step (State.reset.withFetchWord 16 0x1000) =
      exec .ldseed { State.reset with opt := { State.reset.opt with busy := true } } := rfl

/-! ## Witnesses: the hypotheses of each statement can be met -/

/-- DecodeOfEncodeIsTheInstruction, EncodeOfDecodeIsTheWord. -/
theorem test_witness_encoding :
    (Instr.xord 63 63).wellFormed = true ∧ decodeWord 0x2FFF = .ok (.xord 63 63) ∧
    decodeCommand 0xFFFFFFFF = .ok (.startOpt true 0x3FFFFFFF) := by decide

/-- StepRunsTheDecodedInstruction, first clause (the last two: `test_decode_table_word`). -/
theorem test_witness_step_hand :
    ({ unseeded with moves := [.hand .opt 0x1000] } : State).opt.busy = true ∧ decodeWord 0x1000 = .ok .ldseed := by decide

/-- StepRunsTheDecodedInstruction, second clause. -/
theorem test_witness_step_command :
    ({ ready 0 with moves := [.regWrite 0 2] } : State).moves = [.regWrite 0 2] ∧ decodeCommand 2 = .ok (.startRef 0) := by
  decide +kernel

/-- StepRunsTheDecodedInstruction, third clause. -/
theorem test_witness_step_sequence :
    ({ started 0 with moves := [.sequence .ref] } : State).ref.busy = true ∧
    issue .ref t4 (started 0).ref = .uop .ldseed { SeqRegs.reset with point := .fold } ∧
    decodeWord (uopWord .ldseed) = .ok .ldseed := by decide +kernel

/-- StepWithoutMovesIsABusyUnitsStep. -/
theorem test_witness_step_without_moves :
    (ready 0).moves = [] ∧ (ready 0).opt.busy = false ∧ (ready 0).ref.busy = false ∧ (started 0).moves = [] ∧
    (started 0).opt.busy = true := by decide +kernel

/-- HandedWordFaultsInTheOrderOfTheRule: both sides of each boundary. -/
theorem test_witness_handed_word_clauses :
    faultOfWord t4 (seeded 0 64).opt 0x4003 = none ∧ faultOfWord t4 (seeded 0 64).opt 0x4043 = none ∧
    faultOfWord t4 (seeded 0 64).opt 0x4044 = some .illegalUop ∧ faultOfWord t4 unseeded.opt 0x1000 = none ∧
    faultOfWord t4 unseeded.opt 0x9000 = some .laneNoValue ∧ faultOfWord t4 (seeded 0 32).opt 0x2002 = none ∧
    faultOfWord t4 (seeded 0 31).opt 0x2002 = some .readOverrun ∧ faultOfWord t4 (seeded 0 1).opt 0x3001 = none ∧
    faultOfWord t4 (seeded 0 15).opt 0x30C1 = none ∧ faultOfWord t4 (seeded 0 16).opt 0x3001 = some .readOverrun ∧
    faultOfWord t4 (seeded 0 0).opt 0x3001 = some .readOverrun := by decide +kernel

/-- LdseedLoadsTheSeedTable, ConfigReadsLanesAndGroup, ScheduleSizes, SchedulesHoldLegalMicroOperations. -/
theorem test_witness_valid : (seeded 0 64).cfg.Valid ∧ (t4With 4).Valid ∧ (t4With 1).Valid := by decide +kernel

/-- XordAbsorbsConsecutiveChunks, RnddKeysRoundsWithConsecutiveChunks: `XORD 1, 3` and `RNDD 1, 3` up to the last byte and
the last lane. -/
theorem test_witness_data_operations :
    (seeded 0 48).opt.lanes = some t4.seed ∧ 1 ≤ (3#6).toNat ∧ (1#6).toNat + (3#6).toNat ≤ (seeded 0 48).cfg.L ∧
    (seeded 0 48).opt.cur + 16 * (3#6).toNat ≤ (seeded 0 48).opt.lenl ∧
    ∀ a, a < 48 → ((seeded 0 48).opt.msg.read a).isSome = true := by decide +kernel

/-- XorpAbsorbsThePaddedChunk: one and fifteen bytes left, the last lane. -/
theorem test_witness_xorp :
    (3#6).toNat < (seeded 0 1).cfg.L ∧ (seeded 0 1).opt.cur < (seeded 0 1).opt.lenl ∧
    (seeded 0 15).opt.lenl ≤ (seeded 0 15).opt.cur + 15 ∧ (seeded 0 15).opt.lanes = some t4.seed ∧
    ∀ a, a < 15 → ((seeded 0 15).opt.msg.read a).isSome = true := by decide +kernel

/-- DataOperationWaitsForAnUndeliveredByte: the last byte of a chunk, and the only byte of a partial chunk. -/
theorem test_witness_waiting :
    (busyAt (some t4.seed) 0 16 15).opt.msg.read 15 = none ∧
    (busyAt (some t4.seed) 0 16 15).opt.cur + 16 * (1#6).toNat ≤ (busyAt (some t4.seed) 0 16 15).opt.lenl ∧
    (busyAt (some t4.seed) 0 1 0).opt.msg.read 0 = none ∧
    (busyAt (some t4.seed) 0 1 0).opt.lenl ≤ (busyAt (some t4.seed) 0 1 0).opt.cur + 15 := by decide +kernel

/-- FixedKeyRoundsRoundTheNamedLanes: all lanes, and the last lane. -/
theorem test_witness_rounds :
    (seeded 0 64).opt.lanes = some t4.seed ∧ (0#6).toNat + (4#6).toNat ≤ (seeded 0 64).cfg.L ∧
    (3#6).toNat + (1#6).toNat ≤ (seeded 0 64).cfg.L := by decide +kernel

/-- SubstitutionTableIsAffineOfInverse. -/
theorem test_witness_substitution : (0x53#8) ≠ 0 ∧ gfMul 0x53 0xca = 1 ∧ sbox 0x53 = sboxAffine 0xca := by decide +kernel

/-- DataKeyedRoundIsZeroRoundThenXor. -/
theorem test_witness_rndd_completes : completes (.rndd 0 2) (seeded 0 64) = true := by decide +kernel

/-- LaneRangesSplitIntoSingleLanes. -/
theorem test_witness_split :
    (seeded 0 64).cfg.L ≤ 63 ∧ [2, 0, 1].Perm (List.range (3#6).toNat) ∧ (List.range 3).Perm (List.range (3#6).toNat) ∧
    completes (.xord 1 3) (seeded 0 64) = true ∧ completes (.rndd 1 3) (seeded 0 64) = true ∧
    completes (.rndf 1 3) (seeded 0 64) = true ∧ completes (.rndk 1 3) (seeded 0 64) = true ∧
    completes (.rndz 1 3) (seeded 0 64) = true := by decide +kernel

/-- RoundsOnDisjointLanesCommute. -/
theorem test_witness_commute :
    (seeded 0 64).opt.lanes = some t4.seed ∧ IsDataOp (.xord 0 2) 0 2 ∧ IsFixedRound (.rndf 2 2) 2 2 ∧
    (Instr.xord 0 2).legalUop 4 = true ∧ (Instr.rndf 2 2).legalUop 4 = true ∧ (0#6).toNat + (2#6).toNat ≤ (2#6).toNat := by
  unfold IsDataOp IsFixedRound
  decide +kernel

/-- FoldXorsAllLanesInAnyOrder. -/
theorem test_witness_fold :
    (seeded 0 64).opt.lanes = some t4.seed ∧ t4.seed ≠ [] ∧ t4.seed.reverse.Perm t4.seed :=
  ⟨rfl, by decide +kernel, List.reverse_perm _⟩

/-- LenxXorsTheLengthBlock, OutDeliversLaneZero. -/
theorem test_witness_lenx_out : (busyAt (some [1, 2]) 0 0 0).opt.lanes = some [1, 2] := rfl

/-- OnlyOutWritesFlagsAndDigest: a micro-operation that completes and one that faults. -/
theorem test_witness_frames_of_uops :
    Instr.ldseed.nbits = 16 ∧ Instr.ldseed ≠ .out ∧ completes .ldseed unseeded = true ∧
    (exec .fold unseeded matches .next _) = true := by decide +kernel

/-- IllegalOpcodesTakeIllegalUop. -/
theorem test_witness_illegal_opcodes :
    decodeWord 0x0FFF = .ok (.illegalOp0 0xFFF) ∧ decodeWord 0xFFFF = .ok (.reservedOpF 0xFFF) := by decide

/-- TailEntryChecksTheBound: both sides of the bound. -/
theorem test_witness_tail_entry :
    (atTail 64).opt.busy = true ∧ (atTail 64).opt.seq.point = .tailEntry ∧
    16 * (atTail 64).cfg.L ≤ (atTail 64).opt.lenl - (atTail 64).opt.cur ∧
    (atTail 63).opt.lenl - (atTail 63).opt.cur < 16 * (atTail 63).cfg.L := by decide +kernel

/-- OnlyResetClearsAFault. -/
theorem test_witness_faulted_step :
    ((unseeded.raise .opt .illegalUop).unit .opt).fault = true ∧ (unseeded.raise .opt .illegalUop).moves.head? ≠ some .reset ∧
    (step (unseeded.raise .opt .illegalUop) matches .next _) = true := by decide +kernel

/-- ResetLeavesTheStatedValues. -/
theorem test_witness_reset : ({ unseeded with moves := [.reset] } : State).moves = [.reset] := rfl

/-- StartBeginsAnInvocation. -/
theorem test_witness_start :
    (ready 0).opt.busy = false ∧ (ready 0).opt.fault = false ∧ (ready 0).ref.busy = false ∧ (ready 0).ref.fault = false := by
  decide +kernel

/-- StartOfABusyOrFaultedUnit, clause by clause. -/
theorem test_witness_start_refused :
    (unseeded.raise .opt .illegalUop).opt.fault = true ∧ (unseeded.raise .ref .illegalUop).ref.fault = true ∧
    (started 0).opt.fault = false ∧ (started 0).opt.busy = true ∧ (started 0).ref.fault = false ∧
    (started 0).ref.busy = true := by decide +kernel

/-- LatchedLengthChangesOnlyAtAStart: a write to `LEN_LO` while the unit is busy. NoStepChangesConfigurationOrLength and
HardwareNeverWritesTheMessage ask for less. -/
theorem test_witness_busy_step :
    (unseeded.unit .opt).busy = true ∧ (step { unseeded with moves := [.regWrite 8 5] } matches .next _) = true := by
  decide +kernel

/-- DigestWordsHoldTheDigestBytes, DigestReadWithoutDoneIsFree. -/
theorem test_witness_digest_read :
    ((finished 1).unit .opt).done = true ∧ ((finished 1).unit .ref).digest = some 1 ∧ ((ready 0).unit .ref).done = false := by
  decide +kernel

/-- OtherOffsetsReadZeroAndIgnoreWrites: the ends of each range. -/
theorem test_witness_offsets :
    (0x00#7).toNat % 4 = 0 ∧ (0x14#7).toNat % 4 = 0 ∧ (0x1C#7).toNat % 4 = 0 ∧ (0x40#7).toNat % 4 = 0 ∧
    (0x7C#7).toNat % 4 = 0 ∧ (0x04#7).toNat ≠ 0x08 ∧ (0x10#7).toNat ≠ 0x0C := by decide

/-- UnalignedRegisterAccessIsRefused. -/
theorem test_witness_unaligned :
    (0x01#7).toNat % 4 ≠ 0 ∧ (0x7F#7).toNat % 4 ≠ 0 ∧
    ({ ready 0 with moves := [.regRead 0x7F] } : State).moves = [.regRead 0x7F] := by decide +kernel

/-- MessageBytesArePresentedToIdleUnits, clause by clause. -/
theorem test_witness_placing : (unseeded.unit .opt).busy = true ∧ ((ready 0).unit .opt).busy = false := by decide +kernel

/-- EveryStepKeepsLegal, EveryHardwareStepKeepsRunning, UopCounterNeverWraps: both units just started, OPT about to step. -/
theorem test_witness_running :
    ({ started 37 with moves := [.sequence .opt] } : State).Running ∧ Move.ofHardware (.sequence .opt) = true ∧
    (step { started 37 with moves := [.sequence .opt] } matches .next _) = true := by
  unfold State.Running State.Legal
  decide +kernel

/-- RunningHardwareRaisesOnlyHostProtocol: the step that raises a fault, a second start. -/
theorem test_witness_running_fault :
    ({ started 37 with moves := [.regWrite 0 1] } : State).Running ∧ Move.ofHardware (.regWrite 0 1) = true ∧
    after (fun t => t.opt.fault) (step { started 37 with moves := [.regWrite 0 1] }) = some true := by
  unfold State.Running State.Legal
  decide +kernel

/-- UnitsAreIndependent (first clause), UnitStepsCommute. -/
theorem test_witness_sequencer_steps :
    (sequencerStep .opt (started 37) matches .next _) = true ∧ (sequencerStep .ref (started 37) matches .next _) = true := by
  decide +kernel

/-- UnitsAreIndependent (second clause): the same unit beside another one at rest. -/
theorem test_witness_same_unit :
    ((ready 37).start .opt).cfg = (started 37).cfg ∧ ((ready 37).start .opt).unit .opt = (started 37).unit .opt := by
  decide +kernel

/-- Machines that differ in seeds and in OPT's lane values are alike in control. -/
theorem same_control_of_values (s : State) (ls ls' seed : List Byte16) :
    SameControl { s with opt := { s.opt with lanes := some ls } }
      { s with opt := { s.opt with lanes := some ls' }, cfg := { s.cfg with seed := seed } } :=
  ⟨rfl, rfl, ⟨rfl, rfl, rfl, rfl, rfl, rfl, rfl, rfl, rfl, rfl, fun _ => rfl⟩,
    ⟨rfl, rfl, rfl, rfl, rfl, rfl, rfl, rfl, rfl, rfl, fun _ => rfl⟩, rfl, rfl, rfl, rfl, rfl⟩

/-- ControlIsIndependentOfData. -/
theorem test_witness_same_control :
    ∃ s s' : State, SameControl s s' ∧ s.cfg ≠ s'.cfg ∧ s.opt.lanes ≠ s'.opt.lanes ∧
      (step { s with moves := [.regRead 4] } matches .next _) = true :=
  ⟨_, _, same_control_of_values (State.resetOf t4) [1] [2] [3], by decide +kernel, by decide +kernel, by decide +kernel⟩

/-- SequencerIssuesItsSchedule, LanesBeforeFoldAreTheClosedForm, OptRunDeliversTheClosedFormDigest,
RefRunDeliversTheClosedFormDigest. -/
theorem test_witness_just_started :
    (started 37).cfg.Valid ∧ ((started 37).unit .opt).JustStarted ∧ ((started 37).unit .ref).JustStarted ∧
    Readable ((started 37).unit .opt).msg ((started 37).unit .opt).lenl ∧
    Readable ((started 37).unit .ref).msg ((started 37).unit .ref).lenl ∧
    14 < scheduleSize .opt (started 37).cfg ((started 37).unit .opt).lenl := by
  unfold UnitState.JustStarted Readable
  decide +kernel

/-- OracleEquivalence. -/
theorem test_witness_verification_call :
    verifying.cfg.Valid ∧ verifying.moves = [.regWrite 0 3] ∧ (3#32).getLsbD 0 = true ∧ (3#32).getLsbD 1 = true ∧
    verifying.opt.busy = false ∧ verifying.opt.fault = false ∧ verifying.ref.busy = false ∧ verifying.ref.fault = false ∧
    Readable verifying.opt.msg verifying.len ∧ Readable verifying.ref.msg verifying.len ∧
    ∀ a, a < verifying.len → verifying.ref.msg.read a = verifying.opt.msg.read a := by
  unfold Readable
  decide +kernel

/-- DigestCallReturnsTheDigest. -/
theorem test_witness_digest_call :
    calling.cfg.Valid ∧ calling.moves = [.regWrite 0x08 37, .regWrite 0x0C 0, .regWrite 0x00 1] ∧
    calling.opt.busy = false ∧ calling.opt.fault = false ∧ calling.ref.busy = false ∧
    Readable calling.opt.msg ((0#32).toNat * 2 ^ 32 + (37#32).toNat) := by
  unfold Readable
  decide +kernel

/-- GroupSizeDoesNotReachTheDigest. -/
theorem test_witness_group_sizes :
    t4With 1 = { t4 with G := (t4With 1).G } ∧ (t4With 1).Valid ∧ t4.Valid ∧
    ({ started 37 with cfg := t4With 1 } : State).opt.lenl = (started 37).opt.lenl := by decide +kernel

/-- LaneDependsOnItsOwnBytes: lane 2 of a 37-byte message meets bytes 32 to 36, lane 3 meets none. -/
theorem test_witness_routing :
    routedLane t4 32 = 2 ∧ routedLane t4 36 = 2 ∧ routedLane t4 31 = 1 ∧ ∀ a, a < 37 → routedLane t4 a ≠ 3 := by
  decide +kernel

end Sys2Proof.Tests
end

section
/-! SUPPORT. What each operation can leave, as an equation for the whole next state: a command, a handed word and a
sequencer's step replace one unit, a host access one register. -/

namespace Sys2Proof.Machine

/-- A start command replaces the state of its unit (45_host_operations R171). -/
theorem start_eq_setUnit (s : State) (u : UnitId) : ∃ x, s.start u = s.setUnit u x := by
  rcases start_cases s u with ⟨-, h⟩ | ⟨-, -, h⟩ | ⟨-, -, h⟩
  · exact ⟨s.unit u, by rw [h, setUnit_unit]⟩
  · exact ⟨_, h⟩
  · exact ⟨_, h⟩

/-- A handed word makes its unit the active one and replaces its state (60_exceptions R186). -/
theorem handWord_eq_setUnit (u : UnitId) (w : BitVec 16) (s : State) :
    ∃ x, handWord u w s = .next (({ s with active := u } : State).setUnit u x) := by
  rcases handWord_cases u w s with ⟨x, h⟩ | ⟨k, h⟩ | h
  · exact ⟨_, h⟩
  · exact ⟨_, h⟩
  · exact ⟨({ s with active := u } : State).unit u, by rw [h, setUnit_unit]⟩

/-- After the datapath the sequencer at most moves its own unit's place (43_sequencer_optimized R144). -/
theorem advanceSeq_next_eq_setUnit (u : UnitId) (before t : State) (q : SeqRegs) :
    ∃ x, advanceSeq u before q (.next t) = .next (t.setUnit u x) := by
  simp only [advanceSeq]
  split
  · exact ⟨_, rfl⟩
  · exact ⟨t.unit u, by rw [setUnit_unit]⟩

/-- A sequencer's step replaces its own unit's state; only the model's note of who ran last moves beside it (10_state R20,
44_reference_absorber R166). -/
theorem sequencerStep_eq_next {u : UnitId} {s t : State} (h : sequencerStep u s = .next t) :
    ∃ v x, t = ({ s with active := v } : State).setUnit u x := by
  rcases sequencerStep_cases u s with ⟨-, he⟩ | ⟨-, k, -, he⟩ | ⟨-, -, he⟩ | ⟨-, i, q, -, he⟩ <;> rw [he] at h
  case inl =>
    cases h
    exact ⟨s.active, s.unit u, (setUnit_unit s u).symm⟩
  case inr.inl =>
    cases h
    exact ⟨s.active, _, rfl⟩
  case inr.inr.inl => cases h
  case inr.inr.inr =>
    obtain ⟨x, hx⟩ := handWord_eq_setUnit u (uopWord i) s
    obtain ⟨y, hy⟩ := advanceSeq_next_eq_setUnit u s (({ s with active := u } : State).setUnit u x) q
    rw [hx, hy] at h
    cases h
    exact ⟨u, y, setUnit_setUnit ..⟩

/-- A register read leaves a word in `reg_rdata`, after at most a draw (45_host_operations R170, R175). -/
theorem regRead_eq_next {off : BitVec 7} {s t : State} (h : regRead off s = .next t) :
    ∃ v n, t = { s with rdata := v, draws := n } := by
  unfold regRead at h
  split at h
  · split at h <;> cases h
    · exact ⟨_, s.draws, rfl⟩
    · exact ⟨_, _, rfl⟩
  · cases h

/-- A register write is a `CTRL` write, sets a half of the length, or is ignored (45_host_operations R171 to R173, R177). -/
theorem regWrite_eq_next {off : BitVec 7} {v : BitVec 32} {s t : State} (h : regWrite off v s = .next t) :
    ctrlWrite v s = .next t ∨ t = { s with lenLo := v } ∨ t = { s with lenHi := v } ∨ t = s := by
  unfold regWrite at h
  split at h
  · split at h
    · exact .inl h
    · cases h; exact .inr (.inl rfl)
    · cases h; exact .inr (.inr (.inl rfl))
    · cases h; exact .inr (.inr (.inr rfl))
  · cases h

/-- A presented byte replaces the state of the unit that reads it (45_host_operations R178). -/
theorem placeByte_eq_next {u : UnitId} {off : BitVec 64} {b : Byte} {s t : State} (h : placeByte u off b s = .next t) :
    t = s.setUnit u { s.unit u with msg := (s.unit u).msg.write off.toNat b } := by
  unfold placeByte at h
  split at h <;> cases h
  rfl

/-- With no move pending, either the state stays or a unit's sequencer steps, after at most a draw (R166, R201). -/
theorem onItsOwn_eq_next {s t : State} (h : onItsOwn s = .next t) :
    t = s ∨ ∃ u n, sequencerStep u { s with draws := n } = .next t := by
  unfold onItsOwn at h
  split at h
  · exact .inr ⟨_, _, h⟩
  · exact .inr ⟨.opt, s.draws, h⟩
  · exact .inr ⟨.ref, s.draws, h⟩
  · cases h; exact .inl rfl

end Sys2Proof.Machine
end

section
/-! SUPPORT. The configuration and the length registers under each move, and the obligation O46. -/

namespace Sys2Proof.Machine

/-- `t` has the build-time constants (R41) and the length registers (R36) of `s`. -/
structure SameConfigAndLength (s t : State) : Prop where
  cfg : t.cfg = s.cfg
  lenLo : t.lenLo = s.lenLo
  lenHi : t.lenHi = s.lenHi

namespace SameConfigAndLength

theorem refl (s : State) : SameConfigAndLength s s := ⟨rfl, rfl, rfl⟩

theorem trans {a b c : State} (h : SameConfigAndLength a b) (h' : SameConfigAndLength b c) : SameConfigAndLength a c :=
  ⟨h'.cfg.trans h.cfg, h'.lenLo.trans h.lenLo, h'.lenHi.trans h.lenHi⟩

theorem setUnit (s : State) (u : UnitId) (x : UnitState) : SameConfigAndLength s (s.setUnit u x) :=
  ⟨setUnit_cfg .., setUnit_lenLo .., setUnit_lenHi ..⟩

theorem setActive_setUnit (s : State) (v u : UnitId) (x : UnitState) :
    SameConfigAndLength s (({ s with active := v } : State).setUnit u x) :=
  trans (b := { s with active := v }) ⟨rfl, rfl, rfl⟩ (setUnit ..)

theorem start (s : State) (u : UnitId) : SameConfigAndLength s (s.start u) := by
  obtain ⟨x, hx⟩ := start_eq_setUnit s u
  exact hx ▸ setUnit s u x

theorem ctrlWrite {v : BitVec 32} {s t : State} (h : ctrlWrite v s = .next t) : SameConfigAndLength s t := by
  rcases ctrlWrite_cases v s with he | he | he | he <;> rw [he] at h <;> cases h
  · exact refl s
  · exact start s .opt
  · exact (start s .opt).trans (start _ .ref)
  · exact start s .ref

theorem handWord {u : UnitId} {w : BitVec 16} {s t : State} (h : handWord u w s = .next t) :
    SameConfigAndLength s t := by
  obtain ⟨x, hx⟩ := handWord_eq_setUnit u w s
  rw [hx] at h
  cases h
  exact setActive_setUnit ..

theorem sequencerStep {u : UnitId} {s t : State} (h : sequencerStep u s = .next t) : SameConfigAndLength s t := by
  obtain ⟨v, x, rfl⟩ := sequencerStep_eq_next h
  exact setActive_setUnit ..

theorem onItsOwn {s t : State} (h : onItsOwn s = .next t) : SameConfigAndLength s t := by
  rcases onItsOwn_eq_next h with rfl | ⟨u, n, hu⟩
  · exact refl t
  · exact trans (b := { s with draws := n }) ⟨rfl, rfl, rfl⟩ (sequencerStep hu)

/-- Every move but a register write and reset keeps them. -/
theorem act {m : Move} {s t : State} (hw : ∀ off v, m ≠ .regWrite off v) (hr : m ≠ .reset) (h : act m s = .next t) :
    SameConfigAndLength s t := by
  cases m with
  | regWrite off v => exact absurd rfl (hw off v)
  | reset => exact absurd rfl hr
  | regRead off =>
    obtain ⟨v, n, rfl⟩ := regRead_eq_next h
    exact ⟨rfl, rfl, rfl⟩
  | sequence u => exact sequencerStep h
  | hand u w =>
    simp only [Machine.act] at h
    split at h
    · exact handWord h
    · cases h; exact refl _
  | place u off b =>
    rw [placeByte_eq_next h]
    exact setUnit ..

end SameConfigAndLength

theorem regWrite_cfg {off : BitVec 7} {v : BitVec 32} {s t : State} (h : regWrite off v s = .next t) :
    t.cfg = s.cfg := by
  rcases regWrite_eq_next h with h | rfl | rfl | rfl
  · exact (SameConfigAndLength.ctrlWrite h).cfg
  all_goals rfl

/-- The two moves that may change the length registers keep the constants too. -/
theorem act_cfg {m : Move} {s t : State} (h : act m s = .next t) : t.cfg = s.cfg := by
  cases m with
  | regWrite off v => exact regWrite_cfg h
  | reset => cases h; exact resetNow_cfg s
  | regRead | sequence | hand | place =>
    exact (SameConfigAndLength.act (fun _ _ => Move.noConfusion) Move.noConfusion h).cfg

end Sys2Proof.Machine

namespace Sys2Proof

open Sys2Proof.Machine

/-- Settles O46: a step is either the first pending move or a busy unit's own step, and each has its lemma. -/
theorem noStepChangesConfigurationOrLength : Obligations.NoStepChangesConfigurationOrLength := by
  intro s t h
  cases hm : s.moves with
  | nil =>
    rw [step_nil hm] at h
    have same := SameConfigAndLength.onItsOwn h
    exact ⟨same.cfg, fun _ _ => ⟨same.lenLo, same.lenHi⟩⟩
  | cons m rest =>
    rw [step_cons hm] at h
    have cfg := act_cfg h
    refine ⟨cfg, fun hw hr => ?_⟩
    simp only [List.head?_cons, ne_eq, Option.some.injEq] at hw hr
    have same := SameConfigAndLength.act hw hr h
    exact ⟨same.lenLo, same.lenHi⟩

end Sys2Proof
end

section
/-! SUPPORT. A micro-operation, a handed word and a sequencer's turn as functions of the build-time constants and of one
unit, each tied to the model's operation by an equation. -/

namespace Sys2Proof.Machine

/-- What a micro-operation does to its unit: the effect that `exec` performs on the active one. A host command is no
micro-operation. -/
def effectOf : Instr → Config → UnitState → UopResult
  | .ldseed => ldseedEffect
  | .xord lane cnt => takeChunks (fun v d => v ^^^ d) lane cnt
  | .xorp lane => xorpEffect lane
  | .rndf lane cnt => fixedRound roundKeyAt lane cnt
  | .rndz lane cnt => fixedRound (fun _ _ => zero16) lane cnt
  | .rndd lane cnt => takeChunks (fun v d => aesr v d) lane cnt
  | .rndk lane cnt => fixedRound (fun c _ => c.fk) lane cnt
  | .fold => foldEffect
  | .lenx => lenxEffect
  | .out => outEffect
  | _ => illegalEffect

theorem exec_eq_perform_effectOf {i : Instr} (h : i.nbits = 16) (s : State) : exec i s = s.perform (effectOf i) := by
  cases i with
  | startOpt withRef ignored => exact absurd h (show ¬32 = 16 by decide)
  | startRef ignored => exact absurd h (show ¬32 = 16 by decide)
  | _ => rfl

/-- The unit after a micro-operation started on unit `x`: completed with `UPC` one higher, faulted, or waiting. -/
def UopResult.leaves (x : UnitState) : UopResult → UnitState
  | .done y => { y with upc := y.upc + 1 }
  | .fault cause => flagsFaulted cause x
  | .wait => x

theorem perform_eq_setUnit_leaves (s : State) (e : Config → UnitState → UopResult) :
    s.perform e = .next (s.setUnit s.active ((e s.cfg (s.unit s.active)).leaves (s.unit s.active))) := by
  rcases perform_cases s e with ⟨x, he, h⟩ | ⟨k, he, h⟩ | ⟨he, h⟩ <;> rw [he, h]
  case inr.inr => exact congrArg _ (setUnit_unit ..).symm
  all_goals rfl

/-- A unit after its datapath was handed the word `w` (60_exceptions R186). -/
def wordLeaves (w : BitVec 16) (c : Config) (x : UnitState) : UnitState :=
  match decodeWord w with
  | .ok i => (effectOf i c x).leaves x
  | .error _ => flagsFaulted .illegalUop x

theorem wordLeaves_of_ok {w : BitVec 16} {i : Instr} (h : decodeWord w = .ok i) (c : Config) (x : UnitState) :
    wordLeaves w c x = (effectOf i c x).leaves x := by simp only [wordLeaves, h]

theorem wordLeaves_of_error {w : BitVec 16} {e : DecodeError} (h : decodeWord w = .error e) (c : Config)
    (x : UnitState) : wordLeaves w c x = flagsFaulted .illegalUop x := by simp only [wordLeaves, h]

theorem handWord_eq_wordLeaves (u : UnitId) (w : BitVec 16) (s : State) :
    handWord u w s = .next (({ s with active := u } : State).setUnit u (wordLeaves w s.cfg (s.unit u))) := by
  unfold handWord
  cases h : decodeWord w with
  | ok i =>
    simp only [exec_eq_perform_effectOf (nbits_of_decodeWord h), perform_eq_setUnit_leaves, wordLeaves_of_ok h,
      unit_active]
  | error e => simp only [State.raise, wordLeaves_of_error h, unit_active]

/-- The unit `y` that unit `x` has become by its datapath, its sequencer moved to `q` if the micro-operation completed
(10_state R31). -/
def advanced (q : SeqRegs) (x y : UnitState) : UnitState := if y.upc = x.upc + 1 then { y with seq := q } else y

theorem sequencerStep_of_idle {u : UnitId} {s : State} (hb : (s.unit u).busy = false) :
    sequencerStep u s = .next s := by simp [sequencerStep, hb]

theorem sequencerStep_of_fault {u : UnitId} {s : State} {k : Cause} (hb : (s.unit u).busy = true)
    (hi : issue u s.cfg (s.unit u) = .fault k) : sequencerStep u s = .next (s.raise u k) := by
  simp [sequencerStep, hb, hi]

theorem sequencerStep_of_uop {u : UnitId} {s : State} {i : Instr} {q : SeqRegs} (hb : (s.unit u).busy = true)
    (hi : issue u s.cfg (s.unit u) = .uop i q) :
    sequencerStep u s = .next (({ s with active := u } : State).setUnit u
      (advanced q (s.unit u) (wordLeaves (uopWord i) s.cfg (s.unit u)))) := by
  simp only [sequencerStep, hb, hi, if_true, handWord_eq_wordLeaves, advanceSeq, unit_setUnit, advanced]
  split
  · rw [State.setSeq, setUnit_setUnit, unit_setUnit]
  · rfl

end Sys2Proof.Machine
end

section
/-! SUPPORT. Every step keeps a legal state legal: the micro-operations' effects, then each operation on the state, and
the obligation O41. -/

namespace Sys2Proof.Machine

/-! A legal unit. -/

theorem legal_iff {c : Config} {x : UnitState} :
    x.legal c = true ↔ x.flagsLegal = true ∧ x.causeLegal = true ∧ x.lanesLegal c = true ∧ x.digestLegal = true ∧
      x.cursorLegal = true ∧ x.msg.wf = true := by simp [UnitState.legal, and_assoc]

/-- A busy legal unit is neither done nor faulted (10_state R32). -/
theorem legal_busy {c : Config} {x : UnitState} (h : x.legal c = true) (hb : x.busy = true) :
    x.done = false ∧ x.fault = false := by
  obtain ⟨hflags, -⟩ := legal_iff.1 h
  simp only [UnitState.flagsLegal, hb, Bool.true_and, Bool.and_eq_true, Bool.not_eq_true'] at hflags
  exact hflags.1

theorem lanesLegal_of_some {c : Config} {x : UnitState} {ls : List Byte16} (h : x.lanes = some ls) :
    x.lanesLegal c = true ↔ ls.length = c.L := by simp [UnitState.lanesLegal, h]

theorem cursorLegal_iff {x : UnitState} : x.cursorLegal = true ↔ x.cur ≤ x.lenl ∧ x.lenl < 2 ^ 64 := by
  simp [UnitState.cursorLegal]

theorem causeCode_bounds (k : Cause) : 1 ≤ (causeCode k).toNat ∧ (causeCode k).toNat ≤ 5 := by
  cases k <;> decide

/-- Taking a fault keeps a busy unit legal (60_exceptions R188). -/
theorem flagsFaulted_legal {c : Config} {x : UnitState} (k : Cause) (h : x.legal c = true) (hb : x.busy = true) :
    (flagsFaulted k x).legal c = true := by
  obtain ⟨hdone, hfault⟩ := legal_busy h hb
  obtain ⟨-, -, hlanes, hdigest, hcursor, hmsg⟩ := legal_iff.1 h
  refine legal_iff.2 ⟨?_, ?_, hlanes, hdigest, hcursor, hmsg⟩
  · simp [UnitState.flagsLegal, hdone]
  · simp [UnitState.causeLegal, flagsFaulted_fcause, hfault, causeCode_bounds]

/-! What a completed micro-operation writes. -/

/-- `y` is `x` with at most its lanes, its cursor and its scratch buffers written, the lanes still `L` of them and the
cursor still at most `LENL`. -/
structure WritesLanes (c : Config) (x y : UnitState) : Prop where
  frame : y = { x with lanes := y.lanes, cur := y.cur, padbuf := y.padbuf, lenbuf := y.lenbuf }
  lanes : x.lanesLegal c = true → y.lanesLegal c = true
  cursor : x.cur ≤ x.lenl → y.cur ≤ x.lenl

/-- Replacing the lanes by as many. -/
theorem WritesLanes.of_length {c : Config} {x : UnitState} {ls ls' : List Byte16} {cur : Nat} {pad len : Byte16}
    (h : x.lanes = some ls) (hlen : ls'.length = ls.length) (hcur : x.cur ≤ x.lenl → cur ≤ x.lenl) :
    WritesLanes c x { x with lanes := some ls', cur := cur, padbuf := pad, lenbuf := len } where
  frame := rfl
  lanes := by rw [lanesLegal_of_some h, lanesLegal_of_some rfl, hlen]; exact id
  cursor := hcur

theorem fixedRound_writesLanes {key : Config → Nat → Byte16} {lane cnt : BitVec 6} {c : Config} {x y : UnitState}
    (h : fixedRound key lane cnt c x = .done y) : WritesLanes c x y := by
  obtain ⟨-, ls, hls, rfl⟩ := fixedRound_eq_done.1 h
  exact .of_length hls (length_onNamedLanes ..) id

theorem takeChunks_writesLanes {f : Byte16 → Byte16 → Byte16} {lane cnt : BitVec 6} {c : Config} {x y : UnitState}
    (h : takeChunks f lane cnt c x = .done y) : WritesLanes c x y := by
  obtain ⟨-, ls, hls, hle, ds, -, rfl⟩ := takeChunks_eq_done.1 h
  exact .of_length hls (length_onNamedLanes ..) fun _ => hle

/-- A micro-operation that completes writes lanes, cursor and buffers, or it is `OUT` (42_finalize_ops R122). -/
theorem effectOf_eq_done {i : Instr} {c : Config} {x y : UnitState} (h : effectOf i c x = .done y) :
    WritesLanes c x y ∨ ∃ ls, x.lanes = some ls ∧ y = flagsFinished { x with digest := some (ls.headD zero16) } := by
  cases i with
  | ldseed =>
    cases h
    exact .inl ⟨rfl, fun _ => by simp [UnitState.lanesLegal], id⟩
  | xord lane cnt => exact .inl (takeChunks_writesLanes h)
  | rndd lane cnt => exact .inl (takeChunks_writesLanes h)
  | xorp lane =>
    obtain ⟨-, ls, hls, -, pad, -, rfl⟩ := xorpEffect_eq_done.1 h
    exact .inl (.of_length hls (length_onNamedLanes ..) fun _ => Nat.le_refl _)
  | rndf lane cnt => exact .inl (fixedRound_writesLanes h)
  | rndz lane cnt => exact .inl (fixedRound_writesLanes (key := fun _ _ => zero16) h)
  | rndk lane cnt => exact .inl (fixedRound_writesLanes (key := fun c _ => c.fk) h)
  | fold =>
    obtain ⟨ls, hls, ⟨⟩⟩ := withLanes_eq_done.1 h
    exact .inl (.of_length hls List.length_set id)
  | lenx =>
    obtain ⟨ls, hls, ⟨⟩⟩ := withLanes_eq_done.1 h
    exact .inl (.of_length hls List.length_set id)
  | out =>
    obtain ⟨ls, hls, ⟨⟩⟩ := withLanes_eq_done.1 h
    exact .inr ⟨ls, hls, rfl⟩
  | _ => cases h

/-! Legal units stay legal in every operation on a unit. -/

theorem WritesLanes.legal {c : Config} {x y : UnitState} (w : WritesLanes c x y) (h : x.legal c = true) :
    y.legal c = true := by
  obtain ⟨hflags, hcause, hlanes, hdigest, hcursor, hmsg⟩ := legal_iff.1 h
  have hlanes' := w.lanes hlanes
  have hcursor' := w.cursor (cursorLegal_iff.1 hcursor).1
  rw [w.frame]
  exact legal_iff.2
    ⟨hflags, hcause, hlanes', hdigest, cursorLegal_iff.2 ⟨hcursor', (cursorLegal_iff.1 hcursor).2⟩, hmsg⟩

/-- `OUT` on a busy unit: the digest gets its value as `DONE` is set. -/
theorem flagsFinished_legal {c : Config} {x : UnitState} (d : Byte16) (h : x.legal c = true) (hb : x.busy = true) :
    (flagsFinished { x with digest := some d }).legal c = true := by
  obtain ⟨-, hfault⟩ := legal_busy h hb
  obtain ⟨-, hcause, hlanes, -, hcursor, hmsg⟩ := legal_iff.1 h
  exact legal_iff.2 ⟨by simp [UnitState.flagsLegal, hfault], hcause, hlanes, rfl, hcursor, hmsg⟩

theorem leaves_effectOf_legal {i : Instr} {c : Config} {x : UnitState} (h : x.legal c = true) (hb : x.busy = true) :
    ((effectOf i c x).leaves x).legal c = true := by
  cases he : effectOf i c x with
  | done y =>
    show y.legal c = true
    rcases effectOf_eq_done he with w | ⟨ls, -, rfl⟩
    · exact w.legal h
    · exact flagsFinished_legal _ h hb
  | fault k => exact flagsFaulted_legal k h hb
  | wait => exact h

theorem wordLeaves_legal {c : Config} {x : UnitState} (w : BitVec 16) (h : x.legal c = true) (hb : x.busy = true) :
    (wordLeaves w c x).legal c = true := by
  cases hw : decodeWord w with
  | ok i => exact wordLeaves_of_ok hw c x ▸ leaves_effectOf_legal h hb
  | error e => exact wordLeaves_of_error hw c x ▸ flagsFaulted_legal _ h hb

theorem advanced_legal {c : Config} {y : UnitState} (q : SeqRegs) (x : UnitState) (h : y.legal c = true) :
    (advanced q x y).legal c = true := by
  unfold advanced
  split
  · exact h
  · exact h

/-- A start command leaves an idle unit without fault legal, whatever length it latches (45_host_operations R171). -/
theorem flagsStarted_legal {c : Config} {x : UnitState} {len : Nat} (q : SeqRegs) (hlen : len < 2 ^ 64)
    (h : x.legal c = true) (hf : x.fault = false) :
    (flagsStarted { x with lenl := len, cur := 0, upc := 0, lanes := none, digest := none, seq := q }).legal c =
      true := by
  obtain ⟨-, hcause, -, -, -, hmsg⟩ := legal_iff.1 h
  have hflags : UnitState.flagsLegal (flagsStarted x) = true := by simp [UnitState.flagsLegal, hf]
  exact legal_iff.2 ⟨hflags, hcause, rfl, rfl, cursorLegal_iff.2 ⟨Nat.zero_le _, hlen⟩, hmsg⟩

theorem resetWith_legal {c : Config} {m : Message} (h : m.wf = true) : (UnitState.resetWith m).legal c = true :=
  legal_iff.2 ⟨rfl, rfl, rfl, rfl, rfl, h⟩

theorem presented_legal {c : Config} {x : UnitState} (off : BitVec 64) (b : Byte) (h : x.legal c = true) :
    ({ x with msg := x.msg.write off.toNat b } : UnitState).legal c = true := by
  obtain ⟨hflags, hcause, hlanes, hdigest, hcursor, hmsg⟩ := legal_iff.1 h
  exact legal_iff.2 ⟨hflags, hcause, hlanes, hdigest, hcursor, write_keeps_wf b off.isLt hmsg⟩

/-! Legal states stay legal in every operation on the state. -/

namespace State.Legal

theorem unit {s : State} (h : s.Legal) (u : UnitId) : (s.unit u).legal s.cfg = true := by
  obtain ⟨-, hopt, href⟩ := h
  cases u with
  | opt => exact hopt
  | ref => exact href

theorem msg_wf {s : State} (h : s.Legal) (u : UnitId) : (s.unit u).msg.wf = true := by
  obtain ⟨-, -, -, -, -, hmsg⟩ := legal_iff.1 (h.unit u)
  exact hmsg

theorem setUnit {s : State} {u : UnitId} {x : UnitState} (h : s.Legal) (hx : x.legal s.cfg = true) :
    (s.setUnit u x).Legal := by
  obtain ⟨hcfg, hopt, href⟩ := h
  cases u with
  | opt => exact ⟨hcfg, hx, href⟩
  | ref => exact ⟨hcfg, hopt, hx⟩

/-- The field that names the active unit plays no part. -/
theorem setActive_setUnit {s : State} {v u : UnitId} {x : UnitState} (h : s.Legal) (hx : x.legal s.cfg = true) :
    (({ s with active := v } : State).setUnit u x).Legal :=
  setUnit (s := { s with active := v }) h hx

theorem raise {s : State} {u : UnitId} (k : Cause) (h : s.Legal) (hb : (s.unit u).busy = true) : (s.raise u k).Legal :=
  h.setUnit (flagsFaulted_legal k (h.unit u) hb)

theorem start {s : State} (u : UnitId) (h : s.Legal) : (s.start u).Legal := by
  rcases start_cases s u with ⟨-, he⟩ | ⟨-, hb, he⟩ | ⟨hf, -, he⟩ <;> rw [he]
  · exact h
  · exact h.raise _ hb
  · exact h.setUnit (flagsStarted_legal _ (len_lt s) (h.unit u) hf)

theorem ctrlWrite {v : BitVec 32} {s t : State} (h : s.Legal) (hs : ctrlWrite v s = .next t) : t.Legal := by
  rcases ctrlWrite_cases v s with he | he | he | he <;> rw [he] at hs <;> cases hs
  · exact h
  · exact h.start .opt
  · exact (h.start .opt).start .ref
  · exact h.start .ref

theorem regWrite {off : BitVec 7} {v : BitVec 32} {s t : State} (h : s.Legal) (hs : regWrite off v s = .next t) :
    t.Legal := by
  rcases regWrite_eq_next hs with hc | rfl | rfl | rfl
  · exact h.ctrlWrite hc
  all_goals exact h

theorem handWord {u : UnitId} {w : BitVec 16} {s t : State} (h : s.Legal) (hb : (s.unit u).busy = true)
    (hs : handWord u w s = .next t) : t.Legal := by
  rw [handWord_eq_wordLeaves] at hs
  cases hs
  exact h.setActive_setUnit (wordLeaves_legal w (h.unit u) hb)

theorem sequencerStep {u : UnitId} {s t : State} (h : s.Legal) (hs : sequencerStep u s = .next t) : t.Legal := by
  rcases sequencerStep_cases u s with ⟨-, he⟩ | ⟨hb, k, -, he⟩ | ⟨-, -, he⟩ | ⟨hb, i, q, hi, -⟩
  case inr.inr.inr =>
    rw [sequencerStep_of_uop hb hi] at hs
    cases hs
    exact h.setActive_setUnit (advanced_legal q _ (wordLeaves_legal _ (h.unit u) hb))
  all_goals rw [he] at hs; cases hs
  · exact h
  · exact h.raise k hb

theorem resetNow {s : State} (h : s.Legal) : s.resetNow.Legal :=
  ⟨h.1, resetWith_legal (h.msg_wf .opt), resetWith_legal (h.msg_wf .ref)⟩

theorem act {m : Move} {s t : State} (h : s.Legal) (hs : act m s = .next t) : t.Legal := by
  cases m with
  | regWrite off v => exact h.regWrite hs
  | regRead off =>
    obtain ⟨v, n, rfl⟩ := regRead_eq_next hs
    exact h
  | sequence u => exact h.sequencerStep hs
  | hand u w =>
    simp only [Machine.act] at hs
    split at hs
    next hb => exact h.handWord hb hs
    next => cases hs; exact h
  | place u off b =>
    rw [placeByte_eq_next hs]
    exact h.setUnit (presented_legal off b (h.unit u))
  | reset => cases hs; exact h.resetNow

theorem onItsOwn {s t : State} (h : s.Legal) (hs : onItsOwn s = .next t) : t.Legal := by
  rcases onItsOwn_eq_next hs with rfl | ⟨u, n, hu⟩
  · exact h
  · exact sequencerStep (s := { s with draws := n }) h hu

end State.Legal

end Sys2Proof.Machine

namespace Sys2Proof

open Sys2Proof.Machine

/-- Settles O41: a step is the first pending move or a busy unit's own step, and each keeps a legal state legal. -/
theorem everyStepKeepsLegal : Obligations.EveryStepKeepsLegal := by
  intro s t h hs
  cases hm : s.moves with
  | nil => exact h.onItsOwn (step_nil hm ▸ hs)
  | cons m rest => exact State.Legal.act (s := { s with moves := rest }) h (step_cons hm ▸ hs)

end Sys2Proof
end

section
/-! SUPPORT. What a sequencer's step touches and what it depends on, and the obligation O48. -/

namespace Sys2Proof.Machine

theorem other_ne (u : UnitId) : u.other ≠ u := by cases u <;> decide

/-- A sequencer's step leaves the rest of the machine alone (10_state R20). -/
theorem sequencerStep_frame {u : UnitId} {s t : State} (h : sequencerStep u s = .next t) :
    t.unit u.other = s.unit u.other ∧ t.cfg = s.cfg ∧ t.lenLo = s.lenLo ∧ t.lenHi = s.lenHi ∧ t.rdata = s.rdata ∧
      t.moves = s.moves ∧ t.draws = s.draws := by
  obtain ⟨v, x, rfl⟩ := sequencerStep_eq_next h
  exact ⟨by rw [unit_setUnit_of_ne _ _ (other_ne u), unit_active], setUnit_cfg .., setUnit_lenLo .., setUnit_lenHi ..,
    setUnit_rdata .., setUnit_moves .., setUnit_draws ..⟩

/-- Two machines with the same constants and the same unit `u` take the same step of it (60_exceptions R199). -/
theorem sequencerStep_congr {u : UnitId} {s s' t : State} (hcfg : s'.cfg = s.cfg) (hunit : s'.unit u = s.unit u)
    (h : sequencerStep u s = .next t) : ∃ t', sequencerStep u s' = .next t' ∧ t'.unit u = t.unit u := by
  rcases sequencerStep_cases u s with ⟨hb, he⟩ | ⟨hb, k, hi, he⟩ | ⟨-, -, he⟩ | ⟨hb, i, q, hi, -⟩
  case inl =>
    rw [he] at h
    cases h
    exact ⟨s', sequencerStep_of_idle (hunit ▸ hb), hunit⟩
  case inr.inl =>
    rw [he] at h
    cases h
    exact ⟨_, sequencerStep_of_fault (hunit ▸ hb) (by rw [hcfg, hunit, hi]), by rw [unit_raise, unit_raise, hunit]⟩
  case inr.inr.inl => rw [he] at h; cases h
  case inr.inr.inr =>
    rw [sequencerStep_of_uop hb hi] at h
    cases h
    exact ⟨_, sequencerStep_of_uop (hunit ▸ hb) (by rw [hcfg, hunit, hi]),
      by rw [unit_setUnit, unit_setUnit, hcfg, hunit]⟩

end Sys2Proof.Machine

namespace Sys2Proof

open Sys2Proof.Machine

/-- Settles O48: the frame of a sequencer's step and its congruence. -/
theorem unitsAreIndependent : Obligations.UnitsAreIndependent :=
  ⟨fun _ _ _ h => sequencerStep_frame h, fun _ _ _ _ hcfg hunit h => sequencerStep_congr hcfg hunit h⟩

end Sys2Proof
end

section
/-! SUPPORT. Register reads: the digest words and the bits of `STATUS`, and the obligations O36 and O33. -/

namespace Sys2Proof.Machine

theorem regRead_of_word {s : State} {off : BitVec 7} {w : BitVec 32} (ha : aligned off = true)
    (hv : regValue s off = .word w) : regRead off s = .next { s with rdata := w } := by simp [regRead, ha, hv]

/-- The digest registers of OPT stand at `0x20 + 4k` (10_state R38). -/
theorem regValue_optDigest (s : State) {k : Nat} (hk : k < 4) :
    aligned (BitVec.ofNat 7 (0x20 + 4 * k)) = true ∧
      regValue s (BitVec.ofNat 7 (0x20 + 4 * k)) = digestWord s.opt k := by
  interval_cases k <;> exact ⟨rfl, rfl⟩

/-- The digest registers of REF stand at `0x30 + 4k` (10_state R39). -/
theorem regValue_refDigest (s : State) {k : Nat} (hk : k < 4) :
    aligned (BitVec.ofNat 7 (0x30 + 4 * k)) = true ∧
      regValue s (BitVec.ofNat 7 (0x30 + 4 * k)) = digestWord s.ref k := by
  interval_cases k <;> exact ⟨rfl, rfl⟩

theorem digestWord_of_done {x : UnitState} {d : Byte16} (k : Nat) (hdone : x.done = true) (hd : x.digest = some d) :
    digestWord x k = .word (d.extractLsb' (32 * k) 32) := by simp [digestWord, hdone, hd]

/-- Byte `m` of the 32-bit word `k` of a value is its byte `4k + m`. -/
theorem byte_of_digestWord (d : Byte16) (k : Nat) {m : Nat} (hm : m < 4) :
    (d.extractLsb' (32 * k) 32).extractLsb' (8 * m) 8 = byteAt d (4 * k + m) := by
  apply BitVec.eq_of_getLsbD_eq
  intro i hi
  have hin : 8 * m + i < 32 := by omega
  have hbit : 32 * k + (8 * m + i) = 8 * (4 * k + m) + i := by omega
  simp [byteAt, hi, hin, hbit]

/-- A bit of the unit's byte of `STATUS`, by the flag it belongs to (10_state R35). -/
theorem getLsbD_statusByte (x : UnitState) (i : Nat) :
    (statusByte x).getLsbD i =
      if i < 1 then (BitVec.ofBool x.busy).getLsbD i
      else if i < 2 then (BitVec.ofBool x.done).getLsbD (i - 1)
      else if i < 3 then (BitVec.ofBool x.fault).getLsbD (i - 2)
      else if i < 4 then false
      else x.fcause.getLsbD (i - 4) := by
  rw [statusByte, BitVec.getLsbD_append, BitVec.getLsbD_append, BitVec.getLsbD_append, BitVec.getLsbD_append]
  grind

/-- A bit of `STATUS`, by the unit it belongs to. -/
theorem getLsbD_statusWord (s : State) (i : Nat) :
    (statusWord s).getLsbD i =
      if i < 8 then (statusByte s.opt).getLsbD i
      else if i < 16 then (statusByte s.ref).getLsbD (i - 8)
      else false := by
  rw [statusWord, BitVec.getLsbD_append, BitVec.getLsbD_append]
  grind

/-- One unit's byte of `STATUS`, field by field (10_state R35). -/
theorem statusByte_fields (x : UnitState) :
    (statusByte x).getLsbD 0 = x.busy ∧ (statusByte x).getLsbD 1 = x.done ∧ (statusByte x).getLsbD 2 = x.fault ∧
      (statusByte x).getLsbD 3 = false ∧ (statusByte x).extractLsb' 4 4 = x.fcause := by
  have hcause : (statusByte x).extractLsb' 4 4 = x.fcause := by
    apply BitVec.eq_of_getLsbD_eq
    intro i hi
    rw [BitVec.getLsbD_extractLsb', getLsbD_statusByte, if_neg (by omega), if_neg (by omega), if_neg (by omega),
      if_neg (by omega)]
    simp [hi]
  refine ⟨?_, ?_, ?_, ?_, hcause⟩
  all_goals rw [getLsbD_statusByte]; simp

theorem statusWord_low (s : State) : (statusWord s).extractLsb' 0 8 = statusByte s.opt := by
  apply BitVec.eq_of_getLsbD_eq
  intro i hi
  rw [BitVec.getLsbD_extractLsb', getLsbD_statusWord, if_pos (by omega)]
  simp [hi]

theorem statusWord_high (s : State) : (statusWord s).extractLsb' 8 8 = statusByte s.ref := by
  apply BitVec.eq_of_getLsbD_eq
  intro i hi
  rw [BitVec.getLsbD_extractLsb', getLsbD_statusWord, if_neg (by omega), if_pos (by omega)]
  simp [hi]

theorem statusWord_reserved (s : State) : (statusWord s).extractLsb' 16 16 = 0 := by
  apply BitVec.eq_of_getLsbD_eq
  intro i hi
  rw [BitVec.getLsbD_extractLsb', getLsbD_statusWord, if_neg (by omega), if_neg (by omega)]
  simp

/-- A bit of a byte of a word. -/
theorem getLsbD_of_byte {w : BitVec 32} {b : Byte} {start : Nat} (h : w.extractLsb' start 8 = b) {i : Nat}
    (hi : i < 8) : w.getLsbD (start + i) = b.getLsbD i := by simp [← h, hi]

/-- The upper half of a byte of a word. -/
theorem extractLsb'_of_byte {w : BitVec 32} {b : Byte} {start : Nat} (h : w.extractLsb' start 8 = b) :
    w.extractLsb' (start + 4) 4 = b.extractLsb' 4 4 := by
  apply BitVec.eq_of_getLsbD_eq
  intro i hi
  have hi' : 4 + i < 8 := by omega
  simp [← h, hi, hi', Nat.add_assoc]

end Sys2Proof.Machine

namespace Sys2Proof

open Sys2Proof.Machine

/-- Settles O36: the word a digest register reads is four bytes of the digest. -/
theorem digestWordsHoldTheDigestBytes : Obligations.DigestWordsHoldTheDigestBytes := by
  intro s u d k hdone hd hk
  refine ⟨d.extractLsb' (32 * k) 32, ?_, fun m hm => byte_of_digestWord d k hm⟩
  have hword := digestWord_of_done k hdone hd
  cases u with
  | opt =>
    obtain ⟨ha, hv⟩ := regValue_optDigest s hk
    exact regRead_of_word ha (hv.trans hword)
  | ref =>
    obtain ⟨ha, hv⟩ := regValue_refDigest s hk
    exact regRead_of_word ha (hv.trans hword)

/-- Settles O33: `STATUS` is the two units' bytes, and each is the unit's flags. -/
theorem statusWordIsTheFlags : Obligations.StatusWordIsTheFlags := by
  intro s
  obtain ⟨obusy, odone, ofault, ores, ocause⟩ := statusByte_fields s.opt
  obtain ⟨rbusy, rdone, rfault, rres, rcause⟩ := statusByte_fields s.ref
  have low {i : Nat} (hi : i < 8) := getLsbD_of_byte (statusWord_low s) hi
  have high {i : Nat} (hi : i < 8) := getLsbD_of_byte (statusWord_high s) hi
  exact ⟨statusWord s, regRead_of_word rfl rfl,
    (low (i := 0) (by decide)).trans obusy, (low (i := 1) (by decide)).trans odone,
    (low (i := 2) (by decide)).trans ofault, (low (i := 3) (by decide)).trans ores,
    (extractLsb'_of_byte (statusWord_low s)).trans ocause,
    (high (i := 0) (by decide)).trans rbusy, (high (i := 1) (by decide)).trans rdone,
    (high (i := 2) (by decide)).trans rfault, (high (i := 3) (by decide)).trans rres,
    (extractLsb'_of_byte (statusWord_high s)).trans rcause,
    statusWord_reserved s, fun _ => rfl⟩

end Sys2Proof
end

section
/-! SUPPORT. The state after reset: its values and the invariants, and the obligations O29 and O42. -/

namespace Sys2Proof.Machine

theorem resetOf_unit (c : Config) (u : UnitId) : (State.resetOf c).unit u = UnitState.resetWith [] := by
  cases u <;> rfl

theorem core16_valid : Config.core16.Valid := by simp [Config.Valid, Config.core16]

theorem resetOf_legal {c : Config} (h : c.Valid) : (State.resetOf c).Legal :=
  ⟨h, resetWith_legal rfl, resetWith_legal rfl⟩

/-- An idle unit may stand anywhere, so both units are in their schedules after reset. -/
theorem resetOf_running {c : Config} (h : c.Valid) : (State.resetOf c).Running :=
  ⟨resetOf_legal h, rfl, rfl, rfl, rfl⟩

end Sys2Proof.Machine

namespace Sys2Proof

open Sys2Proof.Machine

/-- Settles O29: both units after reset are `UnitState.resetWith []`. -/
theorem stateResetHasTheStatedValues : Obligations.StateResetHasTheStatedValues := by
  refine ⟨rfl, rfl, rfl, rfl, fun u => ?_⟩
  rw [State.reset, resetOf_unit]
  exact ⟨rfl, rfl, rfl, rfl, rfl, rfl⟩

/-- Settles O42: CORE-16 is a legal configuration, and the reset state of any is legal and running. -/
theorem resetIsLegalAndRunning : Obligations.ResetIsLegalAndRunning :=
  ⟨resetOf_legal core16_valid, resetOf_running core16_valid⟩

end Sys2Proof
end

section
/-! SUPPORT. What a lane of the closed form depends on, and the obligation O60. -/

namespace Sys2Proof.Machine

/-- Every byte of chunk `k` is routed to lane `k mod L` (10_state R24). -/
theorem routedLane_of_chunk (c : Config) (k : Nat) {j : Nat} (hj : j < 16) : routedLane c (16 * k + j) = k % c.L := by
  have hdiv : (16 * k + j) / 16 = k := by omega
  rw [routedLane, hdiv]

/-- A chunk is its message's bytes below the length. -/
theorem messageChunk_congr {m m' : Message} {lenl k : Nat}
    (h : ∀ j, j < 16 → 16 * k + j < lenl → m'.read (16 * k + j) = m.read (16 * k + j)) :
    messageChunk m' lenl k = messageChunk m lenl k := by
  refine congrArg zext16 (List.map_congr_left fun j hj => ?_)
  have hj' := List.mem_range.1 hj
  rw [h j (by omega) (by omega)]

theorem mix_congr {c c' : Config} {i : Nat} (h : roundKeyAt c' i = roundKeyAt c i) (x : Byte16) :
    mix c' i x = mix c i x := by rw [mix, mix, h]

theorem absorbed_zero (c : Config) (m : Message) (lenl i : Nat) : absorbed c m lenl 0 i = seedAt c i := rfl

theorem absorbed_succ_routed {c : Config} {m : Message} {lenl k i : Nat} (h : i = k % c.L) :
    absorbed c m lenl (k + 1) i = mix c i (absorbed c m lenl k i ^^^ messageChunk m lenl k) := if_pos h

theorem absorbed_succ_other {c : Config} {m : Message} {lenl k i : Nat} (h : i ≠ k % c.L) :
    absorbed c m lenl (k + 1) i = absorbed c m lenl k i := if_neg h

/-- A lane depends on its seed, its key and its own bytes alone, by induction on the chunks: a chunk of another lane
leaves it, a chunk of its own is made of its bytes. -/
theorem absorbed_congr {c c' : Config} {m m' : Message} {lenl i : Nat} (hL : c'.L = c.L)
    (hseed : seedAt c' i = seedAt c i) (hkey : roundKeyAt c' i = roundKeyAt c i)
    (hm : ∀ a, a < lenl → routedLane c a = i → m'.read a = m.read a) (n : Nat) :
    absorbed c' m' lenl n i = absorbed c m lenl n i := by
  induction n with
  | zero => exact hseed
  | succ k ih =>
    by_cases hi : i = k % c.L
    · have hchunk : messageChunk m' lenl k = messageChunk m lenl k :=
        messageChunk_congr fun j hj hlt => hm _ hlt ((routedLane_of_chunk c k hj).trans hi.symm)
      rw [absorbed_succ_routed hi, absorbed_succ_routed (hL ▸ hi), ih, hchunk, mix_congr hkey]
    · rw [absorbed_succ_other hi, absorbed_succ_other (hL ▸ hi), ih]

/-- A lane that none of the first `n` chunks is routed to keeps its seed. -/
theorem absorbed_eq_seedAt {c : Config} {m : Message} {lenl i : Nat} (n : Nat) (h : ∀ k, k < n → i ≠ k % c.L) :
    absorbed c m lenl n i = seedAt c i := by
  induction n with
  | zero => rfl
  | succ k ih => rw [absorbed_succ_other (h k (by omega)), ih fun j hj => h j (by omega)]

/-- Every chunk of a message holds a byte. -/
theorem lt_of_lt_chunkCount {lenl k : Nat} (h : k < chunkCount lenl) : 16 * k < lenl := by
  unfold chunkCount at h
  omega

end Sys2Proof.Machine

namespace Sys2Proof

open Sys2Proof.Machine

/-- Settles O60, by induction on the chunks for either half; the first byte of a chunk shows where it is routed. -/
theorem laneDependsOnItsOwnBytes : Obligations.LaneDependsOnItsOwnBytes := by
  intro c c' m m' lenl i hL hseed hm
  refine ⟨fun hkey => absorbed_congr hL hseed hkey hm _, fun hnone => absorbed_eq_seedAt _ fun k hk hi => ?_⟩
  exact hnone (16 * k) (lt_of_lt_chunkCount hk) ((routedLane_of_chunk c k (j := 0) (by decide)).trans hi.symm)

end Sys2Proof
end

section
/-! SUPPORT. The sizes of the schedules bound the index of every place in them, and the obligation O45. -/

namespace Sys2Proof.Machine

/-! The sizes. -/

/-- The bulk stage issues at most three micro-operations per chunk and one per lane (43_sequencer_optimized R149). -/
theorem bulkSize_le (c : Config) (lenl : Nat) : bulkSize c lenl ≤ 3 * (lenl / 16) + c.L := by
  have hgroups : groups c ≤ c.L := Nat.div_le_self ..
  have hchunks : groups c * nsb c lenl ≤ lenl / 16 :=
    calc groups c * nsb c lenl ≤ c.L * (lenl / 16 / c.L) := by
          rw [nsb, superBlock, ← Nat.div_div_eq_div_mul]
          exact Nat.mul_le_mul_right _ hgroups
      _ ≤ lenl / 16 := Nat.mul_div_le ..
  have hsize : groups c * (3 * nsb c lenl + 1) = 3 * (groups c * nsb c lenl) + groups c := by ring
  unfold bulkSize
  split
  · omega
  · exact Nat.zero_le _

/-- The tail holds less than a super-block. -/
theorem ntc_lt {c : Config} (hL : 1 ≤ c.L) (lenl : Nat) : ntc c lenl < c.L := by
  have hmod : lenl % (16 * c.L) < 16 * c.L := Nat.mod_lt _ (by omega)
  unfold ntc superBlock
  omega

theorem optSize_lt {c : Config} {lenl : Nat} (hc : c.Valid) (hlen : lenl < 2 ^ 64) : optSize c lenl < 2 ^ 63 := by
  obtain ⟨hL, hL63, -⟩ := hc
  have hbulk := bulkSize_le c lenl
  have hntc := ntc_lt hL lenl
  have hdiv : ntc c lenl / c.G ≤ ntc c lenl := Nat.div_le_self ..
  have hmod : ntc c lenl % c.G ≤ ntc c lenl := Nat.mod_le ..
  unfold optSize
  split <;> omega

theorem refSize_lt {lenl : Nat} (hlen : lenl < 2 ^ 64) : refSize lenl < 2 ^ 63 := by
  unfold refSize chunkCount
  omega

/-- No schedule is as long as `2^63` (R149, 44_reference_absorber R165). -/
theorem scheduleSize_lt (u : UnitId) {c : Config} {lenl : Nat} (hc : c.Valid) (hlen : lenl < 2 ^ 64) :
    scheduleSize u c lenl < 2 ^ 63 := by
  cases u with
  | opt => exact optSize_lt hc hlen
  | ref => exact refSize_lt hlen

/-! The index of a place is at most the size. -/

/-- In pass `sb` over `g` groups, after the loads and the passes before it, group `gi` ends within `n` passes. -/
theorem passIndex_le {g gi sb n : Nat} (hsb : 1 ≤ sb) (hn : sb ≤ n) (hgi : gi < g) :
    g * (3 * sb - 2) + 3 * gi + 3 ≤ g * (3 * n + 1) :=
  calc g * (3 * sb - 2) + 3 * gi + 3 ≤ g * (3 * sb - 2) + g * 3 := by omega
    _ = g * (3 * sb - 2 + 3) := (Nat.mul_add ..).symm
    _ ≤ g * (3 * n + 1) := Nat.mul_le_mul_left _ (by omega)

theorem bulkSize_of_pos {c : Config} {lenl : Nat} (h : 1 ≤ nsb c lenl) :
    bulkSize c lenl = groups c * (3 * nsb c lenl + 1) := if_pos h

theorem groups_le_bulkSize {c : Config} {lenl : Nat} (h : 1 ≤ nsb c lenl) : groups c ≤ bulkSize c lenl := by
  rw [bulkSize_of_pos h]
  exact Nat.le_mul_of_pos_right _ (by omega)

/-- The stages before FINAL, and FINAL's six micro-operations, make up OPT_SCHEDULE (R149). -/
theorem stages_le_optSize (c : Config) (lenl : Nat) :
    7 + bulkSize c lenl + 4 * (ntc c lenl / c.G + ntc c lenl % c.G) ≤ optSize c lenl := by
  unfold optSize
  omega

/-- Every place of OPT_SCHEDULE is within it, stage by stage: the loads, the passes, the groups and singles of
the tail. -/
theorem optIndex_le_optSize {c : Config} {lenl : Nat} {q : SeqRegs} (hG : 1 ≤ c.G) (h : optRanges c lenl q = true) :
    optIndex c lenl q ≤ optSize c lenl := by
  have hsize := stages_le_optSize c lenl
  have hdm : ntc c lenl / c.G * c.G + ntc c lenl % c.G = ntc c lenl := Nat.div_add_mod' ..
  unfold optIndex
  cases hp : q.point <;> simp only [optRanges, hp, Bool.and_eq_true, decide_eq_true_eq, Bool.false_eq_true] at h ⊢
  case bulkLoad =>
    obtain ⟨hnsb, hgi⟩ := h
    have hload := groups_le_bulkSize hnsb
    omega
  case loopRnd1 | loopRnd2 | loopData =>
    obtain ⟨⟨hsb, hlt⟩, hgi⟩ := h
    have hpass := passIndex_le hsb hlt.le hgi
    rw [← bulkSize_of_pos (by omega)] at hpass
    omega
  case postRnd1 | postRnd2 | postZero =>
    obtain ⟨⟨hnsb, -⟩, hgi⟩ := h
    have hpass := passIndex_le hnsb le_rfl hgi
    rw [← bulkSize_of_pos hnsb] at hpass
    omega
  case groupTest =>
    obtain ⟨-, htl⟩ := h
    have hgroup : q.tl / c.G ≤ ntc c lenl / c.G := Nat.div_le_div_right htl
    omega
  case groupRnd1 | groupRnd2 | groupZero =>
    obtain ⟨-, htl⟩ := h
    have hgroup : (q.tl + c.G) / c.G ≤ ntc c lenl / c.G := Nat.div_le_div_right htl
    rw [Nat.add_div_right _ hG] at hgroup
    omega
  all_goals omega

/-- Every place of REF_SCHEDULE is within it: four micro-operations per chunk, then FINAL. -/
theorem refIndex_le_refSize {lenl : Nat} {q : SeqRegs} (h : refRanges lenl q = true) :
    refIndex lenl q ≤ refSize lenl := by
  unfold refIndex refSize
  cases hp : q.point <;> simp only [refRanges, hp, decide_eq_true_eq, Bool.false_eq_true] at h ⊢ <;> omega

/-! A busy unit stands in its schedule. -/

theorem onSchedule_upc_le {u : UnitId} {c : Config} {x : UnitState} (hc : c.Valid) (hb : x.busy = true)
    (h : onSchedule u c x = true) : x.upc ≤ scheduleSize u c x.lenl := by
  obtain ⟨-, -, hG, -⟩ := hc
  cases u <;> simp only [onSchedule, hb, Bool.not_true, Bool.false_or, Bool.and_eq_true, decide_eq_true_eq] at h <;>
    obtain ⟨⟨⟨hranges, -⟩, hupc⟩, -⟩ := h
  case opt => exact hupc ▸ optIndex_le_optSize hG hranges
  case ref => exact hupc ▸ refIndex_le_refSize hranges

theorem State.Running.onSchedule {s : State} (h : s.Running) (u : UnitId) :
    onSchedule u s.cfg (s.unit u) = true := by
  obtain ⟨-, hopt, href, -⟩ := h
  cases u with
  | opt => exact hopt
  | ref => exact href

theorem State.Legal.lenl_lt {s : State} (h : s.Legal) (u : UnitId) : (s.unit u).lenl < 2 ^ 64 := by
  obtain ⟨-, -, -, -, hcursor, -⟩ := legal_iff.1 (h.unit u)
  exact (cursorLegal_iff.1 hcursor).2

end Sys2Proof.Machine

namespace Sys2Proof

open Sys2Proof.Machine

/-- Settles O45: `UPC` is at most the size of the schedule, which is below `2^63`. -/
theorem uopCounterNeverWraps : Obligations.UopCounterNeverWraps := by
  intro s u hrun hb
  have hsched := hrun.onSchedule u
  obtain ⟨hlegal, -⟩ := hrun
  have hlen := hlegal.lenl_lt u
  obtain ⟨hc, -⟩ := hlegal
  calc (s.unit u).upc ≤ scheduleSize u s.cfg (s.unit u).lenl := onSchedule_upc_le hc hb hsched
    _ < 2 ^ 63 := scheduleSize_lt u hc hlen

end Sys2Proof
end

section
/-! SUPPORT. The message a unit reads under each operation on the unit, then both messages under each move, and the
obligation O47. -/

namespace Sys2Proof.Machine

/-! No operation on a unit writes its message. -/

theorem WritesLanes.msg {c : Config} {x y : UnitState} (w : WritesLanes c x y) : y.msg = x.msg := by rw [w.frame]

theorem effectOf_done_msg {i : Instr} {c : Config} {x y : UnitState} (h : effectOf i c x = .done y) :
    y.msg = x.msg := by
  rcases effectOf_eq_done h with w | ⟨ls, -, rfl⟩
  · exact w.msg
  · rfl

theorem leaves_effectOf_msg (i : Instr) (c : Config) (x : UnitState) : ((effectOf i c x).leaves x).msg = x.msg := by
  cases he : effectOf i c x with
  | done y =>
    show y.msg = x.msg
    exact effectOf_done_msg he
  | fault k => exact flagsFaulted_msg k x
  | wait => rfl

theorem wordLeaves_msg (w : BitVec 16) (c : Config) (x : UnitState) : (wordLeaves w c x).msg = x.msg := by
  cases hw : decodeWord w with
  | ok i => rw [wordLeaves_of_ok hw, leaves_effectOf_msg]
  | error e => rw [wordLeaves_of_error hw, flagsFaulted_msg]

theorem advanced_msg (q : SeqRegs) (x y : UnitState) : (advanced q x y).msg = y.msg := by
  unfold advanced
  split <;> rfl

/-! No operation on the state but a presented byte writes a message. -/

/-- Both units of `t` read the messages that those of `s` read (20_memory R50). -/
def SameMessages (s t : State) : Prop := ∀ u, (t.unit u).msg = (s.unit u).msg

namespace SameMessages

theorem unchanged {s t : State} (h : SameMessages s t) : MessagesUnchanged s t := fun u a => by rw [h u]

theorem refl (s : State) : SameMessages s s := fun _ => rfl

theorem trans {a b c : State} (h : SameMessages a b) (h' : SameMessages b c) : SameMessages a c :=
  fun u => (h' u).trans (h u)

theorem setUnit {s : State} {u : UnitId} {x : UnitState} (hx : x.msg = (s.unit u).msg) :
    SameMessages s (s.setUnit u x) := by
  intro v
  by_cases hv : v = u
  · rw [hv, unit_setUnit, hx]
  · rw [unit_setUnit_of_ne s x hv]

/-- The fields beside the two units play no part. -/
theorem of_units {s t : State} (hopt : t.opt = s.opt) (href : t.ref = s.ref) : SameMessages s t
  | .opt => congrArg UnitState.msg hopt
  | .ref => congrArg UnitState.msg href

theorem setActive_setUnit {s : State} {v u : UnitId} {x : UnitState} (hx : x.msg = (s.unit u).msg) :
    SameMessages s (({ s with active := v } : State).setUnit u x) :=
  trans (b := { s with active := v }) (of_units rfl rfl) (setUnit (by rw [unit_active, hx]))

theorem raise (s : State) (u : UnitId) (k : Cause) : SameMessages s (s.raise u k) := setUnit (flagsFaulted_msg ..)

theorem start (s : State) (u : UnitId) : SameMessages s (s.start u) := by
  rcases start_cases s u with ⟨-, he⟩ | ⟨-, -, he⟩ | ⟨-, -, he⟩ <;> rw [he]
  · exact refl s
  · exact raise s u _
  · exact setUnit rfl

theorem ctrlWrite {v : BitVec 32} {s t : State} (h : ctrlWrite v s = .next t) : SameMessages s t := by
  rcases ctrlWrite_cases v s with he | he | he | he <;> rw [he] at h <;> cases h
  · exact refl s
  · exact start s .opt
  · exact (start s .opt).trans (start _ .ref)
  · exact start s .ref

theorem regWrite {off : BitVec 7} {v : BitVec 32} {s t : State} (h : regWrite off v s = .next t) :
    SameMessages s t := by
  rcases regWrite_eq_next h with hc | rfl | rfl | rfl
  · exact ctrlWrite hc
  all_goals exact of_units rfl rfl

theorem regRead {off : BitVec 7} {s t : State} (h : regRead off s = .next t) : SameMessages s t := by
  obtain ⟨v, n, rfl⟩ := regRead_eq_next h
  exact of_units rfl rfl

theorem handWord {u : UnitId} {w : BitVec 16} {s t : State} (h : handWord u w s = .next t) : SameMessages s t := by
  rw [handWord_eq_wordLeaves] at h
  cases h
  exact setActive_setUnit (wordLeaves_msg ..)

theorem sequencerStep {u : UnitId} {s t : State} (h : sequencerStep u s = .next t) : SameMessages s t := by
  rcases sequencerStep_cases u s with ⟨-, he⟩ | ⟨-, k, -, he⟩ | ⟨-, -, he⟩ | ⟨hb, i, q, hi, -⟩
  case inr.inr.inr =>
    rw [sequencerStep_of_uop hb hi] at h
    cases h
    exact setActive_setUnit ((advanced_msg ..).trans (wordLeaves_msg ..))
  all_goals rw [he] at h; cases h
  · exact refl s
  · exact raise s u _

/-- Reset keeps what the host presents (log 12). -/
theorem resetNow (s : State) : SameMessages s s.resetNow
  | .opt => rfl
  | .ref => rfl

/-- Every move but a presented byte keeps both messages (20_memory R51, R52). -/
theorem act {m : Move} {s t : State} (hp : ∀ u off b, m ≠ .place u off b) (h : act m s = .next t) :
    SameMessages s t := by
  cases m with
  | place u off b => exact absurd rfl (hp u off b)
  | regWrite off v => exact regWrite h
  | regRead off => exact regRead h
  | sequence u => exact sequencerStep h
  | hand u w =>
    simp only [Machine.act] at h
    split at h
    · exact handWord h
    · cases h; exact refl _
  | reset => cases h; exact resetNow s

theorem onItsOwn {s t : State} (h : onItsOwn s = .next t) : SameMessages s t := by
  rcases onItsOwn_eq_next h with rfl | ⟨u, n, hu⟩
  · exact refl t
  · exact trans (b := { s with draws := n }) (of_units rfl rfl) (sequencerStep hu)

end SameMessages

end Sys2Proof.Machine

namespace Sys2Proof

open Sys2Proof.Machine

/-- Settles O47: a step is the first pending move or a busy unit's own step, and each but a presented byte keeps both
messages whole. -/
theorem hardwareNeverWritesTheMessage : Obligations.HardwareNeverWritesTheMessage := by
  intro s t h hp
  cases hm : s.moves with
  | nil => exact (SameMessages.onItsOwn (step_nil hm ▸ h)).unchanged
  | cons m rest =>
    simp only [hm, List.head?_cons, ne_eq, Option.some.injEq] at hp
    have same := SameMessages.act hp (step_cons hm ▸ h)
    exact ((SameMessages.of_units rfl rfl).trans same).unchanged

end Sys2Proof
end

section
/-! SUPPORT. A word's fields as numbers, what each format accepts, and the decoder and the encoder as each other's
inverse: the obligations O1, O2 and O3. -/

namespace Sys2Proof

/-! The fields of a micro-operation word (30_encoding R70). -/

theorem opField_toNat (w : BitVec 16) : (opField w).toNat = w.toNat / 4096 := by
  have := w.isLt
  simp only [opField, BitVec.extractLsb'_toNat, Nat.shiftRight_eq_div_pow]
  omega

theorem restField_toNat (w : BitVec 16) : (restField w).toNat = w.toNat % 4096 := by simp [restField]

theorem laneField_toNat (w : BitVec 16) : (laneField w).toNat = w.toNat % 4096 / 64 := by
  simp only [laneField, BitVec.extractLsb'_toNat, Nat.shiftRight_eq_div_pow]
  omega

theorem cntField_toNat (w : BitVec 16) : (cntField w).toNat = w.toNat % 64 := by simp [cntField]

theorem laneField_cntField_eq_iff {w : BitVec 16} {lane cnt : BitVec 6} :
    laneField w = lane ∧ cntField w = cnt ↔ w.toNat % 4096 = lane.toNat * 64 + cnt.toNat := by
  have hcnt := cnt.isLt
  rw [← BitVec.toNat_inj, ← BitVec.toNat_inj, laneField_toNat, cntField_toNat]
  omega

theorem restField_eq_iff {w : BitVec 16} {rest : BitVec 12} : restField w = rest ↔ w.toNat % 4096 = rest.toNat := by
  rw [← BitVec.toNat_inj, restField_toNat]

/-- A number is the code of its opcode, lane and count (R76). -/
theorem uopCode_eq_iff {op n : Nat} {lane cnt : BitVec 6} :
    uopCode op lane cnt = n ↔ n / 4096 = op ∧ n % 4096 = lane.toNat * 64 + cnt.toNat := by
  have hlane := lane.isLt
  have hcnt := cnt.isLt
  unfold uopCode
  omega

/-- A number is an opcode's base and twelve bits. -/
theorem base_add_rest_eq_iff {base n : Nat} {rest : BitVec 12} (hbase : base % 4096 = 0) :
    base + rest.toNat = n ↔ n / 4096 = base / 4096 ∧ n % 4096 = rest.toNat := by
  have := rest.isLt
  omega

/-! The fields of a `CTRL` word (R78). -/

theorem startOptBit_iff (v : BitVec 32) : v.getLsbD 0 = true ↔ v.toNat % 2 = 1 := by
  simp [BitVec.getLsbD, Nat.testBit_zero]

theorem startRefBit_iff (v : BitVec 32) : v.getLsbD 1 = true ↔ v.toNat / 2 % 2 = 1 := by
  simp [BitVec.getLsbD, Nat.testBit_eq_decide_div_mod_eq]

theorem ignoredBits_toNat (v : BitVec 32) : (v.extractLsb' 2 30).toNat = v.toNat / 4 := by
  have := v.isLt
  simp only [BitVec.extractLsb'_toNat, Nat.shiftRight_eq_div_pow]
  omega

theorem ignoredBits_eq_iff {v : BitVec 32} {ignored : BitVec 30} :
    v.extractLsb' 2 30 = ignored ↔ v.toNat / 4 = ignored.toNat := by
  rw [← BitVec.toNat_inj, ignoredBits_toNat]

/-! What each format accepts (R71). -/

theorem decodeU0_eq_ok {w : BitVec 16} {i j : Instr} :
    decodeU0 w i = .ok j ↔ w.toNat % 4096 = 0 ∧ i = j := by
  have hzero : restField w = 0#12 ↔ w.toNat % 4096 = 0 := restField_eq_iff
  unfold decodeU0
  split <;> simp_all

theorem decodeUL_eq_ok {w : BitVec 16} {f : BitVec 6 → Instr} {j : Instr} :
    decodeUL w f = .ok j ↔ ∃ lane : BitVec 6, w.toNat % 4096 = lane.toNat * 64 + 1 ∧ f lane = j := by
  have hfields (lane : BitVec 6) : laneField w = lane ∧ cntField w = 1#6 ↔ w.toNat % 4096 = lane.toNat * 64 + 1 :=
    laneField_cntField_eq_iff
  unfold decodeUL
  split <;> simp_all [← hfields]

theorem decodeULC_eq_ok {w : BitVec 16} {f : BitVec 6 → BitVec 6 → Instr} {j : Instr} :
    decodeULC w f = .ok j ↔
      ∃ lane cnt : BitVec 6, cnt ≠ 0#6 ∧ w.toNat % 4096 = lane.toNat * 64 + cnt.toNat ∧ f lane cnt = j := by
  simp only [← laneField_cntField_eq_iff]
  unfold decodeULC
  split
  case isTrue hzero => simp +contextual [hzero, eq_comm]
  case isFalse hcnt => simp [hcnt]

/-! The decoder and the encoder are each other's inverse. -/

/-- A decoded word is the code of a well-formed instruction, whatever the opcode: U0, UL, ULC, or illegal (R76, R77).
Case `h_1` is opcode `0x0`, and so on to `h_16`, which is `0xF`. -/
theorem encode_of_decodeWord {w : BitVec 16} {i : Instr} (h : decodeWord w = .ok i) :
    i.wellFormed = true ∧ encode i = w.toNat := by
  have hop := opField_toNat w
  have hlt := w.isLt
  unfold decodeWord at h
  split at h
  case h_2 | h_9 | h_10 | h_11 =>
    obtain ⟨hrest, rfl⟩ := decodeU0_eq_ok.1 h
    exact ⟨rfl, uopCode_eq_iff.2 ⟨by omega, by simpa using hrest⟩⟩
  case h_4 =>
    obtain ⟨lane, hrest, rfl⟩ := decodeUL_eq_ok.1 h
    exact ⟨rfl, uopCode_eq_iff.2 ⟨by omega, hrest⟩⟩
  case h_3 | h_5 | h_6 | h_7 | h_8 =>
    obtain ⟨lane, cnt, hcnt, hrest, rfl⟩ := decodeULC_eq_ok.1 h
    exact ⟨by simpa [Instr.wellFormed] using hcnt, uopCode_eq_iff.2 ⟨by omega, hrest⟩⟩
  case h_1 | h_12 | h_13 | h_14 | h_15 | h_16 =>
    cases h
    have hrest := restField_toNat w
    simp only [Instr.wellFormed, encode, true_and]
    grind

/-- A word with the code of a well-formed micro-operation decodes to it. -/
theorem decodeWord_of_encode {w : BitVec 16} {i : Instr} (hwf : i.wellFormed = true) (hbits : i.nbits = 16)
    (h : encode i = w.toNat) : decodeWord w = .ok i := by
  have hop := opField_toNat w
  cases i with
  | startOpt | startRef => exact absurd hbits (show ¬32 = 16 by decide)
  | ldseed | fold | lenx | out =>
    obtain ⟨hcode, hrest⟩ := uopCode_eq_iff.1 h
    rw [hcode] at hop
    simp only [decodeWord, hop]
    exact decodeU0_eq_ok.2 ⟨by simpa using hrest, rfl⟩
  | xorp lane =>
    obtain ⟨hcode, hrest⟩ := uopCode_eq_iff.1 h
    rw [hcode] at hop
    simp only [decodeWord, hop]
    exact decodeUL_eq_ok.2 ⟨lane, hrest, rfl⟩
  | xord lane cnt | rndf lane cnt | rndz lane cnt | rndd lane cnt | rndk lane cnt =>
    obtain ⟨hcode, hrest⟩ := uopCode_eq_iff.1 h
    have hcnt : cnt ≠ 0#6 := by simpa [Instr.wellFormed] using hwf
    rw [hcode] at hop
    simp only [decodeWord, hop]
    exact decodeULC_eq_ok.2 ⟨lane, cnt, hcnt, hrest, rfl⟩
  | illegalOp0 rest =>
    obtain ⟨hcode, hrest⟩ := (base_add_rest_eq_iff (by decide)).1 ((Nat.zero_add _).trans h)
    rw [hcode] at hop
    simp only [decodeWord, hop, Nat.reduceDiv, restField_eq_iff.2 hrest]
  | reservedOpB rest | reservedOpC rest | reservedOpD rest | reservedOpE rest | reservedOpF rest =>
    obtain ⟨hcode, hrest⟩ := (base_add_rest_eq_iff (by decide)).1 h
    rw [hcode] at hop
    simp only [decodeWord, hop, Nat.reduceDiv, restField_eq_iff.2 hrest]

/-- A decoded `CTRL` word is the code of a host command (R78). -/
theorem encode_of_decodeCommand {v : BitVec 32} {i : Instr} (h : decodeCommand v = .ok i) :
    i.wellFormed = true ∧ i.nbits = 32 ∧ encode i = v.toNat := by
  have hopt := startOptBit_iff v
  have href := startRefBit_iff v
  have hignored := ignoredBits_toNat v
  unfold decodeCommand at h
  split at h
  case isTrue hbit =>
    cases h
    refine ⟨rfl, rfl, ?_⟩
    simp only [encode]
    split <;> grind
  case isFalse hbit =>
    split at h
    case isTrue hbit' =>
      cases h
      refine ⟨rfl, rfl, ?_⟩
      simp only [encode]
      grind
    case isFalse => cases h

/-- A `CTRL` word with the code of a host command decodes to it. -/
theorem decodeCommand_of_encode {v : BitVec 32} {i : Instr} (hbits : i.nbits = 32) (h : encode i = v.toNat) :
    decodeCommand v = .ok i := by
  have hopt := startOptBit_iff v
  have href := startRefBit_iff v
  cases i with
  | startOpt withRef ignored =>
    have hignored : v.extractLsb' 2 30 = ignored := ignoredBits_eq_iff.2 (by grind [encode])
    have hbit : v.getLsbD 0 = true := by grind [encode]
    have hbit' : v.getLsbD 1 = withRef := by grind [encode]
    simp only [decodeCommand, hbit, hbit', hignored, if_true]
  | startRef ignored =>
    have hignored : v.extractLsb' 2 30 = ignored := ignoredBits_eq_iff.2 (by grind [encode])
    have hbit : v.getLsbD 0 = false := by grind [encode]
    have hbit' : v.getLsbD 1 = true := by grind [encode]
    simp only [decodeCommand, hbit, hbit', hignored, Bool.false_eq_true, if_false, if_true]
  | _ => exact absurd hbits (show ¬16 = 32 by decide)

theorem nbits_eq (i : Instr) : i.nbits = 16 ∨ i.nbits = 32 := by cases i <;> simp [Instr.nbits]

/-- Every instruction's code fits its word, by the lemma of its constructor. -/
theorem encode_lt (i : Instr) : encode i < 2 ^ i.nbits := by
  cases i with
  | ldseed => exact Laws.EncodingFits.ldseed
  | xord lane cnt => exact Laws.EncodingFits.xord lane cnt
  | xorp lane => exact Laws.EncodingFits.xorp lane
  | rndf lane cnt => exact Laws.EncodingFits.rndf lane cnt
  | rndz lane cnt => exact Laws.EncodingFits.rndz lane cnt
  | rndd lane cnt => exact Laws.EncodingFits.rndd lane cnt
  | rndk lane cnt => exact Laws.EncodingFits.rndk lane cnt
  | fold => exact Laws.EncodingFits.fold
  | lenx => exact Laws.EncodingFits.lenx
  | out => exact Laws.EncodingFits.out
  | illegalOp0 rest => exact Laws.EncodingFits.illegalOp0 rest
  | reservedOpB rest => exact Laws.EncodingFits.reservedOpB rest
  | reservedOpC rest => exact Laws.EncodingFits.reservedOpC rest
  | reservedOpD rest => exact Laws.EncodingFits.reservedOpD rest
  | reservedOpE rest => exact Laws.EncodingFits.reservedOpE rest
  | reservedOpF rest => exact Laws.EncodingFits.reservedOpF rest
  | startOpt withRef ignored => exact Laws.EncodingFits.startOpt withRef ignored
  | startRef ignored => exact Laws.EncodingFits.startRef ignored

/-- An instruction's code is the number its word holds. -/
theorem toNat_ofNat_encode {n : Nat} {i : Instr} (hbits : i.nbits = n) : (BitVec.ofNat n (encode i)).toNat = encode i :=
  Nat.mod_eq_of_lt (hbits ▸ encode_lt i)

/-- The word a sequencer sends its datapath decodes to the micro-operation it issued. -/
theorem decodeWord_uopWord {i : Instr} (hwf : i.wellFormed = true) (hbits : i.nbits = 16) :
    decodeWord (uopWord i) = .ok i :=
  decodeWord_of_encode hwf hbits (toNat_ofNat_encode hbits).symm

/-- Settles O1: an instruction's code fits its word, and a word of either width with that code decodes to it. -/
theorem decodeOfEncodeIsTheInstruction : Obligations.DecodeOfEncodeIsTheInstruction := by
  intro i hwf
  rcases nbits_eq i with hbits | hbits
  · have hdecode : decodeWord (BitVec.ofNat 16 (encode i)) = .ok i := decodeWord_uopWord hwf hbits
    simp [decodeTableWord, hbits, hdecode, Except.toOption]
  · have hdecode : decodeCommand (BitVec.ofNat 32 (encode i)) = .ok i :=
      decodeCommand_of_encode hbits (toNat_ofNat_encode hbits).symm
    simp [decodeTableWord, hbits, hdecode, Except.toOption]

/-- Settles O2: what a word decodes to has the word as its code. -/
theorem encodeOfDecodeIsTheWord : Obligations.EncodeOfDecodeIsTheWord := by
  refine ⟨fun w i h => ?_, fun v i h => encode_of_decodeCommand h⟩
  obtain ⟨hwf, hcode⟩ := encode_of_decodeWord h
  exact ⟨hwf, Machine.nbits_of_decodeWord h, by rw [uopWord, hcode, BitVec.ofNat_toNat, BitVec.setWidth_eq]⟩

/-- Settles O3: the table's words, decoded. -/
theorem listedWordsDecodeAsListed : Obligations.ListedWordsDecodeAsListed := by
  unfold Obligations.ListedWordsDecodeAsListed
  decide

end Sys2Proof
end

section
/-! SUPPORT. The words of the illegal and reserved opcodes as one effect, and the obligation O24. -/

namespace Sys2Proof.Machine

/-- The effect of an illegal word faults on every unit (30_encoding R77). -/
theorem perform_illegalEffect (s : State) : s.perform illegalEffect = .next (s.raise s.active .illegalUop) :=
  perform_fault rfl

end Sys2Proof.Machine

namespace Sys2Proof

open Sys2Proof.Machine

/-- Settles O24: each of the six opcodes has the illegal effect. -/
theorem illegalOpcodesTakeIllegalUop : Obligations.IllegalOpcodesTakeIllegalUop := by
  rintro s rest i (rfl | rfl | rfl | rfl | rfl | rfl)
  all_goals exact perform_illegalEffect s

end Sys2Proof
end

section
/-! SUPPORT. Every micro-operation of a schedule is legal on its configuration, block by block, and the obligation O52. -/

namespace Sys2Proof.Machine

/-- A micro-operation that is legal for some lane count has a word (30_encoding R76, R77). -/
theorem wellFormed_of_legalUop {L : Nat} {i : Instr} (h : i.legalUop L = true) : i.wellFormed = true := by
  cases i with
  | xord lane cnt | rndf lane cnt | rndz lane cnt | rndd lane cnt | rndk lane cnt => exact (Bool.and_eq_true_iff.1 h).1
  | startOpt | startRef | xorp | ldseed | fold | lenx | out => rfl
  | illegalOp0 | reservedOpB | reservedOpC | reservedOpD | reservedOpE | reservedOpF => rfl

/-! Fields (30_encoding R70). -/

theorem field_toNat {n : Nat} (h : n < 64) : (field n).toNat = n := Nat.mod_eq_of_lt h

/-- A non-empty range of the lanes fits the fields of a word (R71, and the bound of 00_scope R6). -/
theorem rangeLegal_field {L lane cnt : Nat} (hL : L ≤ 63) (hcnt : 1 ≤ cnt) (h : lane + cnt ≤ L) :
    rangeLegal L (field lane) (field cnt) = true := by
  have hlane : (field lane).toNat = lane := field_toNat (by omega)
  have hcount : (field cnt).toNat = cnt := field_toNat (by omega)
  have hne : field cnt ≠ 0#6 := by
    intro hzero
    rw [hzero, BitVec.toNat_zero] at hcount
    omega
  simp [rangeLegal, hne, hlane, hcount, h]

/-! The pseudo-operations (30_encoding R80). -/

/-- Every micro-operation of the list is legal with `L` lanes (R77). -/
def AllLegal (L : Nat) (is : List Instr) : Prop := ∀ i ∈ is, i.legalUop L = true

section
variable {L lane cnt : Nat}

theorem absorbOps_legal (hL : L ≤ 63) (hcnt : 1 ≤ cnt) (h : lane + cnt ≤ L) : AllLegal L (absorbOps lane cnt) := by
  simp [AllLegal, absorbOps, Instr.legalUop, rangeLegal_field hL hcnt h]

theorem mixDataOps_legal (hL : L ≤ 63) (hcnt : 1 ≤ cnt) (h : lane + cnt ≤ L) : AllLegal L (mixDataOps lane cnt) := by
  simp [AllLegal, mixDataOps, Instr.legalUop, rangeLegal_field hL hcnt h]

theorem mixZeroOps_legal (hL : L ≤ 63) (hcnt : 1 ≤ cnt) (h : lane + cnt ≤ L) : AllLegal L (mixZeroOps lane cnt) := by
  simp [AllLegal, mixZeroOps, Instr.legalUop, rangeLegal_field hL hcnt h]

theorem absorbPartOps_legal (hL : L ≤ 63) (h : lane < L) : AllLegal L (absorbPartOps lane) := by
  have hrange : rangeLegal L (field lane) 1#6 = true := rangeLegal_field hL (le_refl 1) h
  have hlane : (field lane).toNat = lane := field_toNat (by omega)
  simp [AllLegal, absorbPartOps, Instr.legalUop, hrange, hlane, h]

theorem finalOps_legal (hL1 : 1 ≤ L) (hL : L ≤ 63) : AllLegal L finalOps := by
  have hrange : rangeLegal L 0#6 1#6 = true := rangeLegal_field (lane := 0) hL (le_refl 1) (by omega)
  simp [AllLegal, finalOps, Instr.legalUop, hrange]

end

/-! Lists put together. -/

namespace AllLegal

theorem nil (L : Nat) : AllLegal L [] := by simp [AllLegal]

theorem append {L : Nat} {is js : List Instr} (hi : AllLegal L is) (hj : AllLegal L js) : AllLegal L (is ++ js) :=
  fun i h => (List.mem_append.1 h).elim (hi i) (hj i)

theorem flatMap_range {L n : Nat} {f : Nat → List Instr} (h : ∀ k < n, AllLegal L (f k)) :
    AllLegal L ((List.range n).flatMap f) := by
  intro i hi
  obtain ⟨k, hk, hik⟩ := List.mem_flatMap.1 hi
  exact h k (List.mem_range.1 hk) i hik

end AllLegal

/-! The stages (43_sequencer_optimized R133 to R143, 44_reference_absorber R160). -/

/-- Of the blocks of `G` lanes that fit `n`, each ends within `n`. -/
theorem block_le {k n G : Nat} (h : k < n / G) : k * G + G ≤ n :=
  calc k * G + G = (k + 1) * G := (Nat.succ_mul ..).symm
    _ ≤ n / G * G := Nat.mul_le_mul_right _ h
    _ ≤ n := Nat.div_mul_le_self ..

theorem bulkOps_legal {c : Config} (hc : c.Valid) (lenl : Nat) : AllLegal c.L (bulkOps c lenl) := by
  obtain ⟨-, hL, hG, -⟩ := hc
  have hblock : ∀ g < groups c, g * c.G + c.G ≤ c.L := fun g hg => block_le hg
  unfold bulkOps
  split
  case isTrue =>
    refine .append (.append ?load ?passes) ?post
    case load =>
      intro i hi
      obtain ⟨g, hg, rfl⟩ := List.mem_map.1 hi
      exact rangeLegal_field hL hG (hblock g (List.mem_range.1 hg))
    case passes => exact .flatMap_range fun _ _ => .flatMap_range fun g hg => mixDataOps_legal hL hG (hblock g hg)
    case post => exact .flatMap_range fun g hg => mixZeroOps_legal hL hG (hblock g hg)
  case isFalse => exact .nil _

theorem tailOps_legal {c : Config} (hc : c.Valid) (lenl : Nat) : AllLegal c.L (tailOps c lenl) := by
  obtain ⟨hL1, hL, hG, -⟩ := hc
  have hntc : ntc c lenl < c.L := ntc_lt hL1 lenl
  have hsplit : ntc c lenl / c.G * c.G + ntc c lenl % c.G = ntc c lenl := Nat.div_add_mod' ..
  refine .append (.append ?groups ?singles) ?part
  case groups => exact .flatMap_range fun j hj => absorbOps_legal hL hG ((block_le hj).trans hntc.le)
  case singles => exact .flatMap_range fun j hj => absorbOps_legal hL (le_refl 1) (by omega)
  case part =>
    split
    · exact absorbPartOps_legal hL hntc
    · exact .nil _

/-- A chunk goes to the lane of its number modulo `L` (R162). -/
theorem chunkOps_legal {c : Config} (hc : c.Valid) (lenl k : Nat) : AllLegal c.L (chunkOps c lenl k) := by
  obtain ⟨hL1, hL, -⟩ := hc
  have hlane : k % c.L < c.L := Nat.mod_lt _ hL1
  unfold chunkOps
  split
  · exact absorbPartOps_legal hL hlane
  · exact absorbOps_legal hL (le_refl 1) hlane

theorem ldseed_legal (L : Nat) : AllLegal L [.ldseed] := by simp [AllLegal, Instr.legalUop]

theorem schedule_legal (u : UnitId) {c : Config} (hc : c.Valid) (lenl : Nat) : AllLegal c.L (schedule u c lenl) := by
  have hfinal : AllLegal c.L finalOps := by
    obtain ⟨hL1, hL, -⟩ := hc
    exact finalOps_legal hL1 hL
  cases u with
  | opt => exact (((ldseed_legal _).append (bulkOps_legal hc lenl)).append (tailOps_legal hc lenl)).append hfinal
  | ref => exact ((ldseed_legal _).append (.flatMap_range fun k _ => chunkOps_legal hc lenl k)).append hfinal

theorem schedule_head? (u : UnitId) (c : Config) (lenl : Nat) : (schedule u c lenl).head? = some .ldseed := by
  cases u <;> rfl

end Sys2Proof.Machine

namespace Sys2Proof

open Sys2Proof.Machine

/-- Settles O52: every block of a schedule names a non-empty range of the lanes that exist. -/
theorem schedulesHoldLegalMicroOperations : Obligations.SchedulesHoldLegalMicroOperations := by
  intro u c lenl hc
  refine ⟨schedule_head? u c lenl, fun i hi => ?_⟩
  have hlegal : i.legalUop c.L = true := schedule_legal u hc lenl i hi
  exact ⟨wellFormed_of_legalUop hlegal, hlegal⟩

end Sys2Proof
end

section
/-! SUPPORT. The substitution table as a field inverse and an affine map, and the obligation O14. -/

namespace Sys2Proof.Machine

/-- The affine map of the substitution table has order four, so its third iterate undoes it (40_aes_round_ops R93). -/
theorem sboxAffine_four_times : ∀ b : Byte, sboxAffine (sboxAffine (sboxAffine (sboxAffine b))) = b := by
  decide +kernel

/-- The inverse of a byte in GF(2^8) that the substitution table holds: its entry with the affine map undone (R93). -/
def tableInverse (a : Byte) : Byte := sboxAffine (sboxAffine (sboxAffine (sbox a)))

theorem sbox_eq_sboxAffine (a : Byte) : sbox a = sboxAffine (tableInverse a) := (sboxAffine_four_times _).symm

theorem tableInverse_zero : tableInverse 0 = 0 := by decide +kernel

/-- What the table's bytes before the affine map are: inverses in GF(2^8). -/
theorem gfMul_tableInverse : ∀ a : Byte, a ≠ 0 → gfMul a (tableInverse a) = 1 := by decide +kernel

theorem tableInverse_involutive : Function.Involutive tableInverse :=
  show ∀ a : Byte, tableInverse (tableInverse a) = a by decide +kernel

/-- Undoing the affine map and taking the inverse once more gives the substituted byte back. -/
theorem sbox_injective : Function.Injective sbox := fun a b h =>
  tableInverse_involutive.injective <| by rw [tableInverse, tableInverse, h]

end Sys2Proof.Machine

namespace Sys2Proof

open Sys2Proof.Machine

/-- Settles O14, with the byte the table's entry is the affine image of as the inverse. -/
theorem substitutionTableIsAffineOfInverse : Obligations.SubstitutionTableIsAffineOfInverse := by
  refine ⟨?_, fun a ha => ⟨tableInverse a, gfMul_tableInverse a ha, sbox_eq_sboxAffine a⟩⟩
  rw [sbox_eq_sboxAffine, tableInverse_zero]

end Sys2Proof
end

section
/-! SUPPORT. The bytes after each step of the AES round, the round as a bijection, and the obligations O13, O15 and O16. -/

namespace Sys2Proof.Machine

/-! Substitution and row shift (40_aes_round_ops R93, R94). -/

theorem byteAt_subBytes (v : Byte16) {j : Nat} (hj : j < 16) : byteAt (subBytes v) j = sbox (byteAt v j) := by
  rw [subBytes, byteAt_zext16 _ _ hj]
  simp [List.getD_eq_getElem?_getD, hj]

theorem byteAt_shiftRows (v : Byte16) {j : Nat} (hj : j < 16) :
    byteAt (shiftRows v) j = byteAt v (shiftIndex.getD j 0) := by
  rw [shiftRows, byteAt_zext16 _ _ hj]
  have hlen : j < shiftIndex.length := hj
  simp [List.getD_eq_getElem?_getD, hlen]

/-- Every byte position is the source of some position of the row shift. -/
theorem exists_shiftIndex : ∀ i, i < 16 → ∃ j, j < 16 ∧ shiftIndex.getD j 0 = i := by decide

theorem subBytes_injective : Function.Injective subBytes := fun v w h =>
  eq_of_byteAt_eq fun j hj => sbox_injective <| by rw [← byteAt_subBytes v hj, ← byteAt_subBytes w hj, h]

theorem shiftRows_injective : Function.Injective shiftRows := fun v w h =>
  eq_of_byteAt_eq fun i hi => by
    obtain ⟨j, hj, rfl⟩ := exists_shiftIndex i hi
    rw [← byteAt_shiftRows v hj, ← byteAt_shiftRows w hj, h]

/-! The column mix (R95). -/

theorem byte_xor_left_comm (a b c : Byte) : a ^^^ (b ^^^ c) = b ^^^ (a ^^^ c) := by ac_rfl

theorem byte_xor_cancel_left (a b : Byte) : a ^^^ (a ^^^ b) = b := by simp

theorem mul2_eq_xor (a : Byte) : mul2 a = a <<< 1 ^^^ if a.msb then 0x1B#8 else 0#8 := by
  have hmsb : a.msb = !decide (a.toNat < 0x80) := by
    rw [BitVec.msb_eq_decide, ← decide_not]
    exact decide_eq_decide.2 Nat.not_lt.symm
  by_cases h : a.toNat < 0x80 <;> simp [mul2, hmsb, h]

/-- Doubling in GF(2^8) is additive. -/
theorem mul2_xor (a b : Byte) : mul2 (a ^^^ b) = mul2 a ^^^ mul2 b := by
  have reduction (p q : Bool) : (if p ^^ q then 0x1B#8 else 0#8) =
      (if p then 0x1B#8 else 0#8) ^^^ if q then 0x1B#8 else 0#8 := by cases p <;> cases q <;> rfl
  simp only [mul2_eq_xor, BitVec.shiftLeft_xor_distrib, BitVec.msb_xor, reduction]
  ac_rfl

/-- One byte of a mixed column, from the column's four bytes beginning with the one in its place (R95). -/
def mixByte (a b c d : Byte) : Byte := mul2 a ^^^ mul3 b ^^^ c ^^^ d

/-- The four rows of R95 are one row, rotated. -/
theorem mixColumn_eq (a0 a1 a2 a3 : Byte) : mixColumn a0 a1 a2 a3 =
    [mixByte a0 a1 a2 a3, mixByte a1 a2 a3 a0, mixByte a2 a3 a0 a1, mixByte a3 a0 a1 a2] := by
  simp only [mixColumn, mixByte, List.cons.injEq, and_true, true_and]
  refine ⟨?_, ?_, ?_⟩ <;> ac_rfl

/-- Mixing twice adds to each byte four times its sum with the byte two rows on. -/
theorem mixByte_mixByte (a b c d : Byte) :
    mixByte (mixByte a b c d) (mixByte b c d a) (mixByte c d a b) (mixByte d a b c) =
      a ^^^ mul2 (mul2 (a ^^^ c)) := by
  simp only [mixByte, mul3, mul2_xor, BitVec.xor_assoc, BitVec.xor_comm, byte_xor_left_comm, byte_xor_cancel_left]

/-- Twice more, and the sums cancel. -/
theorem xor_quadruple_twice (a c : Byte) :
    a ^^^ mul2 (mul2 (a ^^^ c)) ^^^
      mul2 (mul2 (a ^^^ mul2 (mul2 (a ^^^ c)) ^^^ (c ^^^ mul2 (mul2 (c ^^^ a))))) = a := by
  have hsum (m : Byte) : a ^^^ m ^^^ (c ^^^ m) = a ^^^ c := by
    rw [← byte_xor_cancel_left m (a ^^^ c)]
    ac_rfl
  rw [BitVec.xor_comm c a, hsum, BitVec.xor_assoc, BitVec.xor_self, BitVec.xor_zero]

/-- The byte `i` rows below byte `j`, in the same column (R92). -/
def below (i j : Nat) : Nat := j / 4 * 4 + (j + i) % 4

theorem below_lt {i j : Nat} (hj : j < 16) : below i j < 16 := by unfold below; omega

theorem below_below (i k j : Nat) : below i (below k j) = below ((k + i) % 4) j := by unfold below; omega

theorem below_zero (j : Nat) : below 0 j = j := by unfold below; omega

theorem byteAt_mixColumns (v : Byte16) {j : Nat} (hj : j < 16) : byteAt (mixColumns v) j =
    mixByte (byteAt v j) (byteAt v (below 1 j)) (byteAt v (below 2 j)) (byteAt v (below 3 j)) := by
  rw [mixColumns, byteAt_zext16 _ _ hj]
  simp only [mixColumn_eq]
  interval_cases j <;> rfl

/-- The column mix twice, byte by byte. -/
theorem byteAt_mixColumns_twice (v : Byte16) {j : Nat} (hj : j < 16) :
    byteAt (mixColumns (mixColumns v)) j = byteAt v j ^^^ mul2 (mul2 (byteAt v j ^^^ byteAt v (below 2 j))) := by
  simp only [byteAt_mixColumns _ hj, byteAt_mixColumns _ (below_lt hj), below_below, Nat.reduceAdd, Nat.reduceMod,
    below_zero, mixByte_mixByte]

/-- The column mix has order four (R91, R95). -/
theorem mixColumns_twice_involutive : Function.Involutive fun v => mixColumns (mixColumns v) := fun v =>
  eq_of_byteAt_eq fun j hj => by
    simp only [byteAt_mixColumns_twice _ hj, byteAt_mixColumns_twice _ (below_lt hj), below_below, Nat.reduceAdd,
      Nat.reduceMod, below_zero, xor_quadruple_twice]

theorem mixColumns_injective : Function.Injective mixColumns :=
  mixColumns_twice_involutive.injective.of_comp (f := mixColumns)

/-! The round (R91). -/

theorem aesr_injective (k : Byte16) : Function.Injective fun s => aesr s k := fun _ _ h =>
  subBytes_injective <| shiftRows_injective <| mixColumns_injective <| (BitVec.xor_left_inj k).1 h

/-- The key enters the round by the last exclusive or (R96, R97). -/
theorem aesr_eq_xor (s k : Byte16) : aesr s k = aesr s zero16 ^^^ k := by simp [aesr, addRoundKey]

end Sys2Proof.Machine

namespace Sys2Proof

open Sys2Proof.Machine

/-- Settles O13, by evaluating the round on the three examples. -/
theorem roundReproducesTheStandardsExamples : Obligations.RoundReproducesTheStandardsExamples := by
  refine ⟨?_, ?_, ?_⟩ <;> decide +kernel

/-- Settles O15. -/
theorem keyEntersByExclusiveOr : Obligations.KeyEntersByExclusiveOr := aesr_eq_xor

/-- Settles O16: each step of the round is injective, and there are finitely many values. -/
theorem roundIsABijection : Obligations.RoundIsABijection := fun k => (aesr_injective k).bijective_of_finite

end Sys2Proof
end

section
/-! SUPPORT. What the round micro-operations leave on the named lanes, and the obligations O11, O12 and O17. -/

namespace Sys2Proof.Machine

/-! The state after a micro-operation that writes its lanes and its cursor. -/

@[simp] theorem lanesWritten_cfg (s : State) (ls : List Byte16) (cur : Nat) :
    (s.lanesWritten ls cur).cfg = s.cfg := setUnit_cfg ..

@[simp] theorem lanesWritten_active (s : State) (ls : List Byte16) (cur : Nat) :
    (s.lanesWritten ls cur).active = s.active := setUnit_active ..

theorem lanesWritten_activeUnit (s : State) (ls : List Byte16) (cur : Nat) :
    (s.lanesWritten ls cur).unit (s.lanesWritten ls cur).active =
      { s.unit s.active with lanes := some ls, cur := cur, upc := (s.unit s.active).upc + 1 } := by
  rw [lanesWritten_active, State.lanesWritten, unit_setUnit]

/-- Of two such micro-operations the second's lanes and cursor stay, and `UPC` counts both. -/
theorem lanesWritten_lanesWritten (s : State) (ls ls' : List Byte16) (cur cur' : Nat) :
    (s.lanesWritten ls cur).lanesWritten ls' cur' = s.setUnit s.active
      { s.unit s.active with lanes := some ls', cur := cur', upc := (s.unit s.active).upc + 1 + 1 } := by
  rw [State.lanesWritten, lanesWritten_activeUnit, lanesWritten_active, State.lanesWritten, setUnit_setUnit]

theorem lanesWritten_messagesUnchanged (s : State) (ls : List Byte16) (cur : Nat) :
    MessagesUnchanged s (s.lanesWritten ls cur) :=
  (SameMessages.setUnit (u := s.active)
    (x := { s.unit s.active with lanes := some ls, cur := cur, upc := (s.unit s.active).upc + 1 }) rfl).unchanged

/-! A completed micro-operation. -/

/-- `UPC` counts the micro-operations that complete: a fault and a wait leave it (10_state R31). -/
theorem perform_completed {s t : State} {e : Config → UnitState → UopResult} (h : s.perform e = .next t)
    (hupc : (t.unit s.active).upc = (s.unit s.active).upc + 1) :
    ∃ x, e s.cfg (s.unit s.active) = .done x ∧ t = s.setUnit s.active { x with upc := x.upc + 1 } := by
  rcases perform_cases s e with ⟨x, he, hx⟩ | ⟨k, -, hk⟩ | ⟨-, hw⟩
  · rw [hx] at h
    cases h
    exact ⟨x, he, rfl⟩
  · rw [hk] at h
    cases h
    simp at hupc
  · rw [hw] at h
    cases h
    simp at hupc

/-- A fixed-key round on a legal range of lanes that hold values (R99). -/
theorem perform_fixedRound {key : Config → Nat → Byte16} {lane cnt : BitVec 6} {s : State} {ls : List Byte16}
    (hls : (s.unit s.active).lanes = some ls) (hrange : 1 ≤ cnt.toNat ∧ lane.toNat + cnt.toNat ≤ s.cfg.L) :
    s.perform (fixedRound key lane cnt) = .next (s.lanesWritten
      (onNamedLanes lane.toNat cnt.toNat (fun i v => aesr v (key s.cfg i)) ls) (s.unit s.active).cur) :=
  perform_done (fixedRound_eq_done.2 ⟨hrange, ls, hls, rfl⟩)

/-- A data micro-operation on a legal range of lanes that hold values, its chunks below `LENL` and delivered (R73). -/
theorem perform_takeChunks {f : Byte16 → Byte16 → Byte16} {lane cnt : BitVec 6} {s : State} {x : UnitState}
    {ls ds : List Byte16} (hx : s.unit s.active = x) (hls : x.lanes = some ls)
    (hrange : 1 ≤ cnt.toNat ∧ lane.toNat + cnt.toNat ≤ s.cfg.L) (hbound : x.cur + 16 * cnt.toNat ≤ x.lenl)
    (hds : chunksAt x.msg x.cur cnt.toNat = some ds) :
    s.perform (takeChunks f lane cnt) = .next (s.lanesWritten
      (onNamedLanes lane.toNat cnt.toNat (fun i v => f v (ds.getD (i - lane.toNat) zero16)) ls)
      (x.cur + 16 * cnt.toNat)) := by
  subst hx
  exact perform_done (takeChunks_eq_done.2 ⟨hrange, ls, hls, hbound, ds, hds, rfl⟩)

/-- A data micro-operation after one that has written its lanes and left its cursor. -/
theorem perform_takeChunks_of_lanesWritten {f : Byte16 → Byte16 → Byte16} {lane cnt : BitVec 6} {s : State}
    {ds : List Byte16} (ls : List Byte16) (hrange : 1 ≤ cnt.toNat ∧ lane.toNat + cnt.toNat ≤ s.cfg.L)
    (hbound : (s.unit s.active).cur + 16 * cnt.toNat ≤ (s.unit s.active).lenl)
    (hds : chunksAt (s.unit s.active).msg (s.unit s.active).cur cnt.toNat = some ds) :
    (s.lanesWritten ls (s.unit s.active).cur).perform (takeChunks f lane cnt) = .next (s.setUnit s.active
      { s.unit s.active with
        lanes := some (onNamedLanes lane.toNat cnt.toNat (fun i v => f v (ds.getD (i - lane.toNat) zero16)) ls)
        cur := (s.unit s.active).cur + 16 * cnt.toNat
        upc := (s.unit s.active).upc + 1 + 1 }) := by
  rw [perform_takeChunks (lanesWritten_activeUnit ..) rfl (by rwa [lanesWritten_cfg]) hbound hds,
    lanesWritten_lanesWritten]

/-- Two micro-operations that both answer a next state, one after the other. -/
theorem runUops_pair {i j : Instr} {s t r : State} (hi : exec i s = .next t) (hj : exec j t = .next r) :
    runUops [i, j] s = .next r := by simp only [runUops, hi, hj]

/-! The named lanes (30_encoding R72). -/

/-- Two operations on the same named lanes, one after the other, are one operation on them. -/
theorem onNamedLanes_onNamedLanes (lane cnt : Nat) (f g : Nat → Byte16 → Byte16) (ls : List Byte16) :
    onNamedLanes lane cnt g (onNamedLanes lane cnt f ls) = onNamedLanes lane cnt (fun i v => g i (f i v)) ls := by
  refine List.ext_getElem? fun i => ?_
  by_cases h : lane ≤ i ∧ i < lane + cnt
  · simp only [getElem?_onNamedLanes_named _ _ h, Option.map_map, Function.comp_def]
  · simp only [getElem?_onNamedLanes_other _ _ h]

/-- The template of the fixed-key rounds does what R99 says, whatever its key. -/
theorem roundsNamedLanes_of_exec {i : BitVec 6 → BitVec 6 → Instr} {key : Config → Nat → Byte16}
    (h : ∀ lane cnt s, exec (i lane cnt) s = s.perform (fixedRound key lane cnt)) : RoundsNamedLanes i key := by
  rintro s x ls lane cnt rfl hls hcnt hrange
  refine ⟨_, (h lane cnt s).trans (perform_fixedRound hls ⟨hcnt, hrange⟩), length_onNamedLanes .., ?_, ?_,
    lanesWritten_messagesUnchanged s _ _⟩
  · exact fun j hlo hhi => getElem?_onNamedLanes_named _ _ ⟨hlo, hhi⟩
  · exact fun j hj => getElem?_onNamedLanes_other _ _ (by omega)

end Sys2Proof.Machine

namespace Sys2Proof

open Sys2Proof.Machine

/-- Settles O11: the three fixed-key rounds are one template with three keys. -/
theorem fixedKeyRoundsRoundTheNamedLanes : Obligations.FixedKeyRoundsRoundTheNamedLanes :=
  ⟨roundsNamedLanes_of_exec fun _ _ _ => rfl, roundsNamedLanes_of_exec fun _ _ _ => rfl,
    roundsNamedLanes_of_exec fun _ _ _ => rfl⟩

/-- Settles O12: the `j`-th chunk read is the key of the `j`-th named lane. -/
theorem rnddKeysRoundsWithConsecutiveChunks : Obligations.RnddKeysRoundsWithConsecutiveChunks := by
  rintro s x ls lane cnt rfl hls hcnt hrange hbound hread
  obtain ⟨ds, hds⟩ := chunksAt_of_isSome hread
  obtain ⟨hlen, hchunk⟩ := chunksAt_eq_some.1 hds
  refine ⟨_, perform_takeChunks (f := fun v d => aesr v d) rfl hls ⟨hcnt, hrange⟩ hbound hds,
    length_onNamedLanes .., fun j hj => ?_, fun j hj => getElem?_onNamedLanes_other _ _ (by omega),
    lanesWritten_messagesUnchanged s _ _⟩
  have hkey : ds[j]? = some (ds.getD j zero16) := by simp [List.getD_eq_getElem?_getD, hlen, hj]
  refine ⟨ds.getD j zero16, chunkAt_eq_some ((hchunk j hj).trans hkey), ?_⟩
  rw [getElem?_onNamedLanes_named _ _ (by omega), Nat.add_sub_cancel_left]

/-- Settles O17: on each named lane the exclusive or with the chunk makes the zero-key round the round keyed with it. -/
theorem dataKeyedRoundIsZeroRoundThenXor : Obligations.DataKeyedRoundIsZeroRoundThenXor := by
  intro s t lane cnt hrndd hupc
  obtain ⟨y, hy, rfl⟩ := perform_completed (e := takeChunks (fun v d => aesr v d) lane cnt) hrndd hupc
  obtain ⟨hrange, ls, hls, hbound, ds, hds, rfl⟩ := takeChunks_eq_done.1 hy
  have hz : exec (.rndz lane cnt) s = _ := perform_fixedRound (key := fun _ _ => zero16) hls hrange
  have hx := perform_takeChunks_of_lanesWritten (f := fun v d => v ^^^ d)
    (onNamedLanes lane.toNat cnt.toNat (fun _ v => aesr v zero16) ls) hrange hbound hds
  simp only [onNamedLanes_onNamedLanes, ← aesr_eq_xor] at hx
  rw [runUops_pair (j := .xord lane cnt) hz hx, unit_setUnit, setUnit_setUnit]

end Sys2Proof
end

section
/-! SUPPORT. The chunks a data micro-operation reads and the seed table, and the obligations O7, O8 and O9. -/

namespace Sys2Proof.Machine

/-- Of `n` delivered chunks the `j`-th is the chunk at its own offset (30_encoding R73). -/
theorem chunkAt_of_chunksAt {m : Message} {off n j : Nat} {ds : List Byte16} (h : chunksAt m off n = some ds)
    (hj : j < n) : chunkAt m (off + 16 * j) = some (ds.getD j zero16) := by
  obtain ⟨hlen, hchunk⟩ := chunksAt_eq_some.1 h
  simp [hchunk j hj, List.getD_eq_getElem?_getD, hlen, hj]

/-- Reading the seed table lane by lane gives the table (10_state R25). -/
theorem map_seedAt_range {c : Config} (h : c.seed.length = c.L) : (List.range c.L).map (seedAt c) = c.seed :=
  List.ext_getElem (by simp [h]) fun i hi hi' => by simp [seedAt, hi']

theorem execLdseed_eq_lanesWritten (s : State) : execLdseed s =
    .next (s.lanesWritten ((List.range s.cfg.L).map (seedAt s.cfg)) (s.unit s.active).cur) :=
  perform_done (e := ldseedEffect) rfl

end Sys2Proof.Machine

namespace Sys2Proof

open Sys2Proof.Machine

/-- Settles O7: the lanes `LDSEED` writes are the seed table, which a valid configuration holds in full. -/
theorem ldseedLoadsTheSeedTable : Obligations.LdseedLoadsTheSeedTable := by
  rintro s ⟨-, -, -, -, -, hseed, -⟩
  have hrun : exec .ldseed s = _ := execLdseed_eq_lanesWritten s
  rw [map_seedAt_range hseed] at hrun
  exact ⟨hrun, lanesWritten_messagesUnchanged s _ _⟩

/-- Settles O8: the `j`-th chunk read goes into the `j`-th named lane, byte by byte. -/
theorem xordAbsorbsConsecutiveChunks : Obligations.XordAbsorbsConsecutiveChunks := by
  rintro s x ls lane cnt rfl hls hcnt hrange hbound hread
  obtain ⟨ds, hds⟩ := chunksAt_of_isSome hread
  refine ⟨_, perform_takeChunks (f := fun v d => v ^^^ d) rfl hls ⟨hcnt, hrange⟩ hbound hds,
    length_onNamedLanes .., fun j v hj hv => ⟨v ^^^ ds.getD j zero16, ?_, fun b hb => ?_⟩,
    fun j hj => getElem?_onNamedLanes_other _ _ (by omega), lanesWritten_messagesUnchanged s _ _⟩
  · rw [getElem?_onNamedLanes_named _ _ (by omega), hv, Nat.add_sub_cancel_left, Option.map_some]
  · rw [chunkAt_eq_some (chunkAt_of_chunksAt hds hj) b hb, byteAt_xor, Option.getD_some]

/-- Settles O9: the padded chunk holds the bytes from `CUR` up to `LENL`. -/
theorem xorpAbsorbsThePaddedChunk : Obligations.XorpAbsorbsThePaddedChunk := by
  rintro s x ls lane rfl hls hlane hlt hle hread
  obtain ⟨pad, hpad, hbytes⟩ := paddedChunkAt_spec (m := (s.unit s.active).msg) (off := (s.unit s.active).cur)
    (rem := (s.unit s.active).lenl - (s.unit s.active).cur) fun j hj => hread _ (by omega) (by omega)
  have hdone := xorpEffect_eq_done.2 ⟨hlane, ls, hls, by omega, pad, hpad, rfl⟩
  refine ⟨_, pad, _, perform_done hdone, rfl, fun b hb => ?_, ?_, fun j hj => ?_, SameMessages.unchanged ?_⟩
  · simp only [hbytes b hb, Nat.lt_sub_iff_add_lt']
  · exact getElem?_onNamedLanes_named _ _ (by omega)
  · exact getElem?_onNamedLanes_other _ _ (by omega)
  · exact SameMessages.setUnit (by rfl)

end Sys2Proof
end

section
/-! SUPPORT. Operations on named lanes in sequence: lane ranges put together and in another order, and the obligation
O18. -/

namespace Sys2Proof.Machine

/-! Lane ranges (30_encoding R72). -/

/-- Operations on disjoint lane ranges commute. -/
theorem onNamedLanes_comm {a m b n : Nat} (f g : Nat → Byte16 → Byte16) (ls : List Byte16)
    (h : a + m ≤ b ∨ b + n ≤ a) :
    onNamedLanes a m f (onNamedLanes b n g ls) = onNamedLanes b n g (onNamedLanes a m f ls) := by
  refine List.ext_getElem? fun i => ?_
  simp only [getElem?_onNamedLanes]
  by_cases ha : a ≤ i ∧ i < a + m
  · have hb : ¬(b ≤ i ∧ i < b + n) := by omega
    simp only [ha, hb, if_true, if_false, and_self]
  · simp only [ha, if_false]

/-- The empty range names no lane. -/
theorem onNamedLanes_zero (a : Nat) (f : Nat → Byte16 → Byte16) (ls : List Byte16) : onNamedLanes a 0 f ls = ls :=
  List.ext_getElem? fun _ => getElem?_onNamedLanes_other _ _ (by omega)

/-- A range and the lane after it are the range one longer. -/
theorem onNamedLanes_succ (a n : Nat) (f : Nat → Byte16 → Byte16) (ls : List Byte16) :
    onNamedLanes (a + n) 1 f (onNamedLanes a n f ls) = onNamedLanes a (n + 1) f ls := by
  refine List.ext_getElem? fun i => ?_
  simp only [getElem?_onNamedLanes]
  rcases eq_or_ne i (a + n) with rfl | hne
  · simp
  · have hlast : ¬(a + n ≤ i ∧ i < a + n + 1) := by omega
    have hlonger : (a ≤ i ∧ i < a + n) ↔ (a ≤ i ∧ i < a + (n + 1)) := by omega
    simp only [hlast, hlonger, if_false]

/-- An operation on one lane depends only on what it does to that lane. -/
theorem onNamedLanes_one_congr {a : Nat} {f g : Nat → Byte16 → Byte16} (h : f a = g a) (ls : List Byte16) :
    onNamedLanes a 1 f ls = onNamedLanes a 1 g ls := by
  refine List.ext_getElem? fun i => ?_
  simp only [getElem?_onNamedLanes]
  split
  next hi =>
    obtain rfl : a = i := by omega
    rw [h]
  next => rfl

/-- The lanes after `f` on the lanes `a + j`, one at a time, for the offsets `j` of `js` in their order. -/
def onLanesInTurn (a : Nat) (f : Nat → Byte16 → Byte16) (js : List Nat) (ls : List Byte16) : List Byte16 :=
  js.foldl (fun ls j => onNamedLanes (a + j) 1 f ls) ls

theorem onLanesInTurn_concat (a : Nat) (f : Nat → Byte16 → Byte16) (js : List Nat) (j : Nat) (ls : List Byte16) :
    onLanesInTurn a f (js ++ [j]) ls = onNamedLanes (a + j) 1 f (onLanesInTurn a f js ls) := by
  simp [onLanesInTurn]

/-- In ascending order the lanes are the range. -/
theorem onLanesInTurn_range (a : Nat) (f : Nat → Byte16 → Byte16) (n : Nat) (ls : List Byte16) :
    onLanesInTurn a f (List.range n) ls = onNamedLanes a n f ls := by
  induction n with
  | zero => exact (onNamedLanes_zero ..).symm
  | succ n ih => rw [List.range_succ, onLanesInTurn_concat, ih, onNamedLanes_succ]

/-- The order of the lanes plays no part (41_init_absorb_ops R113). -/
theorem onLanesInTurn_perm {js ks : List Nat} (h : js.Perm ks) (a : Nat) (f : Nat → Byte16 → Byte16)
    (ls : List Byte16) : onLanesInTurn a f js ls = onLanesInTurn a f ks ls := by
  refine h.foldl_eq' (fun j _ k _ l => ?_) ls
  rcases eq_or_ne j k with rfl | hne
  · rfl
  · exact onNamedLanes_comm f f l (by omega)

/-! Micro-operations on one lane each. -/

/-- The active unit with these lanes, this cursor and this `UPC`; everything else as in `s`. -/
def State.withLanesAt (s : State) (ls : List Byte16) (cur upc : Nat) : State :=
  s.setUnit s.active { s.unit s.active with lanes := some ls, cur := cur, upc := upc }

section
variable (s : State) (ls ls' : List Byte16) (cur cur' upc : Nat)

@[simp] theorem withLanesAt_cfg : (s.withLanesAt ls cur upc).cfg = s.cfg := setUnit_cfg ..

@[simp] theorem unit_active_withLanesAt : (s.withLanesAt ls cur upc).unit (s.withLanesAt ls cur upc).active =
    { s.unit s.active with lanes := some ls, cur := cur, upc := upc } := by
  rw [State.withLanesAt, setUnit_active, unit_setUnit]

theorem lanesWritten_withLanesAt :
    (s.withLanesAt ls cur upc).lanesWritten ls' cur' = s.withLanesAt ls' cur' (upc + 1) := by
  rw [State.lanesWritten, unit_active_withLanesAt, State.withLanesAt, setUnit_active, setUnit_setUnit,
    State.withLanesAt]

theorem lanesWritten_with_upc :
    (s.lanesWritten ls cur).setUnit s.active { (s.lanesWritten ls cur).unit s.active with upc := upc } =
      s.withLanesAt ls cur upc := by
  rw [State.lanesWritten, unit_setUnit, setUnit_setUnit, State.withLanesAt]

variable {s ls} in
theorem withLanesAt_self (h : (s.unit s.active).lanes = some ls) :
    s.withLanesAt ls (s.unit s.active).cur (s.unit s.active).upc = s := by
  rw [State.withLanesAt, ← h, setUnit_unit]

end

/-- Micro-operations that lead from each state of a sequence to the next lead from its first to its last. -/
theorem runUops_of_steps {is : List Instr} {σ : Nat → State}
    (h : ∀ k (hk : k < is.length), exec is[k] (σ k) = .next (σ (k + 1))) : runUops is (σ 0) = .next (σ is.length) := by
  induction is generalizing σ with
  | nil => rfl
  | cons i is ih =>
    have hfirst : exec i (σ 0) = .next (σ 1) := h 0 (by simp)
    simp only [runUops, hfirst]
    exact ih (σ := fun k => σ (k + 1)) fun k hk => h (k + 1) (by simpa using hk)

/-- Micro-operations on one lane each, in any order of the lanes of a range, have the effect on the range. -/
theorem runUops_singleLanes {s : State} {ls : List Byte16} {g : Nat → Instr} {f : Nat → Byte16 → Byte16} {a n : Nat}
    {js : List Nat} (cur : Nat → Nat) (hls : (s.unit s.active).lanes = some ls) (hcur : cur 0 = (s.unit s.active).cur)
    (hperm : js.Perm (List.range n))
    (hstep : ∀ k (hk : k < js.length) l upc, exec (g js[k]) (s.withLanesAt l (cur k) upc) =
      .next (s.withLanesAt (onNamedLanes (a + js[k]) 1 f l) (cur (k + 1)) (upc + 1))) :
    runUops (js.map g) s = .next (s.withLanesAt (onNamedLanes a n f ls) (cur n) ((s.unit s.active).upc + n)) := by
  obtain rfl : n = js.length := by simpa using hperm.length_eq.symm
  have hrun := runUops_of_steps (is := js.map g) (σ := fun k => s.withLanesAt (onLanesInTurn a f (js.take k) ls)
    (cur k) ((s.unit s.active).upc + k)) fun k hk => by
      rw [List.length_map] at hk
      rw [List.getElem_map, hstep k hk, List.take_succ_eq_append_getElem hk, onLanesInTurn_concat, Nat.add_assoc]
  have hfirst : s.withLanesAt (onLanesInTurn a f (js.take 0) ls) (cur 0) ((s.unit s.active).upc + 0) = s := by
    rw [hcur]
    exact withLanesAt_self hls
  rwa [hfirst, List.length_map, List.take_length, onLanesInTurn_perm hperm, onLanesInTurn_range] at hrun

/-- The lane number of a micro-operation on one lane of a range does not wrap (30_encoding R70, R6). -/
theorem laneOffset_toNat {lane : BitVec 6} {j : Nat} (h : lane.toNat + j < 64) :
    (lane + BitVec.ofNat 6 j).toNat = lane.toNat + j := by
  rw [BitVec.toNat_add, BitVec.toNat_ofNat]
  omega

/-- A fixed-key round on one lane (R99). -/
theorem perform_fixedRound_one {key : Config → Nat → Byte16} {s : State} {lane : BitVec 6} (ls : List Byte16)
    (cur upc : Nat) (hlane : lane.toNat < s.cfg.L) :
    (s.withLanesAt ls cur upc).perform (fixedRound key lane 1) =
      .next (s.withLanesAt (onNamedLanes lane.toNat 1 (fun i v => aesr v (key s.cfg i)) ls) cur (upc + 1)) := by
  rw [perform_fixedRound (ls := ls) (by rw [unit_active_withLanesAt]) ⟨le_rfl, by rwa [withLanesAt_cfg]⟩,
    lanesWritten_withLanesAt, withLanesAt_cfg, unit_active_withLanesAt]
  rfl

/-- A data micro-operation on one lane, its chunk below `LENL` and delivered (R73). -/
theorem perform_takeChunks_one {f : Byte16 → Byte16 → Byte16} {s : State} {lane : BitVec 6} {cur : Nat} {d : Byte16}
    (ls : List Byte16) (upc : Nat) (hlane : lane.toNat < s.cfg.L) (hbound : cur + 16 ≤ (s.unit s.active).lenl)
    (hd : chunkAt (s.unit s.active).msg cur = some d) :
    (s.withLanesAt ls cur upc).perform (takeChunks f lane 1) =
      .next (s.withLanesAt (onNamedLanes lane.toNat 1 (fun _ v => f v d) ls) (cur + 16) (upc + 1)) := by
  have hds : chunksAt (s.unit s.active).msg cur (1 : BitVec 6).toNat = some [d] := by simp [chunksAt, hd]
  rw [perform_takeChunks (unit_active_withLanesAt ..) rfl ⟨le_rfl, by rwa [withLanesAt_cfg]⟩ hbound hds,
    lanesWritten_withLanesAt]
  exact congrArg (fun l => Host.Outcome.next (s.withLanesAt l _ _)) (onNamedLanes_one_congr (by simp) ls)

/-- The fixed-key rounds split into single lanes in any order, whatever their key (R113). -/
theorem splitsInOrder_of_fixedRound {i : BitVec 6 → BitVec 6 → Instr} {key : Config → Nat → Byte16}
    (h : ∀ lane cnt s, exec (i lane cnt) s = s.perform (fixedRound key lane cnt)) (order : List Nat) :
    SplitsInOrder i order := by
  intro s t lane cnt hL hperm hexec hupc
  obtain ⟨y, hy, rfl⟩ := perform_completed ((h lane cnt s).symm.trans hexec) hupc
  obtain ⟨⟨-, hrange⟩, ls, hls, rfl⟩ := fixedRound_eq_done.1 hy
  refine (runUops_singleLanes (fun _ => (s.unit s.active).cur) hls rfl hperm fun k hk l upc => ?_).trans
    (congrArg _ (lanesWritten_with_upc ..).symm)
  have hj : order[k] < cnt.toNat := List.mem_range.1 (hperm.subset (List.getElem_mem hk))
  have hlane := laneOffset_toNat (lane := lane) (j := order[k]) (by omega)
  rw [h, perform_fixedRound_one _ _ _ (by omega), hlane]

/-- The data micro-operations split into single lanes in ascending order, whatever they do with a chunk (R113). -/
theorem splitsInOrder_of_takeChunks {i : BitVec 6 → BitVec 6 → Instr} {f : Byte16 → Byte16 → Byte16}
    (h : ∀ lane cnt s, exec (i lane cnt) s = s.perform (takeChunks f lane cnt)) (n : Nat) :
    SplitsInOrder i (List.range n) := by
  intro s t lane cnt hL hperm hexec hupc
  obtain ⟨y, hy, rfl⟩ := perform_completed ((h lane cnt s).symm.trans hexec) hupc
  obtain ⟨⟨-, hrange⟩, ls, hls, hbound, ds, hds, rfl⟩ := takeChunks_eq_done.1 hy
  obtain rfl : n = cnt.toNat := by simpa using hperm.length_eq
  refine (runUops_singleLanes (fun k => (s.unit s.active).cur + 16 * k) hls rfl hperm fun k hk l upc => ?_).trans
    (congrArg _ (lanesWritten_with_upc ..).symm)
  rw [List.length_range] at hk
  have hlane := laneOffset_toNat (lane := lane) (j := k) (by omega)
  rw [List.getElem_range, h, perform_takeChunks_one _ _ (by omega) (by omega) (chunkAt_of_chunksAt hds hk), hlane,
    Nat.mul_succ, Nat.add_assoc]
  exact congrArg (fun l' => Host.Outcome.next (s.withLanesAt l' _ _)) (onNamedLanes_one_congr (by simp) l)

end Sys2Proof.Machine

namespace Sys2Proof

open Sys2Proof.Machine

/-- Settles O18: two templates, the data micro-operations in message order, the rounds in any order. -/
theorem laneRangesSplitIntoSingleLanes : Obligations.LaneRangesSplitIntoSingleLanes :=
  ⟨splitsInOrder_of_takeChunks fun _ _ _ => rfl, splitsInOrder_of_takeChunks fun _ _ _ => rfl, fun order =>
    ⟨splitsInOrder_of_fixedRound (fun _ _ _ => rfl) order, splitsInOrder_of_fixedRound (fun _ _ _ => rfl) order,
      splitsInOrder_of_fixedRound (fun _ _ _ => rfl) order⟩⟩

end Sys2Proof
end

section
/-! SUPPORT. A micro-operation on named lanes acts alike whatever the lanes hold, and the obligation O19. -/

namespace Sys2Proof.Machine

theorem rangeLegal_iff {L : Nat} {lane cnt : BitVec 6} :
    rangeLegal L lane cnt = true ↔ 1 ≤ cnt.toNat ∧ lane.toNat + cnt.toNat ≤ L := by
  simp [rangeLegal, Nat.one_le_iff_ne_zero, ← BitVec.toNat_inj]

/-- Whatever the lanes of unit `x` hold and whatever its `UPC` is, the micro-operation `i` does the same thing: it
writes the `m` lanes from `a` on by one operation, with one cursor and one padded chunk, or takes one fault, or waits. -/
def ActsOnNamedLanes (i : Instr) (a m : Nat) (c : Config) (x : UnitState) : Prop :=
  (∃ f cur pad, ∀ ls upc, effectOf i c { x with lanes := some ls, upc := upc } =
    .done { x with lanes := some (onNamedLanes a m f ls), cur := cur, padbuf := pad, upc := upc }) ∨
  (∃ k, ∀ ls upc, effectOf i c { x with lanes := some ls, upc := upc } = .fault k) ∨
  ∀ ls upc, effectOf i c { x with lanes := some ls, upc := upc } = .wait

/-- On a legal range `XORD` and `RNDD` depend on the bound and on the message alone (60_exceptions R186). -/
theorem actsOnNamedLanes_of_takeChunks {i : Instr} {f : Byte16 → Byte16 → Byte16} {lane cnt : BitVec 6} {c : Config}
    (hi : effectOf i = takeChunks f lane cnt) (hrange : 1 ≤ cnt.toNat ∧ lane.toNat + cnt.toNat ≤ c.L) (x : UnitState) :
    ActsOnNamedLanes i lane.toNat cnt.toNat c x := by
  have hlegal := (laneRangeLegal_iff ..).2 hrange
  rw [ActsOnNamedLanes, hi]
  by_cases hbound : x.cur + 16 * cnt.toNat ≤ x.lenl
  · cases hds : chunksAt x.msg x.cur cnt.toNat with
    | none => exact .inr (.inr fun ls upc => by simp [takeChunks, hlegal, withLanes, hbound, hds])
    | some ds => exact .inl ⟨_, x.cur + 16 * cnt.toNat, x.padbuf, fun ls upc =>
        takeChunks_eq_done.2 ⟨hrange, ls, rfl, hbound, ds, hds, rfl⟩⟩
  · exact .inr (.inl ⟨.readOverrun, fun ls upc => by simp [takeChunks, hlegal, withLanes, hbound]⟩)

/-- On a legal lane `XORP` depends on the bytes left and on the message alone (60_exceptions R186). -/
theorem actsOnNamedLanes_xorp {lane : BitVec 6} {c : Config} (hlane : lane.toNat + 1 ≤ c.L) (x : UnitState) :
    ActsOnNamedLanes (.xorp lane) lane.toNat 1 c x := by
  have hlegal : laneRangeLegal c.L lane 1 = true := (laneRangeLegal_iff ..).2 ⟨le_rfl, hlane⟩
  have hi : effectOf (.xorp lane) = xorpEffect lane := rfl
  rw [ActsOnNamedLanes, hi]
  by_cases hleft : 1 ≤ x.lenl - x.cur ∧ x.lenl - x.cur ≤ 15
  · cases hpad : paddedChunkAt x.msg x.cur (x.lenl - x.cur) with
    | none => exact .inr (.inr fun ls upc => by
        simp only [xorpEffect, hlegal, withLanes, hleft, hpad, decide_true, Bool.and_self, require_true, withData_none])
    | some pad => exact .inl ⟨_, x.lenl, pad, fun ls upc =>
        xorpEffect_eq_done.2 ⟨hlane, ls, rfl, hleft, pad, hpad, rfl⟩⟩
  · exact .inr (.inl ⟨.readOverrun, fun ls upc => by
      simp only [xorpEffect, hlegal, withLanes, ← Bool.decide_and, hleft, decide_false, require_true, require_false]⟩)

/-- A legal fixed-key round writes the named lanes by one operation on every unit whose lanes hold values (R99). -/
theorem effectOf_isFixedRound {i : Instr} {lane cnt : BitVec 6} {c : Config} (hi : IsFixedRound i lane cnt)
    (hlegal : i.legalUop c.L = true) : ∃ f, ∀ (x : UnitState) ls, x.lanes = some ls →
      effectOf i c x = .done { x with lanes := some (onNamedLanes lane.toNat cnt.toNat f ls) } := by
  have hdone (key : Config → Nat → Byte16) (hrange : rangeLegal c.L lane cnt = true) : ∃ f, ∀ (x : UnitState) ls,
      x.lanes = some ls → fixedRound key lane cnt c x =
        .done { x with lanes := some (onNamedLanes lane.toNat cnt.toNat f ls) } :=
    ⟨_, fun x ls hls => fixedRound_eq_done.2 ⟨rangeLegal_iff.1 hrange, ls, hls, rfl⟩⟩
  rcases hi with rfl | rfl | rfl
  · exact hdone roundKeyAt hlegal
  · exact hdone (fun c _ => c.fk) hlegal
  · exact hdone (fun _ _ => zero16) hlegal

theorem actsOnNamedLanes_of_legal {i : Instr} {lane cnt : BitVec 6} {c : Config}
    (hi : IsFixedRound i lane cnt ∨ IsDataOp i lane cnt) (hlegal : i.legalUop c.L = true) (x : UnitState) :
    ActsOnNamedLanes i lane.toNat cnt.toNat c x := by
  rcases hi with hround | rfl | rfl | ⟨rfl, rfl⟩
  · obtain ⟨f, hf⟩ := effectOf_isFixedRound hround hlegal
    exact .inl ⟨f, x.cur, x.padbuf, fun ls upc => hf _ ls rfl⟩
  · exact actsOnNamedLanes_of_takeChunks rfl (rangeLegal_iff.1 hlegal) x
  · exact actsOnNamedLanes_of_takeChunks rfl (rangeLegal_iff.1 hlegal) x
  · exact actsOnNamedLanes_xorp (of_decide_eq_true hlegal) x

/-- On its unit a fixed-key round commutes with a micro-operation on other lanes, also where that faults or waits. -/
theorem leaves_comm {i j : Instr} {a m b n : Nat} {c : Config} {x : UnitState} {ls : List Byte16}
    {g : Nat → Byte16 → Byte16} (hls : x.lanes = some ls) (hi : ActsOnNamedLanes i a m c x)
    (hj : ∀ (y : UnitState) l, y.lanes = some l →
      effectOf j c y = .done { y with lanes := some (onNamedLanes b n g l) })
    (hdisjoint : a + m ≤ b ∨ b + n ≤ a) :
    (effectOf j c ((effectOf i c x).leaves x)).leaves ((effectOf i c x).leaves x) =
      (effectOf i c ((effectOf j c x).leaves x)).leaves ((effectOf j c x).leaves x) := by
  have hx : x = { x with lanes := some ls, upc := x.upc } := by rw [← hls]
  have hjx : (effectOf j c x).leaves x =
      { x with lanes := some (onNamedLanes b n g ls), upc := x.upc + 1 } := by rw [hj x ls hls]; rfl
  rcases hi with ⟨f, cur, pad, hdone⟩ | ⟨k, hfault⟩ | hwait
  · have hix : (effectOf i c x).leaves x =
        { x with lanes := some (onNamedLanes a m f ls), cur := cur, padbuf := pad, upc := x.upc + 1 } := by
      rw [hx, hdone]; rfl
    rw [hix, hjx, hj _ _ rfl, hdone, onNamedLanes_comm f g ls hdisjoint]
    rfl
  · have hix : (effectOf i c x).leaves x = flagsFaulted k x := by rw [hx, hfault]; rfl
    rw [hix, hjx, hj (flagsFaulted k x) ls hls, hfault]
    rfl
  · have hix : (effectOf i c x).leaves x = x := by rw [hx, hwait]; rfl
    rw [hix, hjx, hwait]
    rfl

theorem nbits_of_legalUop {i : Instr} {L : Nat} (h : i.legalUop L = true) : i.nbits = 16 := by
  cases i with
  | startOpt withRef ignored => cases h
  | startRef ignored => cases h
  | _ => rfl

/-- Two micro-operations one after the other, as functions of the active unit. -/
theorem runUops_pair_eq_leaves {i j : Instr} (hi : i.nbits = 16) (hj : j.nbits = 16) (s : State) :
    runUops [i, j] s = .next (s.setUnit s.active
      ((effectOf j s.cfg ((effectOf i s.cfg (s.unit s.active)).leaves (s.unit s.active))).leaves
        ((effectOf i s.cfg (s.unit s.active)).leaves (s.unit s.active)))) := by
  have hrun (k : Instr) (hk : k.nbits = 16) (t : State) := (exec_eq_perform_effectOf hk t).trans
    (perform_eq_setUnit_leaves t (effectOf k))
  rw [runUops_pair (hrun i hi s) (hrun j hj _), setUnit_active, setUnit_cfg, unit_setUnit, setUnit_setUnit]

end Sys2Proof.Machine

namespace Sys2Proof

open Sys2Proof.Machine

/-- Settles O19: what the other micro-operation does is fixed by what the round does not write. -/
theorem roundsOnDisjointLanesCommute : Obligations.RoundsOnDisjointLanesCommute := by
  intro s ls i j a m b n hls hi hj hlegal hlegal' hdisjoint
  have hi16 := nbits_of_legalUop hlegal
  have hj16 := nbits_of_legalUop hlegal'
  obtain ⟨g, hg⟩ := effectOf_isFixedRound hj hlegal'
  rw [runUops_pair_eq_leaves hi16 hj16, runUops_pair_eq_leaves hj16 hi16,
    leaves_comm hls (actsOnNamedLanes_of_legal hi hlegal _) hg hdisjoint]

end Sys2Proof
end

section
/-! SUPPORT. What the finalization micro-operations leave on their unit, what only `OUT` writes, and the obligations
O20 to O23. -/

namespace Sys2Proof.Machine

/-! The exclusive or of all lanes (42_finalize_ops R120). -/

/-- Exclusive or commutes and associates: the order of the lanes plays no part. -/
theorem foldLanes_perm {p ls : List Byte16} (h : p.Perm ls) : foldLanes p = foldLanes ls := h.foldl_eq zero16

theorem foldr_xor_eq_foldLanes (ls : List Byte16) : ls.foldr (fun v acc => v ^^^ acc) zero16 = foldLanes ls := by
  induction ls with
  | nil => rfl
  | cons v ls ih => rw [List.foldr_cons, ih, foldLanes_cons]

/-! The three micro-operations: what a completed one leaves, and that each completes on lanes that hold values. -/

theorem foldEffect_eq_done {c : Config} {x y : UnitState} :
    foldEffect c x = .done y ↔ ∃ ls, x.lanes = some ls ∧ y = { x with lanes := some (ls.set 0 (foldLanes ls)) } := by
  simp only [foldEffect, withLanes_eq_done, UopResult.done.injEq, @eq_comm _ y]

theorem lenxEffect_eq_done {c : Config} {x y : UnitState} :
    lenxEffect c x = .done y ↔ ∃ ls, x.lanes = some ls ∧ y = { x with
      lenbuf := lengthBlock x.lenl
      lanes := some (ls.set 0 (ls.headD zero16 ^^^ lengthBlock x.lenl)) } := by
  simp only [lenxEffect, withLanes_eq_done, UopResult.done.injEq, @eq_comm _ y]

theorem outEffect_eq_done {c : Config} {x y : UnitState} :
    outEffect c x = .done y ↔ ∃ ls, x.lanes = some ls ∧
      y = flagsFinished { x with digest := some (ls.headD zero16) } := by
  simp only [outEffect, withLanes_eq_done, UopResult.done.injEq, @eq_comm _ y]

theorem perform_foldEffect {s : State} {ls : List Byte16} (hls : (s.unit s.active).lanes = some ls) :
    s.perform foldEffect = .next (s.lanesWritten (ls.set 0 (foldLanes ls)) (s.unit s.active).cur) :=
  perform_done (foldEffect_eq_done.2 ⟨ls, hls, rfl⟩)

theorem perform_lenxEffect {s : State} {v : Byte16} {vs : List Byte16}
    (hls : (s.unit s.active).lanes = some (v :: vs)) :
    s.perform lenxEffect = .next (s.setUnit s.active { s.unit s.active with
      lanes := some ((v ^^^ lengthBlock (s.unit s.active).lenl) :: vs)
      lenbuf := lengthBlock (s.unit s.active).lenl
      upc := (s.unit s.active).upc + 1 }) :=
  perform_done (lenxEffect_eq_done.2 ⟨_, hls, rfl⟩)

theorem perform_outEffect {s : State} {v : Byte16} {vs : List Byte16}
    (hls : (s.unit s.active).lanes = some (v :: vs)) :
    s.perform outEffect = .next (s.setUnit s.active { s.unit s.active with
      digest := some v, busy := false, done := true, upc := (s.unit s.active).upc + 1 }) :=
  perform_done (outEffect_eq_done.2 ⟨_, hls, rfl⟩)

/-! What only `OUT` writes (42_finalize_ops R122). -/

/-- `y` has the flags, the cause and the digest of `x`. -/
def KeepsFlagsAndDigest (x y : UnitState) : Prop :=
  y.busy = x.busy ∧ y.done = x.done ∧ y.fault = x.fault ∧ y.fcause = x.fcause ∧ y.digest = x.digest

theorem WritesLanes.keepsFlagsAndDigest {c : Config} {x y : UnitState} (w : WritesLanes c x y) :
    KeepsFlagsAndDigest x y := by
  rw [w.frame]
  exact ⟨rfl, rfl, rfl, rfl, rfl⟩

theorem effectOf_done_keepsFlagsAndDigest {i : Instr} {c : Config} {x y : UnitState} (hi : i ≠ .out)
    (h : effectOf i c x = .done y) : KeepsFlagsAndDigest x y := by
  cases i with
  | out => exact absurd rfl hi
  | xord lane cnt => exact (takeChunks_writesLanes h).keepsFlagsAndDigest
  | rndd lane cnt => exact (takeChunks_writesLanes h).keepsFlagsAndDigest
  | rndf lane cnt => exact (fixedRound_writesLanes h).keepsFlagsAndDigest
  | rndz lane cnt => exact (fixedRound_writesLanes (key := fun _ _ => zero16) h).keepsFlagsAndDigest
  | rndk lane cnt => exact (fixedRound_writesLanes (key := fun c _ => c.fk) h).keepsFlagsAndDigest
  | xorp lane =>
    obtain ⟨-, ls, -, -, pad, -, rfl⟩ := xorpEffect_eq_done.1 h
    exact ⟨rfl, rfl, rfl, rfl, rfl⟩
  | fold =>
    obtain ⟨ls, -, rfl⟩ := (foldEffect_eq_done (c := c)).1 h
    exact ⟨rfl, rfl, rfl, rfl, rfl⟩
  | lenx =>
    obtain ⟨ls, -, rfl⟩ := (lenxEffect_eq_done (c := c)).1 h
    exact ⟨rfl, rfl, rfl, rfl, rfl⟩
  | ldseed =>
    cases h
    exact ⟨rfl, rfl, rfl, rfl, rfl⟩
  | _ => cases h

/-- A micro-operation other than `OUT` takes a fault, or it leaves the flags and the digest: completed or waiting. -/
theorem exec_fault_or_keepsFlagsAndDigest {i : Instr} {s t : State} (hbits : i.nbits = 16) (hi : i ≠ .out)
    (h : exec i s = .next t) :
    (∃ k, t = s.raise s.active k) ∨ KeepsFlagsAndDigest (s.unit s.active) (t.unit s.active) := by
  rw [exec_eq_perform_effectOf hbits] at h
  rcases perform_cases s (effectOf i) with ⟨x, he, hx⟩ | ⟨k, -, hk⟩ | ⟨-, hw⟩
  · cases hx.symm.trans h
    have hkeeps : KeepsFlagsAndDigest (s.unit s.active) x := effectOf_done_keepsFlagsAndDigest hi he
    rw [unit_setUnit]
    exact .inr hkeeps
  · cases hk.symm.trans h
    exact .inl ⟨k, rfl⟩
  · cases hw.symm.trans h
    exact .inr ⟨rfl, rfl, rfl, rfl, rfl⟩

/-- A micro-operation touches its own unit and nothing else (10_state R20). -/
theorem exec_uop_frame {i : Instr} {s t : State} (hbits : i.nbits = 16) (h : exec i s = .next t) :
    t.unit s.active.other = s.unit s.active.other ∧ t.cfg = s.cfg ∧ t.lenLo = s.lenLo ∧ t.lenHi = s.lenHi ∧
      t.rdata = s.rdata := by
  rw [exec_eq_perform_effectOf hbits, perform_eq_setUnit_leaves] at h
  cases h
  exact ⟨unit_setUnit_of_ne _ _ (other_ne _), setUnit_cfg .., setUnit_lenLo .., setUnit_lenHi .., setUnit_rdata ..⟩

end Sys2Proof.Machine

namespace Sys2Proof

open Sys2Proof.Machine

/-- Settles O20: the ascending exclusive or is the one in the order `p`, a permutation of the lanes. -/
theorem foldXorsAllLanesInAnyOrder : Obligations.FoldXorsAllLanesInAnyOrder := by
  rintro s x ls p rfl hls hne hp
  refine ⟨_, perform_foldEffect hls, List.length_set, ?_, fun j hj => ?_, lanesWritten_messagesUnchanged s _ _⟩
  · rw [foldr_xor_eq_foldLanes, foldLanes_perm hp, List.getElem?_set_self (List.length_pos_of_ne_nil hne)]
  · exact List.getElem?_set_ne (by omega)

/-- Settles O21: the block is the length block of `LENL`, known byte by byte. -/
theorem lenxXorsTheLengthBlock : Obligations.LenxXorsTheLengthBlock := by
  rintro s x v vs rfl hls
  refine ⟨lengthBlock (s.unit s.active).lenl, _, perform_lenxEffect hls, rfl, fun b hb => ?_, fun b hlo hhi => ?_,
    SameMessages.unchanged (SameMessages.setUnit rfl)⟩
  · rw [byteAt_lengthBlock _ _ (by omega), if_pos hb]
  · rw [byteAt_lengthBlock _ _ hhi, if_neg (by omega)]

/-- Settles O22: the effect of `OUT` on lanes that hold values. -/
theorem outDeliversLaneZero : Obligations.OutDeliversLaneZero := by
  rintro s x v vs rfl hls
  exact ⟨_, perform_outEffect hls, rfl, SameMessages.unchanged (SameMessages.setUnit rfl)⟩

/-- Settles O23: what a micro-operation other than `OUT` leaves of its unit, and the frame of every micro-operation. -/
theorem onlyOutWritesFlagsAndDigest : Obligations.OnlyOutWritesFlagsAndDigest :=
  fun _ _ _ hbits h => ⟨fun hi => exec_fault_or_keepsFlagsAndDigest hbits hi h, exec_uop_frame hbits h⟩

end Sys2Proof
end

section
/-! SUPPORT. What a step runs: a handed word, a `CTRL` write, a sequencer's turn, a presented word, and no move at all:
the obligations O4 and O5. -/

namespace Sys2Proof.Machine

theorem handWord_of_ok {u : UnitId} {w : BitVec 16} {i : Instr} (s : State) (h : decodeWord w = .ok i) :
    handWord u w s = exec i { s with active := u } := by simp only [handWord, h]

theorem ctrlWrite_of_ok {v : BitVec 32} {i : Instr} (s : State) (h : decodeCommand v = .ok i) :
    ctrlWrite v s = exec i s := by simp only [ctrlWrite, h]

theorem act_hand_of_busy {u : UnitId} {w : BitVec 16} {i : Instr} {s : State} (hb : (s.unit u).busy = true)
    (h : decodeWord w = .ok i) : act (.hand u w) s = exec i { s with active := u } := by
  simp only [act, hb, if_true, handWord_of_ok s h]

theorem act_regWrite_ctrl {v : BitVec 32} {i : Instr} (s : State) (h : decodeCommand v = .ok i) :
    act (.regWrite 0 v) s = exec i s := ctrlWrite_of_ok s h

theorem act_sequence_of_busy {u : UnitId} {i : Instr} {q : SeqRegs} {s : State} (hb : (s.unit u).busy = true)
    (hi : issue u s.cfg (s.unit u) = .uop i q) (h : decodeWord (uopWord i) = .ok i) :
    act (.sequence u) s = advanceSeq u s q (exec i { s with active := u }) := by
  simp only [act, sequencerStep, hb, if_true, hi, handWord_of_ok s h]

theorem decodeTableWord_uop {w : Nat} {i : Instr} (h : decodeTableWord 16 w = some i) :
    decodeWord (BitVec.ofNat 16 w) = .ok i := by
  cases hd : decodeWord (BitVec.ofNat 16 w) <;> simp [decodeTableWord, hd, Except.toOption] at h
  rw [h]

theorem decodeTableWord_command {w : Nat} {i : Instr} (h : decodeTableWord 32 w = some i) :
    decodeCommand (BitVec.ofNat 32 w) = .ok i := by
  cases hd : decodeCommand (BitVec.ofNat 32 w) <;> simp [decodeTableWord, hd, Except.toOption] at h
  rw [h]

/-- With no move pending a busy unit takes the step, after at most a draw (44_reference_absorber R166). -/
theorem onItsOwn_of_busy {s : State} (h : s.opt.busy = true ∨ s.ref.busy = true) :
    ∃ u n, (s.unit u).busy = true ∧ s.draws ≤ n ∧ onItsOwn s = sequencerStep u { s with draws := n } := by
  cases ho : s.opt.busy <;> cases hr : s.ref.busy
  case false.false => simp [ho, hr] at h
  case false.true => exact ⟨.ref, s.draws, hr, le_rfl, by simp [onItsOwn, ho, hr]⟩
  case true.false => exact ⟨.opt, s.draws, ho, le_rfl, by simp [onItsOwn, ho, hr]⟩
  case true.true =>
    refine ⟨if Config.optStepsNext s.draws then .opt else .ref, s.draws + 1, ?_, Nat.le_succ _, by
      simp only [onItsOwn, ho, hr]⟩
    split
    · exact ho
    · exact hr

end Sys2Proof.Machine

namespace Sys2Proof

open Sys2Proof.Machine

/-- Settles O4: each way a word reaches the machine runs what the word decodes to. -/
theorem stepRunsTheDecodedInstruction : Obligations.StepRunsTheDecodedInstruction := by
  refine ⟨fun s u w rest i hm hb hw => ?_, fun s v rest i hm hv => ?_, fun s u rest i q hm hb hi hw => ?_,
    fun s w i hw => ?_, fun s w i hw => ?_⟩
  · rw [step_cons hm, act_hand_of_busy (by rwa [unit_moves]) hw]
  · rw [step_cons hm, act_regWrite_ctrl _ hv]
  · rw [step_cons hm, act_sequence_of_busy (by rwa [unit_moves]) (by rwa [unit_moves]) hw]
    cases exec i { s with moves := rest, active := u } <;> simp only [advanceSeq, unit_moves]
  · exact (step_cons rfl).trans (act_hand_of_busy rfl (decodeTableWord_uop hw))
  · exact (step_cons rfl).trans (act_regWrite_ctrl _ (decodeTableWord_command hw))

/-- Settles O5: an idle machine has no enabled step, and else the step is a busy unit's. -/
theorem stepWithoutMovesIsABusyUnitsStep : Obligations.StepWithoutMovesIsABusyUnitsStep := by
  intro s hm
  refine ⟨step_idle hm, fun hb => ?_⟩
  rw [step_nil hm]
  exact onItsOwn_of_busy hb

end Sys2Proof
end

section
/-! SUPPORT. How a message is cut into super-blocks, chunks and a rest, what a measure of micro-operations adds up to over
each stage of a schedule, and the obligation O51. -/

namespace Sys2Proof.Machine

/-! The groups and the parts of a message (43_sequencer_optimized R131, R133). -/

theorem groups_mul {c : Config} (hc : c.Valid) : groups c * c.G = c.L := by
  obtain ⟨-, -, -, -, hdvd, -⟩ := hc
  exact Nat.div_mul_cancel (Nat.dvd_of_mod_eq_zero hdvd)

/-- A message is its super-blocks, the full chunks of its tail and its final bytes. -/
theorem lenl_split (c : Config) (lenl : Nat) :
    lenl = nsb c lenl * superBlock c + 16 * ntc c lenl + remBytes lenl := by
  have hblocks : lenl / superBlock c * superBlock c + lenl % superBlock c = lenl := Nat.div_add_mod' ..
  have hrest : lenl % superBlock c % 16 = lenl % 16 := Nat.mod_mod_of_dvd _ (Nat.dvd_mul_right ..)
  simp only [nsb, ntc, remBytes]
  omega

theorem remBytes_lt (lenl : Nat) : remBytes lenl < 16 := Nat.mod_lt _ (by decide)

/-- The chunks of a message by its parts: `L` per super-block, the tail's, and one more for final bytes. -/
theorem chunkCount_eq (c : Config) (lenl : Nat) :
    chunkCount lenl = nsb c lenl * c.L + (ntc c lenl + if 0 < remBytes lenl then 1 else 0) := by
  have hsplit := lenl_split c lenl
  have hrem := remBytes_lt lenl
  have hblock : nsb c lenl * superBlock c = 16 * (nsb c lenl * c.L) := Nat.mul_left_comm ..
  unfold chunkCount
  split <;> omega

/-! A measure of micro-operations over a list: their number, or the AES rounds they evaluate. -/

def total (μ : Instr → Nat) (is : List Instr) : Nat := (is.map μ).sum

theorem length_eq_total (is : List Instr) : is.length = total (fun _ => 1) is := by simp [total]

section
variable (μ : Instr → Nat)

@[simp] theorem total_nil : total μ [] = 0 := rfl

@[simp] theorem total_cons (i : Instr) (is : List Instr) : total μ (i :: is) = μ i + total μ is := by simp [total]

@[simp] theorem total_append (is js : List Instr) : total μ (is ++ js) = total μ is + total μ js := by simp [total]

variable {μ}

theorem total_flatMap_range {f : Nat → List Instr} {n w : Nat} (h : ∀ k < n, total μ (f k) = w) :
    total μ ((List.range n).flatMap f) = n * w := by
  induction n with
  | zero => simp
  | succ n ih =>
    rw [List.range_succ, List.flatMap_append, total_append, ih fun k hk => h k (by omega)]
    simp [h n (by omega), Nat.succ_mul]

theorem total_map_range {f : Nat → Instr} {n w : Nat} (h : ∀ k < n, μ (f k) = w) :
    total μ ((List.range n).map f) = n * w := by
  rw [List.map_eq_flatMap]
  exact total_flatMap_range fun k hk => by simp [h k hk]

/-- The bulk stage: the loads, the passes over the super-blocks after the first, and the last pass. -/
theorem total_bulkOps {c : Config} {lenl load mix last : Nat} (hn : 1 ≤ nsb c lenl)
    (hload : ∀ g < groups c, μ (.xord (field (g * c.G)) (field c.G)) = load)
    (hmix : ∀ g < groups c, total μ (mixDataOps (g * c.G) c.G) = mix)
    (hlast : ∀ g < groups c, total μ (mixZeroOps (g * c.G) c.G) = last) :
    total μ (bulkOps c lenl) = groups c * load + (nsb c lenl - 1) * (groups c * mix) + groups c * last := by
  rw [bulkOps, if_pos hn, total_append, total_append, total_map_range hload, total_flatMap_range hlast,
    total_flatMap_range fun _ _ => total_flatMap_range hmix]

/-- The tail: its groups, its single chunks and its final bytes. -/
theorem total_tailOps {c : Config} {lenl group single part : Nat}
    (hgroup : ∀ j < ntc c lenl / c.G, total μ (absorbOps (j * c.G) c.G) = group)
    (hsingle : ∀ j < ntc c lenl % c.G, total μ (absorbOps (ntc c lenl / c.G * c.G + j) 1) = single)
    (hpart : total μ (absorbPartOps (ntc c lenl)) = part) :
    total μ (tailOps c lenl) =
      ntc c lenl / c.G * group + ntc c lenl % c.G * single + if 0 < remBytes lenl then part else 0 := by
  rw [tailOps, total_append, total_append, total_flatMap_range hgroup, total_flatMap_range hsingle]
  split <;> simp [hpart]

theorem total_optSchedule (c : Config) (lenl : Nat) : total μ (optSchedule c lenl) =
    μ .ldseed + total μ (bulkOps c lenl) + total μ (tailOps c lenl) + total μ finalOps := by simp [optSchedule, Nat.add_assoc]

theorem total_refSchedule {c : Config} {lenl w : Nat} (h : ∀ k < chunkCount lenl, total μ (chunkOps c lenl k) = w) :
    total μ (refSchedule c lenl) = μ .ldseed + chunkCount lenl * w + total μ finalOps := by
  simp [refSchedule, total_flatMap_range h, Nat.add_assoc]

end

theorem bulkOps_of_none {c : Config} {lenl : Nat} (h : ¬1 ≤ nsb c lenl) : bulkOps c lenl = [] := if_neg h

/-! The number of micro-operations (43_sequencer_optimized R149, 44_reference_absorber R165). -/

theorem length_bulkOps (c : Config) (lenl : Nat) : (bulkOps c lenl).length = bulkSize c lenl := by
  by_cases hn : 1 ≤ nsb c lenl
  · rw [length_eq_total, bulkSize_of_pos hn, total_bulkOps hn (fun _ _ => rfl) (fun _ _ => rfl) fun _ _ => rfl]
    obtain ⟨n, hn'⟩ := Nat.exists_eq_add_of_le hn
    rw [hn', Nat.add_sub_cancel_left]
    change groups c * 1 + n * (groups c * 3) + groups c * 3 = _
    ring
  · simp [bulkOps_of_none hn, bulkSize, hn]

theorem length_tailOps (c : Config) (lenl : Nat) : (tailOps c lenl).length =
    4 * (ntc c lenl / c.G + ntc c lenl % c.G + if 0 < remBytes lenl then 1 else 0) := by
  rw [length_eq_total, total_tailOps (group := 4) (single := 4) (part := 4) (fun _ _ => rfl) (fun _ _ => rfl) rfl]
  split <;> ring

theorem length_optSchedule (c : Config) (lenl : Nat) : (optSchedule c lenl).length = optSize c lenl := by
  simp only [optSchedule, List.length_append, length_bulkOps, length_tailOps, optSize]
  simp only [finalOps, List.length_cons, List.length_nil]
  omega

theorem length_chunkOps (c : Config) (lenl k : Nat) : (chunkOps c lenl k).length = 4 := by
  unfold chunkOps
  split <;> rfl

theorem length_refSchedule (c : Config) (lenl : Nat) : (refSchedule c lenl).length = refSize lenl := by
  rw [length_eq_total, total_refSchedule (w := 4) fun k _ => by rw [← length_eq_total, length_chunkOps], refSize]
  change 1 + chunkCount lenl * 4 + 6 = _
  omega

theorem length_schedule (u : UnitId) (c : Config) (lenl : Nat) :
    (schedule u c lenl).length = scheduleSize u c lenl := by
  cases u with
  | opt => exact length_optSchedule c lenl
  | ref => exact length_refSchedule c lenl

/-! The AES rounds (R149, R165). -/

section
variable {lane cnt : Nat} (hcnt : cnt < 64)
include hcnt

theorem rounds_absorbOps : total roundCount (absorbOps lane cnt) = 3 * cnt := by
  simp [absorbOps, roundCount, field_toNat hcnt]
  omega

theorem rounds_mixDataOps : total roundCount (mixDataOps lane cnt) = 3 * cnt := by
  simp [mixDataOps, roundCount, field_toNat hcnt]
  omega

theorem rounds_mixZeroOps : total roundCount (mixZeroOps lane cnt) = 3 * cnt := by
  simp [mixZeroOps, roundCount, field_toNat hcnt]
  omega

end

/-- Every super-block takes three rounds per lane. -/
theorem rounds_bulkOps {c : Config} (hc : c.Valid) (lenl : Nat) :
    total roundCount (bulkOps c lenl) = 3 * (nsb c lenl * c.L) := by
  have hgroups := groups_mul hc
  obtain ⟨-, hL, -, hGL, -⟩ := hc
  have hG : c.G < 64 := by omega
  by_cases hn : 1 ≤ nsb c lenl
  · obtain ⟨n, hn'⟩ := Nat.exists_eq_add_of_le hn
    rw [total_bulkOps hn (fun _ _ => rfl) (fun _ _ => rounds_mixDataOps hG) fun _ _ => rounds_mixZeroOps hG, hn',
      Nat.add_sub_cancel_left, ← hgroups]
    change groups c * 0 + _ + _ = _
    ring
  · rw [bulkOps_of_none hn, total_nil]
    simp [show nsb c lenl = 0 by omega]

/-- Every chunk of the tail takes three rounds. -/
theorem rounds_tailOps {c : Config} (hc : c.Valid) (lenl : Nat) :
    total roundCount (tailOps c lenl) = 3 * (ntc c lenl + if 0 < remBytes lenl then 1 else 0) := by
  obtain ⟨-, hL, -, hGL, -⟩ := hc
  have hsplit : ntc c lenl / c.G * c.G + ntc c lenl % c.G = ntc c lenl := Nat.div_add_mod' ..
  rw [total_tailOps (fun _ _ => rounds_absorbOps (by omega)) (fun _ _ => rounds_absorbOps (by decide)) rfl]
  change _ + _ + (if _ then 3 else 0) = _
  rw [Nat.mul_left_comm]
  split <;> omega

theorem rounds_chunkOps (c : Config) (lenl k : Nat) : total roundCount (chunkOps c lenl k) = 3 := by
  unfold chunkOps
  split
  · rfl
  · exact rounds_absorbOps (by decide)

theorem rounds_schedule (u : UnitId) {c : Config} (hc : c.Valid) (lenl : Nat) :
    total roundCount (schedule u c lenl) = 3 * chunkCount lenl + 3 := by
  have hfinal : total roundCount finalOps = 3 := rfl
  have hseed : roundCount .ldseed = 0 := rfl
  cases u with
  | opt =>
    rw [schedule, total_optSchedule, rounds_bulkOps hc, rounds_tailOps hc, chunkCount_eq c, hfinal, hseed]
    ring
  | ref =>
    rw [schedule, total_refSchedule fun k _ => rounds_chunkOps c lenl k, hfinal, hseed]
    ring

end Sys2Proof.Machine

namespace Sys2Proof

open Sys2Proof.Machine

/-- Settles O51: each stage adds up its blocks, and the blocks of a stage are alike. -/
theorem scheduleSizes : Obligations.ScheduleSizes :=
  fun u c lenl hc hlen => ⟨length_schedule u c lenl, scheduleSize_lt u hc hlen, rounds_schedule u hc lenl⟩

end Sys2Proof
end

section
/-! SUPPORT. Operations on machines that differ only in the values of data and tables, one by one: the same branch is
taken, and what is left differs only there. The obligation O50. -/

namespace Sys2Proof.Machine

/-! Whether bytes can be delivered decides whether a read completes (45_host_operations R181). -/

theorem isSome_readBytes_succ (m : Message) (off n : Nat) : (m.readBytes off (n + 1)).isSome =
    ((m.read off).isSome && (m.readBytes (off + 1) n).isSome) := by
  rw [Message.readBytes]
  cases m.read off <;> cases m.readBytes (off + 1) n <;> rfl

theorem isSome_chunksAt_succ (m : Message) (off n : Nat) : (chunksAt m off (n + 1)).isSome =
    ((chunkAt m off).isSome && (chunksAt m (off + 16) n).isSome) := by
  rw [chunksAt]
  cases chunkAt m off <;> cases chunksAt m (off + 16) n <;> rfl

section
variable {m m' : Message} (h : ∀ a, (m.read a).isSome = (m'.read a).isSome)
include h

theorem isSome_readBytes_congr (off n : Nat) : (m.readBytes off n).isSome = (m'.readBytes off n).isSome := by
  induction n generalizing off with
  | zero => rfl
  | succ n ih => rw [isSome_readBytes_succ, isSome_readBytes_succ, h, ih]

theorem isSome_paddedChunkAt_congr (off rem : Nat) :
    (paddedChunkAt m off rem).isSome = (paddedChunkAt m' off rem).isSome := by
  rw [paddedChunkAt, paddedChunkAt, Option.isSome_map, Option.isSome_map, isSome_readBytes_congr h]

theorem isSome_chunksAt_congr (off n : Nat) : (chunksAt m off n).isSome = (chunksAt m' off n).isSome := by
  induction n generalizing off with
  | zero => rfl
  | succ n ih =>
    have hchunk : (chunkAt m off).isSome = (chunkAt m' off).isSome := isSome_paddedChunkAt_congr h off 16
    rw [isSome_chunksAt_succ, isSome_chunksAt_succ, hchunk, ih]

theorem isSome_read_write_congr (a o : Nat) (b : Byte) :
    ((m.write a b).read o).isSome = ((m'.write a b).read o).isSome := by
  rcases eq_or_ne o a with rfl | hne
  · rw [read_write_same, read_write_same]
  · rw [read_write_of_ne _ _ hne, read_write_of_ne _ _ hne, h]

end

/-! One unit, its datapath and its sequencer. -/

namespace SameControlUnit

variable {x y : UnitState}

theorem flagsFaulted (h : SameControlUnit x y) (k : Cause) :
    SameControlUnit (Machine.flagsFaulted k x) (Machine.flagsFaulted k y) := by
  obtain ⟨hlanes, hdigest, -, hdone, hfault, hfcause, hrest⟩ := h
  exact ⟨hlanes, hdigest, rfl, hdone, rfl, by rw [flagsFaulted_fcause, flagsFaulted_fcause, hfault, hfcause], hrest⟩

theorem lanesWritten (h : SameControlUnit x y) {cur cur' : Nat} (hcur : cur = cur') (ls ls' : List Byte16)
    (pad pad' len len' : Byte16) :
    SameControlUnit { x with lanes := some ls, cur := cur, padbuf := pad, lenbuf := len }
      { y with lanes := some ls', cur := cur', padbuf := pad', lenbuf := len' } := by
  obtain ⟨-, hdigest, hbusy, hdone, hfault, hfcause, hupc, -, hrest⟩ := h
  exact ⟨rfl, hdigest, hbusy, hdone, hfault, hfcause, hupc, hcur, hrest⟩

theorem finished (h : SameControlUnit x y) (d d' : Byte16) :
    SameControlUnit (flagsFinished { x with digest := some d }) (flagsFinished { y with digest := some d' }) := by
  obtain ⟨hlanes, -, -, -, hrest⟩ := h
  exact ⟨hlanes, rfl, rfl, rfl, hrest⟩

theorem counted (h : SameControlUnit x y) :
    SameControlUnit { x with upc := x.upc + 1 } { y with upc := y.upc + 1 } := by
  obtain ⟨hlanes, hdigest, hbusy, hdone, hfault, hfcause, hupc, hrest⟩ := h
  exact ⟨hlanes, hdigest, hbusy, hdone, hfault, hfcause, congrArg (· + 1) hupc, hrest⟩

theorem placed (h : SameControlUnit x y) (q : SeqRegs) : SameControlUnit { x with seq := q } { y with seq := q } := by
  obtain ⟨hlanes, hdigest, hbusy, hdone, hfault, hfcause, hupc, hcur, hlenl, -, hread⟩ := h
  exact ⟨hlanes, hdigest, hbusy, hdone, hfault, hfcause, hupc, hcur, hlenl, rfl, hread⟩

theorem presented (h : SameControlUnit x y) (off : Nat) (b : Byte) :
    SameControlUnit { x with msg := x.msg.write off b } { y with msg := y.msg.write off b } := by
  obtain ⟨hlanes, hdigest, hbusy, hdone, hfault, hfcause, hupc, hcur, hlenl, hseq, hread⟩ := h
  exact ⟨hlanes, hdigest, hbusy, hdone, hfault, hfcause, hupc, hcur, hlenl, hseq,
    fun a => isSome_read_write_congr hread off a b⟩

theorem resetWith (h : SameControlUnit x y) :
    SameControlUnit (UnitState.resetWith x.msg) (UnitState.resetWith y.msg) := by
  obtain ⟨-, -, -, -, -, -, -, -, -, -, hread⟩ := h
  exact ⟨rfl, rfl, rfl, rfl, rfl, rfl, rfl, rfl, rfl, rfl, hread⟩

theorem started (h : SameControlUnit x y) (len : Nat) : SameControlUnit
    (flagsStarted { x with
      lenl := len, cur := 0, upc := 0, lanes := none, digest := none, seq := { x.seq with point := .init } })
    (flagsStarted { y with
      lenl := len, cur := 0, upc := 0, lanes := none, digest := none, seq := { y.seq with point := .init } }) := by
  obtain ⟨-, -, -, -, hfault, hfcause, -, -, -, hseq, hread⟩ := h
  exact ⟨rfl, rfl, rfl, rfl, hfault, hfcause, rfl, rfl, rfl, by simp only [flagsStarted, hseq], hread⟩

end SameControlUnit

/-- Two results of a micro-operation that differ at most in the values of data. -/
def SameResult : UopResult → UopResult → Prop
  | .done x, .done y => SameControlUnit x y
  | .fault k, .fault k' => k = k'
  | .wait, .wait => True
  | _, _ => False

namespace SameResult

variable {x y : UnitState}

theorem require {ok ok' : Bool} (hok : ok = ok') (k : Cause) {r r' : UopResult} (h : SameResult r r') :
    SameResult (Machine.require ok k r) (Machine.require ok' k r') := by
  subst hok
  cases ok
  · exact rfl
  · exact h

theorem withLanes (h : SameControlUnit x y) {k k' : List Byte16 → UopResult}
    (hk : ∀ ls ls', SameResult (k ls) (k' ls')) : SameResult (Machine.withLanes x k) (Machine.withLanes y k') := by
  obtain ⟨hlanes, -⟩ := h
  cases hx : x.lanes <;> cases hy : y.lanes <;> rw [hx, hy] at hlanes
  case none.none =>
    rw [withLanes_none hx, withLanes_none hy]
    exact rfl
  case some.some =>
    rw [withLanes_some hx, withLanes_some hy]
    exact hk _ _
  all_goals cases hlanes

theorem withData {α : Type} {d d' : Option α} (h : d.isSome = d'.isSome) {k k' : α → UopResult}
    (hk : ∀ v v', SameResult (k v) (k' v')) : SameResult (Machine.withData d k) (Machine.withData d' k') := by
  cases d <;> cases d'
  case none.none => trivial
  case some.some => exact hk _ _
  all_goals cases h

theorem fixedRound (h : SameControlUnit x y) (key : Config → Nat → Byte16) (lane cnt : BitVec 6) {c c' : Config}
    (hL : c.L = c'.L) : SameResult (Machine.fixedRound key lane cnt c x) (Machine.fixedRound key lane cnt c' y) := by
  have ⟨_, _, _, _, _, _, _, hcur, _⟩ := h
  exact require (by rw [hL]) _ <| withLanes h fun _ _ => h.lanesWritten hcur ..

theorem takeChunks (h : SameControlUnit x y) (f : Byte16 → Byte16 → Byte16) (lane cnt : BitVec 6) {c c' : Config}
    (hL : c.L = c'.L) : SameResult (Machine.takeChunks f lane cnt c x) (Machine.takeChunks f lane cnt c' y) := by
  have ⟨_, _, _, _, _, _, _, hcur, hlenl, _, hread⟩ := h
  exact require (by rw [hL]) _ <| withLanes h fun _ _ => require (by rw [hcur, hlenl]) _ <|
    withData (by rw [hcur, isSome_chunksAt_congr hread]) fun _ _ => h.lanesWritten (by rw [hcur]) ..

theorem xorpEffect (h : SameControlUnit x y) (lane : BitVec 6) {c c' : Config} (hL : c.L = c'.L) :
    SameResult (Machine.xorpEffect lane c x) (Machine.xorpEffect lane c' y) := by
  have ⟨_, _, _, _, _, _, _, hcur, hlenl, _, hread⟩ := h
  exact require (by rw [hL]) _ <| withLanes h fun _ _ => require (by rw [hcur, hlenl]) _ <|
    withData (by rw [hcur, hlenl, isSome_paddedChunkAt_congr hread]) fun _ _ => h.lanesWritten hlenl ..

/-- A micro-operation takes its branches by control alone: the operands, the cursor, whether lanes and bytes have
values (60_exceptions R186). -/
theorem effectOf (h : SameControlUnit x y) (i : Instr) {c c' : Config} (hL : c.L = c'.L) :
    SameResult (Machine.effectOf i c x) (Machine.effectOf i c' y) := by
  have ⟨_, _, _, _, _, _, _, hcur, _⟩ := h
  cases i with
  | ldseed => exact h.lanesWritten hcur ..
  | xord lane cnt => exact takeChunks h _ lane cnt hL
  | rndd lane cnt => exact takeChunks h _ lane cnt hL
  | xorp lane => exact xorpEffect h lane hL
  | rndf lane cnt => exact fixedRound h roundKeyAt lane cnt hL
  | rndz lane cnt => exact fixedRound h (fun _ _ => zero16) lane cnt hL
  | rndk lane cnt => exact fixedRound h (fun c _ => c.fk) lane cnt hL
  | fold => exact withLanes h fun _ _ => h.lanesWritten hcur ..
  | lenx => exact withLanes h fun _ _ => h.lanesWritten hcur ..
  | out => exact withLanes h fun _ _ => h.finished ..
  | _ => exact rfl

theorem leaves (h : SameControlUnit x y) {r r' : UopResult} (hr : SameResult r r') :
    SameControlUnit (r.leaves x) (r'.leaves y) := by
  cases r <;> cases r' <;> try exact hr.elim
  case done.done => exact SameControlUnit.counted hr
  case fault.fault k k' =>
    obtain rfl : k = k' := hr
    exact h.flagsFaulted k
  case wait.wait => exact h

end SameResult

namespace SameControlUnit

variable {x y : UnitState} {c c' : Config}

theorem wordLeaves (h : SameControlUnit x y) (w : BitVec 16) (hL : c.L = c'.L) :
    SameControlUnit (Machine.wordLeaves w c x) (Machine.wordLeaves w c' y) := by
  cases hw : decodeWord w with
  | ok i =>
    rw [wordLeaves_of_ok hw, wordLeaves_of_ok hw]
    exact SameResult.leaves h (SameResult.effectOf h i hL)
  | error e =>
    rw [wordLeaves_of_error hw, wordLeaves_of_error hw]
    exact h.flagsFaulted _

theorem advanced {x' y' : UnitState} (h : SameControlUnit x y) (h' : SameControlUnit x' y') (q : SeqRegs) :
    SameControlUnit (Machine.advanced q x x') (Machine.advanced q y y') := by
  have ⟨_, _, _, _, _, _, hupc, _⟩ := h
  have ⟨_, _, _, _, _, _, hupc', _⟩ := h'
  have hiff : x'.upc = x.upc + 1 ↔ y'.upc = y.upc + 1 := by rw [hupc, hupc']
  unfold Machine.advanced
  by_cases hdone : y'.upc = y.upc + 1
  · rw [if_pos (hiff.2 hdone), if_pos hdone]
    exact h'.placed q
  · rw [if_neg (hdone ∘ hiff.1), if_neg hdone]
    exact h'

end SameControlUnit

/-- The schedules read `L` and `G` and no table (43_sequencer_optimized R147). -/
theorem optIssue_congr {c c' : Config} (hL : c.L = c'.L) (hG : c.G = c'.G) : optIssue c = optIssue c' := by
  cases c
  cases c'
  cases hL
  cases hG
  rfl

theorem refIssue_congr {c c' : Config} (hL : c.L = c'.L) : refIssue c = refIssue c' := by
  cases c
  cases c'
  cases hL
  rfl

theorem issue_congr {x y : UnitState} {c c' : Config} (u : UnitId) (h : SameControlUnit x y) (hL : c.L = c'.L)
    (hG : c.G = c'.G) : issue u c x = issue u c' y := by
  obtain ⟨-, -, -, -, -, -, -, hcur, hlenl, hseq, -⟩ := h
  cases u with
  | opt => rw [issue, issue, optIssue_congr hL hG, hcur, hlenl, hseq]
  | ref => rw [issue, issue, refIssue_congr hL, hlenl, hseq]

/-! The machine. -/

theorem start_of_fault {s : State} {u : UnitId} (hf : (s.unit u).fault = true) : s.start u = s := by
  simp [State.start, hf]

theorem start_of_busy {s : State} {u : UnitId} (hf : (s.unit u).fault = false) (hb : (s.unit u).busy = true) :
    s.start u = s.raise u .hostProtocol := by simp [State.start, hf, hb]

theorem start_of_idle {s : State} {u : UnitId} (hf : (s.unit u).fault = false) (hb : (s.unit u).busy = false) :
    s.start u = s.setUnit u (flagsStarted { s.unit u with
      lenl := s.len, cur := 0, upc := 0, lanes := none, digest := none,
      seq := { (s.unit u).seq with point := .init } }) := by simp [State.start, hf, hb]

/-- Where `o` goes on, `o'` goes on alike. -/
def FollowsAlike (o o' : Host.Outcome State Fault Refusal) : Prop :=
  ∀ t, o = .next t → ∃ t', o' = .next t' ∧ SameControl t t'

theorem FollowsAlike.next {t t' : State} (h : SameControl t t') : FollowsAlike (.next t) (.next t') := by
  rintro _ ⟨⟩
  exact ⟨t', rfl, h⟩

theorem FollowsAlike.refused (r : Refusal) (o : Host.Outcome State Fault Refusal) : FollowsAlike (.refused r) o := by
  rintro _ ⟨⟩

namespace SameControl

variable {s s' : State}

theorem unit (h : SameControl s s') (u : UnitId) : SameControlUnit (s.unit u) (s'.unit u) := by
  obtain ⟨-, -, hopt, href, -⟩ := h
  cases u with
  | opt => exact hopt
  | ref => exact href

theorem setUnit (h : SameControl s s') (u : UnitId) {x y : UnitState} (hx : SameControlUnit x y) :
    SameControl (s.setUnit u x) (s'.setUnit u y) := by
  obtain ⟨hL, hG, hopt, href, hrest⟩ := h
  cases u with
  | opt => exact ⟨hL, hG, hx, href, hrest⟩
  | ref => exact ⟨hL, hG, hopt, hx, hrest⟩

theorem setActive (h : SameControl s s') (u : UnitId) :
    SameControl { s with active := u } { s' with active := u } := by
  obtain ⟨hL, hG, hopt, href, hlo, hhi, -, hrest⟩ := h
  exact ⟨hL, hG, hopt, href, hlo, hhi, rfl, hrest⟩

theorem setMoves (h : SameControl s s') (ms : List Move) : SameControl { s with moves := ms } { s' with moves := ms } := by
  obtain ⟨hL, hG, hopt, href, hlo, hhi, hactive, -, hdraws⟩ := h
  exact ⟨hL, hG, hopt, href, hlo, hhi, hactive, rfl, hdraws⟩

theorem drawn (h : SameControl s s') :
    SameControl { s with draws := s.draws + 1 } { s' with draws := s'.draws + 1 } := by
  obtain ⟨hL, hG, hopt, href, hlo, hhi, hactive, hmoves, hdraws⟩ := h
  exact ⟨hL, hG, hopt, href, hlo, hhi, hactive, hmoves, congrArg (· + 1) hdraws⟩

theorem setLenLo (h : SameControl s s') (v : BitVec 32) : SameControl { s with lenLo := v } { s' with lenLo := v } := by
  obtain ⟨hL, hG, hopt, href, -, hrest⟩ := h
  exact ⟨hL, hG, hopt, href, rfl, hrest⟩

theorem setLenHi (h : SameControl s s') (v : BitVec 32) : SameControl { s with lenHi := v } { s' with lenHi := v } := by
  obtain ⟨hL, hG, hopt, href, hlo, -, hrest⟩ := h
  exact ⟨hL, hG, hopt, href, hlo, rfl, hrest⟩

/-- The word last read is data. -/
theorem setRdata (h : SameControl s s') (v v' : BitVec 32) :
    SameControl { s with rdata := v } { s' with rdata := v' } := h

theorem raise (h : SameControl s s') (u : UnitId) (k : Cause) : SameControl (s.raise u k) (s'.raise u k) :=
  h.setUnit u ((h.unit u).flagsFaulted k)

theorem len (h : SameControl s s') : s.len = s'.len := by
  obtain ⟨-, -, -, -, hlo, hhi, -⟩ := h
  rw [State.len, State.len, hlo, hhi]

theorem start (h : SameControl s s') (u : UnitId) : SameControl (s.start u) (s'.start u) := by
  have ⟨_, _, hbusy, _, hfault, _⟩ := h.unit u
  cases hf : (s.unit u).fault
  · cases hb : (s.unit u).busy
    · rw [start_of_idle hf hb, start_of_idle (hfault ▸ hf) (hbusy ▸ hb), ← h.len]
      exact h.setUnit u ((h.unit u).started _)
    · rw [start_of_busy hf hb, start_of_busy (hfault ▸ hf) (hbusy ▸ hb)]
      exact h.raise u _
  · rw [start_of_fault hf, start_of_fault (hfault ▸ hf)]
    exact h

theorem resetNow (h : SameControl s s') : SameControl s.resetNow s'.resetNow := by
  obtain ⟨hL, hG, hopt, href, -, -, -, hmoves, hdraws⟩ := h
  exact ⟨hL, hG, hopt.resetWith, href.resetWith, rfl, rfl, rfl, hmoves, hdraws⟩

theorem ctrlWrite (h : SameControl s s') (v : BitVec 32) :
    FollowsAlike (Machine.ctrlWrite v s) (Machine.ctrlWrite v s') := by
  cases hv : decodeCommand v with
  | error e =>
    simp only [Machine.ctrlWrite, hv]
    exact .next h
  | ok i =>
    obtain ⟨-, hbits, -⟩ := encode_of_decodeCommand hv
    rw [ctrlWrite_of_ok _ hv, ctrlWrite_of_ok _ hv]
    cases i with
    | startOpt withRef ignored =>
      refine .next ?_
      split
      · exact (h.start .opt).start .ref
      · exact h.start .opt
    | startRef ignored => exact .next (h.start .ref)
    | _ => exact absurd hbits (show ¬16 = 32 by decide)

theorem regWrite (h : SameControl s s') (off : BitVec 7) (v : BitVec 32) :
    FollowsAlike (Machine.regWrite off v s) (Machine.regWrite off v s') := by
  unfold Machine.regWrite
  split
  · split
    · exact h.ctrlWrite v
    · exact .next (h.setLenLo v)
    · exact .next (h.setLenHi v)
    · exact .next h
  · exact .refused _ _

end SameControl

/-- Two register values of which both are words or both are unspecified. -/
def SameKind : RegValue → RegValue → Prop
  | .word _, .word _ => True
  | .unspecified, .unspecified => True
  | _, _ => False

theorem SameControlUnit.digestWord {x y : UnitState} (h : SameControlUnit x y) (k : Nat) :
    SameKind (Machine.digestWord x k) (Machine.digestWord y k) := by
  obtain ⟨-, hdigest, -, hdone, -⟩ := h
  unfold Machine.digestWord
  rw [hdone]
  cases y.done <;> cases hx : x.digest <;> cases hy : y.digest <;> rw [hx, hy] at hdigest <;> trivial

namespace SameControl

variable {s s' : State}

theorem regValue (h : SameControl s s') (off : BitVec 7) : SameKind (Machine.regValue s off) (Machine.regValue s' off) := by
  have hopt := fun k => (h.unit .opt).digestWord k
  have href := fun k => (h.unit .ref).digestWord k
  unfold Machine.regValue
  split
  case h_5 | h_6 | h_7 | h_8 => exact hopt _
  case h_9 | h_10 | h_11 | h_12 => exact href _
  all_goals trivial

theorem regRead (h : SameControl s s') (off : BitVec 7) :
    FollowsAlike (Machine.regRead off s) (Machine.regRead off s') := by
  have hkind := h.regValue off
  unfold Machine.regRead
  split
  · cases hv : Machine.regValue s off <;> cases hv' : Machine.regValue s' off <;> rw [hv, hv'] at hkind
    case word.word => exact .next (h.setRdata _ _)
    case unspecified.unspecified => exact .next (h.drawn.setRdata _ _)
    all_goals exact hkind.elim
  · exact .refused _ _

theorem placeByte (h : SameControl s s') (u : UnitId) (off : BitVec 64) (b : Byte) :
    FollowsAlike (Machine.placeByte u off b s) (Machine.placeByte u off b s') := by
  have ⟨_, _, hbusy, _⟩ := h.unit u
  unfold Machine.placeByte
  rw [hbusy]
  split
  · exact .refused _ _
  · exact .next (h.setUnit u ((h.unit u).presented ..))

theorem handWord (h : SameControl s s') (u : UnitId) (w : BitVec 16) :
    FollowsAlike (Machine.handWord u w s) (Machine.handWord u w s') := by
  have ⟨hL, _⟩ := h
  rw [handWord_eq_wordLeaves, handWord_eq_wordLeaves]
  exact .next ((h.setActive u).setUnit u ((h.unit u).wordLeaves w hL))

theorem sequencerStep (h : SameControl s s') (u : UnitId) :
    FollowsAlike (Machine.sequencerStep u s) (Machine.sequencerStep u s') := by
  have ⟨hL, hG, _⟩ := h
  have ⟨_, _, hbusy, _⟩ := h.unit u
  have hissue := issue_congr u (h.unit u) hL hG
  rcases sequencerStep_cases u s with ⟨hb, -⟩ | ⟨hb, k, hi, -⟩ | ⟨-, -, he⟩ | ⟨hb, i, q, hi, -⟩
  · rw [sequencerStep_of_idle hb, sequencerStep_of_idle (hbusy ▸ hb)]
    exact .next h
  · rw [sequencerStep_of_fault hb hi, sequencerStep_of_fault (hbusy ▸ hb) (hissue ▸ hi)]
    exact .next (h.raise u k)
  · rw [he]
    rintro _ ⟨⟩
  · rw [sequencerStep_of_uop hb hi, sequencerStep_of_uop (hbusy ▸ hb) (hissue ▸ hi)]
    exact .next ((h.setActive u).setUnit u ((h.unit u).advanced ((h.unit u).wordLeaves _ hL) q))

theorem act (h : SameControl s s') (m : Move) : FollowsAlike (Machine.act m s) (Machine.act m s') := by
  cases m with
  | regWrite off v => exact h.regWrite off v
  | regRead off => exact h.regRead off
  | sequence u => exact h.sequencerStep u
  | hand u w =>
    have ⟨_, _, hbusy, _⟩ := h.unit u
    simp only [Machine.act, ← hbusy]
    split
    · exact h.handWord u w
    · exact .next h
  | place u off b => exact h.placeByte u off b
  | reset => exact .next h.resetNow

/-- Who steps is drawn by the same counter (44_reference_absorber R166). -/
theorem onItsOwn (h : SameControl s s') : FollowsAlike (Machine.onItsOwn s) (Machine.onItsOwn s') := by
  have ⟨_, _, hopt, href, _, _, _, _, hdraws⟩ := h
  have ⟨_, _, hobusy, _⟩ := hopt
  have ⟨_, _, hrbusy, _⟩ := href
  unfold Machine.onItsOwn
  have hdrawn := h.drawn
  rw [← hdraws] at hdrawn
  rw [← hobusy, ← hrbusy, ← hdraws]
  split
  · exact hdrawn.sequencerStep _
  · exact h.sequencerStep _
  · exact h.sequencerStep _
  · exact .next h

end SameControl

end Sys2Proof.Machine

namespace Sys2Proof

open Sys2Proof.Machine

/-- Settles O50: a step is the first pending move or a busy unit's own step, and each follows control alone. -/
theorem controlIsIndependentOfData : Obligations.ControlIsIndependentOfData := by
  intro s s' t h hs
  have ⟨_, _, _, _, _, _, _, hmoves, _⟩ := h
  cases hm : s.moves with
  | nil =>
    rw [step_nil (hmoves ▸ hm)]
    exact h.onItsOwn t (step_nil hm ▸ hs)
  | cons m rest =>
    rw [step_cons (hmoves ▸ hm)]
    exact (h.setMoves rest).act m t (step_cons hm ▸ hs)

end Sys2Proof
end

section
/-! SUPPORT. The moves of the two sequencers, one constructor per place and branch of the procedures, and what each move
does to the place's ranges, cursor and index. -/

namespace Sys2Proof.Machine

/-! The moves (43_sequencer_optimized R130, R143; 44_reference_absorber R160). -/

/-- FINAL: from place `q` the micro-operation `i` is issued, and then the sequencer stands at `q'`. -/
inductive FinalIssues : SeqRegs → Instr → SeqRegs → Prop
  | fold {q : SeqRegs} (hp : q.point = .fold) : FinalIssues q .fold { q with point := .lenx }
  | lenx {q : SeqRegs} (hp : q.point = .lenx) : FinalIssues q .lenx { q with point := .key1 }
  | key1 {q : SeqRegs} (hp : q.point = .key1) : FinalIssues q (.rndk 0 1) { q with point := .key2 }
  | key2 {q : SeqRegs} (hp : q.point = .key2) : FinalIssues q (.rndk 0 1) { q with point := .white }
  | white {q : SeqRegs} (hp : q.point = .white) : FinalIssues q (.rndz 0 1) { q with point := .out }
  | out {q : SeqRegs} (hp : q.point = .out) : FinalIssues q .out { q with point := .stop }

/-- The tests of TAIL that issue nothing: from place `q` on the procedure is the same as from `q'` on. -/
inductive OptSettles (c : Config) (lenl : Nat) : SeqRegs → SeqRegs → Prop
  | tail {q : SeqRegs} (hp : q.point = .tailEntry) : OptSettles c lenl q { q with point := .groupTest, tl := 0 }
  | groups {q : SeqRegs} (hp : q.point = .groupTest) (h : ntc c lenl < q.tl + c.G) :
    OptSettles c lenl q { q with point := .singleTest }
  | singles {q : SeqRegs} (hp : q.point = .singleTest) (h : ntc c lenl ≤ q.tl) (hrem : remBytes lenl = 0) :
    OptSettles c lenl q { q with point := .fold }

/-- OPT_SCHEDULE: from place `q` the micro-operation `i` is issued, and then the sequencer stands at `q'`. -/
inductive OptIssues (c : Config) (lenl : Nat) : SeqRegs → Instr → SeqRegs → Prop
  | initBulk {q : SeqRegs} (hp : q.point = .init) (hn : 1 ≤ nsb c lenl) :
    OptIssues c lenl q .ldseed { q with point := .bulkLoad, gi := 0 }
  | initTail {q : SeqRegs} (hp : q.point = .init) (hn : nsb c lenl = 0) :
    OptIssues c lenl q .ldseed { q with point := .tailEntry }
  | loadNext {q : SeqRegs} (hp : q.point = .bulkLoad) (hg : q.gi + 1 < groups c) :
    OptIssues c lenl q (.xord (field (q.gi * c.G)) (field c.G)) { q with gi := q.gi + 1, point := .bulkLoad }
  | loadLoop {q : SeqRegs} (hp : q.point = .bulkLoad) (hg : groups c ≤ q.gi + 1) (hn : 1 < nsb c lenl) :
    OptIssues c lenl q (.xord (field (q.gi * c.G)) (field c.G)) { q with sb := 1, gi := 0, point := .loopRnd1 }
  | loadPost {q : SeqRegs} (hp : q.point = .bulkLoad) (hg : groups c ≤ q.gi + 1) (hn : nsb c lenl ≤ 1) :
    OptIssues c lenl q (.xord (field (q.gi * c.G)) (field c.G)) { q with sb := 1, gi := 0, point := .postRnd1 }
  | loopRnd1 {q : SeqRegs} (hp : q.point = .loopRnd1) :
    OptIssues c lenl q (.rndf (field (q.gi * c.G)) (field c.G)) { q with point := .loopRnd2 }
  | loopRnd2 {q : SeqRegs} (hp : q.point = .loopRnd2) :
    OptIssues c lenl q (.rndf (field (q.gi * c.G)) (field c.G)) { q with point := .loopData }
  | loopNext {q : SeqRegs} (hp : q.point = .loopData) (hg : q.gi + 1 < groups c) :
    OptIssues c lenl q (.rndd (field (q.gi * c.G)) (field c.G)) { q with gi := q.gi + 1, point := .loopRnd1 }
  | loopLoop {q : SeqRegs} (hp : q.point = .loopData) (hg : groups c ≤ q.gi + 1) (hn : q.sb + 1 < nsb c lenl) :
    OptIssues c lenl q (.rndd (field (q.gi * c.G)) (field c.G)) { q with sb := q.sb + 1, gi := 0, point := .loopRnd1 }
  | loopPost {q : SeqRegs} (hp : q.point = .loopData) (hg : groups c ≤ q.gi + 1) (hn : nsb c lenl ≤ q.sb + 1) :
    OptIssues c lenl q (.rndd (field (q.gi * c.G)) (field c.G)) { q with sb := q.sb + 1, gi := 0, point := .postRnd1 }
  | postRnd1 {q : SeqRegs} (hp : q.point = .postRnd1) :
    OptIssues c lenl q (.rndf (field (q.gi * c.G)) (field c.G)) { q with point := .postRnd2 }
  | postRnd2 {q : SeqRegs} (hp : q.point = .postRnd2) :
    OptIssues c lenl q (.rndf (field (q.gi * c.G)) (field c.G)) { q with point := .postZero }
  | postNext {q : SeqRegs} (hp : q.point = .postZero) (hg : q.gi + 1 < groups c) :
    OptIssues c lenl q (.rndz (field (q.gi * c.G)) (field c.G)) { q with gi := q.gi + 1, point := .postRnd1 }
  | postTail {q : SeqRegs} (hp : q.point = .postZero) (hg : groups c ≤ q.gi + 1) :
    OptIssues c lenl q (.rndz (field (q.gi * c.G)) (field c.G)) { q with point := .tailEntry }
  | settle {q r q' : SeqRegs} {i : Instr} (hs : OptSettles c lenl q r) (h : OptIssues c lenl r i q') :
    OptIssues c lenl q i q'
  | groupLoad {q : SeqRegs} (hp : q.point = .groupTest) (h : q.tl + c.G ≤ ntc c lenl) :
    OptIssues c lenl q (.xord (field q.tl) (field c.G)) { q with point := .groupRnd1 }
  | groupRnd1 {q : SeqRegs} (hp : q.point = .groupRnd1) :
    OptIssues c lenl q (.rndf (field q.tl) (field c.G)) { q with point := .groupRnd2 }
  | groupRnd2 {q : SeqRegs} (hp : q.point = .groupRnd2) :
    OptIssues c lenl q (.rndf (field q.tl) (field c.G)) { q with point := .groupZero }
  | groupZero {q : SeqRegs} (hp : q.point = .groupZero) :
    OptIssues c lenl q (.rndz (field q.tl) (field c.G)) { q with point := .groupTest, tl := q.tl + c.G }
  | singleLoad {q : SeqRegs} (hp : q.point = .singleTest) (h : q.tl + 1 ≤ ntc c lenl) :
    OptIssues c lenl q (.xord (field q.tl) 1) { q with point := .singleRnd1 }
  | singleRnd1 {q : SeqRegs} (hp : q.point = .singleRnd1) :
    OptIssues c lenl q (.rndf (field q.tl) 1) { q with point := .singleRnd2 }
  | singleRnd2 {q : SeqRegs} (hp : q.point = .singleRnd2) :
    OptIssues c lenl q (.rndf (field q.tl) 1) { q with point := .singleZero }
  | singleZero {q : SeqRegs} (hp : q.point = .singleZero) :
    OptIssues c lenl q (.rndz (field q.tl) 1) { q with point := .singleTest, tl := q.tl + 1 }
  | partLoad {q : SeqRegs} (hp : q.point = .singleTest) (h : ntc c lenl ≤ q.tl) (hrem : 0 < remBytes lenl) :
    OptIssues c lenl q (.xorp (field q.tl)) { q with point := .partRnd1 }
  | partRnd1 {q : SeqRegs} (hp : q.point = .partRnd1) :
    OptIssues c lenl q (.rndf (field q.tl) 1) { q with point := .partRnd2 }
  | partRnd2 {q : SeqRegs} (hp : q.point = .partRnd2) :
    OptIssues c lenl q (.rndf (field q.tl) 1) { q with point := .partZero }
  | partZero {q : SeqRegs} (hp : q.point = .partZero) :
    OptIssues c lenl q (.rndz (field q.tl) 1) { q with point := .fold }
  | final {q q' : SeqRegs} {i : Instr} (h : FinalIssues q i q') : OptIssues c lenl q i q'

/-- REF_SCHEDULE: from place `q` the micro-operation `i` is issued, and then the sequencer stands at `q'`. -/
inductive RefIssues (c : Config) (lenl : Nat) : SeqRegs → Instr → SeqRegs → Prop
  | initChunk {q : SeqRegs} (hp : q.point = .init) (hn : 0 < chunkCount lenl) :
    RefIssues c lenl q .ldseed { q with k := 0, point := .chunkLoad }
  | initFold {q : SeqRegs} (hp : q.point = .init) (hn : chunkCount lenl = 0) :
    RefIssues c lenl q .ldseed { q with k := 0, point := .fold }
  | loadFull {q : SeqRegs} (hp : q.point = .chunkLoad) (h : ¬(q.k + 1 = chunkCount lenl ∧ 0 < remBytes lenl)) :
    RefIssues c lenl q (.xord (field (q.k % c.L)) 1) { q with point := .chunkRnd1 }
  | loadPart {q : SeqRegs} (hp : q.point = .chunkLoad) (h : q.k + 1 = chunkCount lenl ∧ 0 < remBytes lenl) :
    RefIssues c lenl q (.xorp (field (q.k % c.L))) { q with point := .chunkRnd1 }
  | rnd1 {q : SeqRegs} (hp : q.point = .chunkRnd1) :
    RefIssues c lenl q (.rndf (field (q.k % c.L)) 1) { q with point := .chunkRnd2 }
  | rnd2 {q : SeqRegs} (hp : q.point = .chunkRnd2) :
    RefIssues c lenl q (.rndf (field (q.k % c.L)) 1) { q with point := .chunkZero }
  | zeroNext {q : SeqRegs} (hp : q.point = .chunkZero) (hn : q.k + 1 < chunkCount lenl) :
    RefIssues c lenl q (.rndz (field (q.k % c.L)) 1) { q with k := q.k + 1, point := .chunkLoad }
  | zeroFold {q : SeqRegs} (hp : q.point = .chunkZero) (hn : chunkCount lenl ≤ q.k + 1) :
    RefIssues c lenl q (.rndz (field (q.k % c.L)) 1) { q with k := q.k + 1, point := .fold }
  | final {q q' : SeqRegs} {i : Instr} (h : FinalIssues q i q') : RefIssues c lenl q i q'

/-! Each sequencer's step is one of its moves. -/

section
variable {c : Config} {lenl : Nat}

theorem with_own_point {q : SeqRegs} {p : SeqPoint} (hp : q.point = p) : { q with point := p } = q := by
  rw [← hp]

theorem issueFinal_issues {q : SeqRegs}
    (h : q.point = .fold ∨ q.point = .lenx ∨ q.point = .key1 ∨ q.point = .key2 ∨ q.point = .white ∨ q.point = .out) :
    ∃ i q', issueFinal q = .uop i q' ∧ FinalIssues q i q' := by
  unfold issueFinal
  rcases h with hp | hp | hp | hp | hp | hp <;> rw [hp]
  · exact ⟨_, _, rfl, .fold hp⟩
  · exact ⟨_, _, rfl, .lenx hp⟩
  · exact ⟨_, _, rfl, .key1 hp⟩
  · exact ⟨_, _, rfl, .key2 hp⟩
  · exact ⟨_, _, rfl, .white hp⟩
  · exact ⟨_, _, rfl, .out hp⟩

theorem issuePart_issues {q : SeqRegs} (h : ntc c lenl ≤ q.tl) :
    ∃ i q', issuePart lenl q = .uop i q' ∧ OptIssues c lenl { q with point := .singleTest } i q' := by
  unfold issuePart
  split
  case isTrue hrem => exact ⟨_, _, rfl, .partLoad rfl h hrem⟩
  case isFalse hrem => exact ⟨_, _, rfl, .settle (.singles rfl h (by omega)) (.final (.fold rfl))⟩

theorem issueSingle_issues (q : SeqRegs) :
    ∃ i q', issueSingle c lenl q = .uop i q' ∧ OptIssues c lenl { q with point := .singleTest } i q' := by
  unfold issueSingle
  split
  case isTrue h => exact ⟨_, _, rfl, .singleLoad rfl (by simp only; omega)⟩
  case isFalse h => exact issuePart_issues (by omega)

theorem issueGroup_issues (hG : 1 ≤ c.G) (q : SeqRegs) :
    ∃ i q', issueGroup c lenl q = .uop i q' ∧ OptIssues c lenl { q with point := .groupTest } i q' := by
  unfold issueGroup
  split
  case isTrue h => exact ⟨_, _, rfl, .groupLoad rfl (by simp only; omega)⟩
  case isFalse h =>
    obtain ⟨i, q', hi, hmove⟩ := issueSingle_issues (c := c) (lenl := lenl) q
    exact ⟨i, q', hi, .settle (.groups rfl (by simp only; omega)) hmove⟩

/-- The entry check passes where the bulk stage has left less than a super-block (R137, R138). -/
theorem issueTail_issues (hc : c.Valid) {q : SeqRegs} (hp : q.point = .tailEntry) :
    ∃ i q', issueTail c (bulkBytes c lenl) lenl q = .uop i q' ∧ OptIssues c lenl q i q' := by
  obtain ⟨hL, -, hG, -⟩ := hc
  have hsplit : lenl / superBlock c * superBlock c + lenl % superBlock c = lenl := Nat.div_add_mod' ..
  have hrest : lenl % superBlock c < superBlock c := Nat.mod_lt _ (by unfold superBlock; omega)
  have hpass : ¬superBlock c ≤ lenl - bulkBytes c lenl := by
    unfold bulkBytes nsb
    omega
  obtain ⟨i, q', hi, hmove⟩ := issueGroup_issues (c := c) (lenl := lenl) hG { q with tl := 0 }
  exact ⟨i, q', by rw [issueTail, if_neg hpass, hi], .settle (.tail hp) hmove⟩

/-- Where OPT stands in its schedule with the cursor the place says, its step is one of the moves. -/
theorem optIssue_issues (hc : c.Valid) {q : SeqRegs} (hr : optRanges c lenl q = true) :
    ∃ i q', optIssue c (optCursor c lenl q) lenl q = .uop i q' ∧ OptIssues c lenl q i q' := by
  have ⟨_, _, hG, _⟩ := hc
  cases hp : q.point <;> simp only [optIssue, optCursor, hp, nextGroup, loopOrPost]
  case init =>
    split
    case isTrue hn => exact ⟨_, _, rfl, .initBulk hp hn⟩
    case isFalse hn => exact ⟨_, _, rfl, .initTail hp (by omega)⟩
  case bulkLoad =>
    split
    case isTrue hg => exact ⟨_, _, rfl, .loadNext hp hg⟩
    case isFalse hg =>
      split
      case isTrue hn => exact ⟨_, _, rfl, .loadLoop hp (by omega) hn⟩
      case isFalse hn => exact ⟨_, _, rfl, .loadPost hp (by omega) (by omega)⟩
  case loopRnd1 => exact ⟨_, _, rfl, .loopRnd1 hp⟩
  case loopRnd2 => exact ⟨_, _, rfl, .loopRnd2 hp⟩
  case loopData =>
    split
    case isTrue hg => exact ⟨_, _, rfl, .loopNext hp hg⟩
    case isFalse hg =>
      split
      case isTrue hn => exact ⟨_, _, rfl, .loopLoop hp (by omega) hn⟩
      case isFalse hn => exact ⟨_, _, rfl, .loopPost hp (by omega) (by omega)⟩
  case postRnd1 => exact ⟨_, _, rfl, .postRnd1 hp⟩
  case postRnd2 => exact ⟨_, _, rfl, .postRnd2 hp⟩
  case postZero =>
    split
    case isTrue hg => exact ⟨_, _, rfl, .postNext hp hg⟩
    case isFalse hg => exact ⟨_, _, rfl, .postTail hp (by omega)⟩
  case tailEntry => exact issueTail_issues hc hp
  case groupTest => simpa only [with_own_point hp] using issueGroup_issues hG q
  case singleTest => simpa only [with_own_point hp] using issueSingle_issues q
  case groupRnd1 => exact ⟨_, _, rfl, .groupRnd1 hp⟩
  case groupRnd2 => exact ⟨_, _, rfl, .groupRnd2 hp⟩
  case groupZero => exact ⟨_, _, rfl, .groupZero hp⟩
  case singleRnd1 => exact ⟨_, _, rfl, .singleRnd1 hp⟩
  case singleRnd2 => exact ⟨_, _, rfl, .singleRnd2 hp⟩
  case singleZero => exact ⟨_, _, rfl, .singleZero hp⟩
  case partRnd1 => exact ⟨_, _, rfl, .partRnd1 hp⟩
  case partRnd2 => exact ⟨_, _, rfl, .partRnd2 hp⟩
  case partZero => exact ⟨_, _, rfl, .partZero hp⟩
  case fold | lenx | key1 | key2 | white | out =>
    obtain ⟨i, q', hi, hmove⟩ := issueFinal_issues (q := q) (by simp [hp])
    exact ⟨i, q', hi, .final hmove⟩
  all_goals simp [optRanges, hp] at hr

/-- Where REF stands in its schedule, its step is one of the moves. -/
theorem refIssue_issues {q : SeqRegs} (hr : refRanges lenl q = true) :
    ∃ i q', refIssue c lenl q = .uop i q' ∧ RefIssues c lenl q i q' := by
  cases hp : q.point <;> simp only [refIssue, hp]
  case init =>
    split
    case isTrue hn => exact ⟨_, _, rfl, .initChunk hp hn⟩
    case isFalse hn => exact ⟨_, _, rfl, .initFold hp (by omega)⟩
  case chunkLoad =>
    split
    case isTrue h => exact ⟨_, _, rfl, .loadPart hp h⟩
    case isFalse h => exact ⟨_, _, rfl, .loadFull hp h⟩
  case chunkRnd1 => exact ⟨_, _, rfl, .rnd1 hp⟩
  case chunkRnd2 => exact ⟨_, _, rfl, .rnd2 hp⟩
  case chunkZero =>
    split
    case isTrue hn => exact ⟨_, _, rfl, .zeroNext hp hn⟩
    case isFalse hn => exact ⟨_, _, rfl, .zeroFold hp (by omega)⟩
  case fold | lenx | key1 | key2 | white | out =>
    obtain ⟨i, q', hi, hmove⟩ := issueFinal_issues (q := q) (by simp [hp])
    exact ⟨i, q', hi, .final hmove⟩
  all_goals simp [refRanges, hp] at hr

end

end Sys2Proof.Machine
end

section
/-! SUPPORT. What a move of a sequencer does to the ranges, the cursor and the index of its place. -/

namespace Sys2Proof.Machine

/-! What a micro-operation asks of the cursor and where it leaves it (41_init_absorb_ops R111, R112; R186). -/

/-- The bytes the micro-operation takes at `cur` are there. -/
def BytesLeft (lenl : Nat) : Instr → Nat → Prop
  | .xord _ cnt, cur => cur + 16 * cnt.toNat ≤ lenl
  | .rndd _ cnt, cur => cur + 16 * cnt.toNat ≤ lenl
  | .xorp _, cur => 1 ≤ lenl - cur ∧ lenl - cur ≤ 15
  | _, _ => True

/-- The cursor after the micro-operation has completed. -/
def cursorAfter (lenl : Nat) : Instr → Nat → Nat
  | .xord _ cnt, cur => cur + 16 * cnt.toNat
  | .rndd _ cnt, cur => cur + 16 * cnt.toNat
  | .xorp _, _ => lenl
  | _, cur => cur

/-! Products that the places' formulas hold. -/

section
variable {c : Config} {lenl : Nat}

theorem superBlock_eq (hc : c.Valid) : superBlock c = 16 * (groups c * c.G) := by rw [groups_mul hc, superBlock]

theorem last_group {g G n : Nat} (hg : g < n) (hlast : n ≤ g + 1) : g * G + G = n * G := by
  obtain rfl : n = g + 1 := by omega
  exact (Nat.succ_mul ..).symm

theorem group_end_le {g G n : Nat} (hg : g < n) : g * G + G ≤ n * G :=
  (Nat.succ_mul g G).symm.trans_le (Nat.mul_le_mul_right _ hg)

theorem block_end_le {s S n : Nat} (hs : s < n) : s * S + S ≤ n * S := group_end_le hs

/-- The micro-operations of the passes before pass `s + 1` are those before pass `s` and one pass more. -/
theorem passStart_succ (n : Nat) {s : Nat} (hs : 1 ≤ s) : n * (3 * (s + 1) - 2) = n * (3 * s - 2) + 3 * n := by
  have hstep : 3 * (s + 1) - 2 = 3 * s - 2 + 3 := by omega
  rw [hstep, Nat.mul_add, Nat.mul_comm n 3]

theorem bulkSize_eq_passes (hn : 1 ≤ nsb c lenl) :
    bulkSize c lenl = groups c * (3 * nsb c lenl - 2) + 3 * groups c := by
  have hstep : 3 * nsb c lenl + 1 = 3 * nsb c lenl - 2 + 3 := by omega
  rw [bulkSize_of_pos hn, hstep, Nat.mul_add, Nat.mul_comm _ 3]

/-- Where no further group fits the tail, all its groups are absorbed. -/
theorem groups_done {t G n : Nat} (hG : 1 ≤ G) (ht : t % G = 0) (hle : t ≤ n) (hlt : n < t + G) :
    n / G * G = t ∧ n / G = t / G := by
  obtain ⟨k, rfl⟩ := Nat.dvd_of_mod_eq_zero ht
  have hdiv : n / G = k := Nat.div_eq_of_lt_le (by rwa [Nat.mul_comm]) (by rwa [Nat.succ_mul, Nat.mul_comm k])
  rw [hdiv, Nat.mul_div_cancel_left _ hG, Nat.mul_comm]
  exact ⟨rfl, rfl⟩

/-! The tests of TAIL leave everything that the place says. -/

theorem OptSettles.ranges {q r : SeqRegs} (hc : c.Valid) (h : OptSettles c lenl q r) (hr : optRanges c lenl q = true) :
    optRanges c lenl r = true := by
  obtain ⟨-, -, hG, -⟩ := hc
  cases h with
  | tail hp => simp [optRanges]
  | groups hp hlt =>
    simp only [optRanges, hp, Bool.and_eq_true, decide_eq_true_eq] at hr ⊢
    exact ⟨(groups_done hG hr.1 hr.2 hlt).1.le, hr.2⟩
  | singles hp hle hrem => rfl

theorem OptSettles.cursor {q r : SeqRegs} (h : OptSettles c lenl q r) (hr : optRanges c lenl q = true) :
    optCursor c lenl r = optCursor c lenl q := by
  have hsplit := lenl_split c lenl
  cases h with
  | tail hp => simp [optCursor, hp]
  | groups hp hlt => simp [optCursor, hp]
  | singles hp hle hrem =>
    simp only [optRanges, hp, Bool.and_eq_true, decide_eq_true_eq] at hr
    simp only [optCursor, hp, bulkBytes]
    omega

theorem OptSettles.index {q r : SeqRegs} (hc : c.Valid) (h : OptSettles c lenl q r) (hr : optRanges c lenl q = true) :
    optIndex c lenl r = optIndex c lenl q := by
  obtain ⟨-, -, hG, -⟩ := hc
  cases h with
  | tail hp => simp [optIndex, hp]
  | groups hp hlt =>
    simp only [optRanges, hp, Bool.and_eq_true, decide_eq_true_eq] at hr
    obtain ⟨hstart, hcount⟩ := groups_done hG hr.1 hr.2 hlt
    simp only [optIndex, hp, hcount]
    rw [← hcount, hstart]
    omega
  | singles hp hle hrem =>
    have hsplit : ntc c lenl / c.G * c.G + ntc c lenl % c.G = ntc c lenl := Nat.div_add_mod' ..
    simp only [optRanges, hp, Bool.and_eq_true, decide_eq_true_eq] at hr
    simp only [optIndex, hp, optSize, hrem, Nat.lt_irrefl, if_false]
    omega

/-! The moves of OPT. -/

theorem OptIssues.index {q q' : SeqRegs} {i : Instr} (hc : c.Valid) (h : OptIssues c lenl q i q')
    (hr : optRanges c lenl q = true) : optIndex c lenl q' = optIndex c lenl q + 1 := by
  have hsize := stages_le_optSize c lenl
  have hsplit : ntc c lenl / c.G * c.G + ntc c lenl % c.G = ntc c lenl := Nat.div_add_mod' ..
  have ⟨_, _, hG, _⟩ := hc
  induction h with
  | settle hs h ih => rw [ih (hs.ranges hc hr), hs.index hc hr]
  | final h =>
    cases h with
    | fold hp | lenx hp | key1 hp | key2 hp | white hp => simp only [optIndex, hp]
    | out hp =>
      simp only [optIndex, hp]
      omega
  | initBulk hp => simp [optIndex, hp]
  | initTail hp hn => simp [optIndex, hp, bulkSize, hn]
  | loadNext hp hg | loopRnd1 hp | loopRnd2 hp | loopNext hp hg | postRnd1 hp | postRnd2 hp | postNext hp hg =>
    simp only [optIndex, hp]
    omega
  | loadLoop hp hg hn | loadPost hp hg hn =>
    simp only [optRanges, hp, Bool.and_eq_true, decide_eq_true_eq] at hr
    obtain ⟨hn1, hgi⟩ := hr
    simp only [optIndex, hp]
    grind
  | loopLoop hp hg hn =>
    simp only [optRanges, hp, Bool.and_eq_true, decide_eq_true_eq] at hr
    obtain ⟨⟨hsb, hlt⟩, hgi⟩ := hr
    simp only [optIndex, hp, passStart_succ (groups c) hsb]
    omega
  | loopPost hp hg hn =>
    simp only [optRanges, hp, Bool.and_eq_true, decide_eq_true_eq] at hr
    obtain ⟨⟨hsb, hlt⟩, hgi⟩ := hr
    have hlast : nsb c lenl = _ + 1 := Nat.le_antisymm hn hlt
    simp only [optIndex, hp, hlast, passStart_succ (groups c) hsb]
    omega
  | postTail hp hg =>
    simp only [optRanges, hp, Bool.and_eq_true, decide_eq_true_eq] at hr
    obtain ⟨⟨hn, -⟩, hgi⟩ := hr
    simp only [optIndex, hp, bulkSize_eq_passes hn]
    omega
  | groupLoad hp | groupRnd1 hp | groupRnd2 hp | singleRnd1 hp | singleRnd2 hp | singleLoad hp => simp only [optIndex, hp]
  | groupZero hp =>
    simp only [optIndex, hp, Nat.add_div_right _ hG]
    omega
  | singleZero hp =>
    simp only [optRanges, hp, Bool.and_eq_true, decide_eq_true_eq] at hr
    simp only [optIndex, hp]
    omega
  | partLoad hp hle hrem =>
    simp only [optRanges, hp, Bool.and_eq_true, decide_eq_true_eq] at hr
    simp only [optIndex, hp]
    omega
  | partRnd1 hp | partRnd2 hp => simp only [optIndex, hp]
  | partZero hp =>
    simp only [optRanges, hp, Bool.and_eq_true, decide_eq_true_eq] at hr
    obtain ⟨-, hrem⟩ := hr
    simp only [optIndex, hp, optSize, hrem, if_true]
    omega

theorem OptIssues.ranges {q q' : SeqRegs} {i : Instr} (hc : c.Valid) (h : OptIssues c lenl q i q')
    (hr : optRanges c lenl q = true) : i = .out ∨ optRanges c lenl q' = true := by
  have hsplit : ntc c lenl / c.G * c.G + ntc c lenl % c.G = ntc c lenl := Nat.div_add_mod' ..
  have ⟨_, _, hG, hGL, _⟩ := hc
  have hgroups : 0 < groups c := Nat.div_pos hGL hG
  induction h with
  | settle hs h ih => exact ih (hs.ranges hc hr)
  | final h =>
    cases h with
    | out hp => exact .inl rfl
    | _ => exact .inr rfl
  | initTail hp hn | postTail hp hg | partZero hp => exact .inr rfl
  | groupZero hp =>
    simp only [optRanges, hp, Bool.and_eq_true, decide_eq_true_eq, Nat.add_mod_right] at hr ⊢
    exact .inr hr
  | initBulk hp | loadNext hp | loadLoop hp | loadPost hp | loopRnd1 hp | loopRnd2 hp | loopNext hp | loopLoop hp
  | loopPost hp | postRnd1 hp | postRnd2 hp | postNext hp | groupLoad hp | groupRnd1 hp | groupRnd2 hp | singleLoad hp
  | singleRnd1 hp | singleRnd2 hp | singleZero hp | partLoad hp | partRnd1 hp | partRnd2 hp =>
    simp only [optRanges, hp, Bool.and_eq_true, decide_eq_true_eq] at hr ⊢
    omega

/-- No move passes the end of the message, and each leaves the cursor where the next place says it is (R146). -/
theorem OptIssues.cursor {q q' : SeqRegs} {i : Instr} (hc : c.Valid) (h : OptIssues c lenl q i q')
    (hr : optRanges c lenl q = true) :
    BytesLeft lenl i (optCursor c lenl q) ∧ optCursor c lenl q' = cursorAfter lenl i (optCursor c lenl q) := by
  have hsplit := lenl_split c lenl
  have hrem := remBytes_lt lenl
  have hblock := superBlock_eq hc
  have ⟨_, hL, _, hGL, _⟩ := hc
  have hG : (field c.G).toNat = c.G := field_toNat (by omega)
  have hone : (1 : BitVec 6).toNat = 1 := rfl
  induction h with
  | settle hs h ih => exact hs.cursor hr ▸ ih (hs.ranges hc hr)
  | final h =>
    cases h with
    | fold hp | lenx hp | key1 hp | key2 hp | white hp | out hp => simp [BytesLeft, cursorAfter, optCursor, hp]
  | initBulk hp => simp [BytesLeft, cursorAfter, optCursor, hp]
  | initTail hp hn => simp [BytesLeft, cursorAfter, optCursor, hp, bulkBytes, hn]
  | loadNext hp hg =>
    simp only [optRanges, hp, Bool.and_eq_true, decide_eq_true_eq] at hr
    obtain ⟨hn1, hgi⟩ := hr
    have hend := group_end_le (G := c.G) hgi
    have hfirst := Nat.le_mul_of_pos_left (superBlock c) hn1
    simp only [BytesLeft, cursorAfter, optCursor, hp, hG, Nat.succ_mul]
    omega
  | loadLoop hp hg hn =>
    simp only [optRanges, hp, Bool.and_eq_true, decide_eq_true_eq] at hr
    obtain ⟨hn1, hgi⟩ := hr
    have hend := last_group (G := c.G) hgi hg
    have hfirst := Nat.le_mul_of_pos_left (superBlock c) hn1
    simp only [BytesLeft, cursorAfter, optCursor, hp, hG]
    omega
  | loadPost hp hg hn =>
    simp only [optRanges, hp, Bool.and_eq_true, decide_eq_true_eq] at hr
    obtain ⟨hn1, hgi⟩ := hr
    have hend := last_group (G := c.G) hgi hg
    have hfirst : nsb c lenl = 1 := Nat.le_antisymm hn hn1
    rw [hfirst] at hsplit
    simp only [BytesLeft, cursorAfter, optCursor, hp, hG, bulkBytes, hfirst]
    omega
  | loopNext hp hg =>
    simp only [optRanges, hp, Bool.and_eq_true, decide_eq_true_eq] at hr
    obtain ⟨⟨-, hlt⟩, hgi⟩ := hr
    have hend := group_end_le (G := c.G) hgi
    have hpass := block_end_le (S := superBlock c) hlt
    simp only [BytesLeft, cursorAfter, optCursor, hp, hG, Nat.succ_mul]
    omega
  | loopLoop hp hg hn =>
    simp only [optRanges, hp, Bool.and_eq_true, decide_eq_true_eq] at hr
    obtain ⟨⟨-, hlt⟩, hgi⟩ := hr
    have hend := last_group (G := c.G) hgi hg
    have hpass := block_end_le (S := superBlock c) hlt
    simp only [BytesLeft, cursorAfter, optCursor, hp, hG, Nat.succ_mul]
    omega
  | loopPost hp hg hn =>
    simp only [optRanges, hp, Bool.and_eq_true, decide_eq_true_eq] at hr
    obtain ⟨⟨-, hlt⟩, hgi⟩ := hr
    have hend := last_group (G := c.G) hgi hg
    have hpass := last_group (G := superBlock c) hlt hn
    simp only [BytesLeft, cursorAfter, optCursor, hp, hG, bulkBytes]
    omega
  | groupLoad hp hle | singleLoad hp hle =>
    simp only [BytesLeft, cursorAfter, optCursor, hp, hG, hone, bulkBytes]
    omega
  | partLoad hp hle hpart =>
    simp only [optRanges, hp, Bool.and_eq_true, decide_eq_true_eq] at hr
    simp only [BytesLeft, cursorAfter, optCursor, hp, bulkBytes, and_true]
    omega
  | loopRnd1 hp | loopRnd2 hp | postRnd1 hp | postRnd2 hp | groupRnd1 hp | groupRnd2 hp | singleRnd1 hp | singleRnd2 hp
  | partRnd1 hp | partRnd2 hp | groupZero hp | singleZero hp | partZero hp | postNext hp | postTail hp =>
    simp only [BytesLeft, cursorAfter, optCursor, hp, and_self]

theorem OptSettles.fit {q r : SeqRegs} (h : OptSettles c lenl q r) (hf : q.fit = true) : r.fit = true := by
  cases h with
  | tail hp =>
    simp only [SeqRegs.fit, Bool.and_eq_true, decide_eq_true_eq] at hf ⊢
    omega
  | groups hp hlt | singles hp hle hrem => exact hf

/-- The loop variables stay within their widths (10_state R29). -/
theorem OptIssues.fit {q q' : SeqRegs} {i : Instr} (hc : c.Valid) (hlen : lenl < 2 ^ 64) (h : OptIssues c lenl q i q')
    (hr : optRanges c lenl q = true) (hf : q.fit = true) : q'.fit = true := by
  have ⟨hL1, hL, _⟩ := hc
  have hntc : ntc c lenl < c.L := ntc_lt hL1 lenl
  have hgroups : groups c ≤ c.L := Nat.div_le_self ..
  have hnsb : nsb c lenl ≤ lenl := Nat.div_le_self ..
  induction h with
  | settle hs h ih => exact ih (hs.ranges hc hr) (hs.fit hf)
  | final h =>
    cases h with
    | fold hp | lenx hp | key1 hp | key2 hp | white hp | out hp => exact hf
  | loopRnd1 hp | loopRnd2 hp | postRnd1 hp | postRnd2 hp | groupLoad hp | groupRnd1 hp | groupRnd2 hp | singleLoad hp
  | singleRnd1 hp | singleRnd2 hp | partLoad hp | partRnd1 hp | partRnd2 hp | partZero hp | initTail hp
  | postTail hp => exact hf
  | initBulk hp | loadNext hp | loadLoop hp | loadPost hp | loopNext hp | loopLoop hp | loopPost hp | postNext hp
  | groupZero hp | singleZero hp =>
    simp only [optRanges, hp, SeqRegs.fit, Bool.and_eq_true, decide_eq_true_eq] at hr hf ⊢
    omega

/-! The moves of REF. -/

theorem RefIssues.index {q q' : SeqRegs} {i : Instr} (h : RefIssues c lenl q i q') (hr : refRanges lenl q = true) :
    refIndex lenl q' = refIndex lenl q + 1 := by
  cases h with
  | final h =>
    cases h with
    | fold hp | lenx hp | key1 hp | key2 hp | white hp | out hp =>
      simp only [refIndex, hp, refSize]
      omega
  | initChunk hp hn => simp [refIndex, hp]
  | initFold hp hn => simp [refIndex, hp, hn]
  | loadFull hp | loadPart hp | rnd1 hp | rnd2 hp | zeroNext hp | zeroFold hp =>
    simp only [refRanges, hp, decide_eq_true_eq] at hr
    simp only [refIndex, hp]
    omega

theorem RefIssues.ranges {q q' : SeqRegs} {i : Instr} (h : RefIssues c lenl q i q') (hr : refRanges lenl q = true) :
    i = .out ∨ refRanges lenl q' = true := by
  cases h with
  | final h =>
    cases h with
    | out hp => exact .inl rfl
    | _ => exact .inr rfl
  | initFold hp | zeroFold hp => exact .inr rfl
  | initChunk hp | loadFull hp | loadPart hp | rnd1 hp | rnd2 hp | zeroNext hp =>
    simp only [refRanges, hp, decide_eq_true_eq] at hr ⊢
    omega

/-- Every chunk but a final partial one is full (44_reference_absorber R162, R163). -/
theorem RefIssues.cursor {q q' : SeqRegs} {i : Instr} (h : RefIssues c lenl q i q') (hr : refRanges lenl q = true) :
    BytesLeft lenl i (refCursor lenl q) ∧ refCursor lenl q' = cursorAfter lenl i (refCursor lenl q) := by
  have hone : (1 : BitVec 6).toNat = 1 := rfl
  cases h with
  | final h =>
    cases h with
    | fold hp | lenx hp | key1 hp | key2 hp | white hp | out hp => simp [BytesLeft, cursorAfter, refCursor, hp]
  | initChunk hp hn => simp [BytesLeft, cursorAfter, refCursor, hp]
  | initFold hp hn =>
    unfold chunkCount at hn
    simp only [BytesLeft, cursorAfter, refCursor, hp, true_and]
    omega
  | rnd1 hp | rnd2 hp => simp only [BytesLeft, cursorAfter, refCursor, hp, and_self]
  | loadFull hp hfull | loadPart hp hfull =>
    simp only [refRanges, hp, decide_eq_true_eq] at hr
    simp only [BytesLeft, cursorAfter, refCursor, hp, hone, chunkCount, remBytes] at hr hfull ⊢
    omega
  | zeroNext hp hn | zeroFold hp hn =>
    simp only [refRanges, hp, decide_eq_true_eq] at hr
    simp only [BytesLeft, cursorAfter, refCursor, hp, chunkCount, true_and] at hr hn ⊢
    omega

theorem RefIssues.fit {q q' : SeqRegs} {i : Instr} (hlen : lenl < 2 ^ 64) (h : RefIssues c lenl q i q')
    (hr : refRanges lenl q = true) (hf : q.fit = true) : q'.fit = true := by
  have hcount : 16 * chunkCount lenl ≤ lenl + 15 := Nat.mul_div_le ..
  cases h with
  | final h =>
    cases h with
    | fold hp | lenx hp | key1 hp | key2 hp | white hp | out hp => exact hf
  | loadFull hp | loadPart hp | rnd1 hp | rnd2 hp => exact hf
  | initChunk hp | initFold hp | zeroNext hp | zeroFold hp =>
    simp only [refRanges, hp, SeqRegs.fit, Bool.and_eq_true, decide_eq_true_eq] at hr hf ⊢
    omega

end

end Sys2Proof.Machine
end

section
/-! SUPPORT. The schedules read at an index, stage by stage, and each move issues the micro-operation that its schedule
holds at the place's index. -/

namespace Sys2Proof.Machine

/-! Lists of blocks of one length. -/

theorem length_flatMap_range {f : Nat → List Instr} {n w : Nat} (h : ∀ k < n, (f k).length = w) :
    ((List.range n).flatMap f).length = n * w := by
  rw [length_eq_total]
  exact total_flatMap_range fun k hk => by rw [← length_eq_total, h k hk]

theorem getElem?_flatMap_range {f : Nat → List Instr} {n w k r : Nat} (h : ∀ k < n, (f k).length = w) (hk : k < n)
    (hr : r < w) : ((List.range n).flatMap f)[k * w + r]? = (f k)[r]? := by
  induction n with
  | zero => exact absurd hk (Nat.not_lt_zero k)
  | succ n ih =>
    have hlen : ((List.range n).flatMap f).length = n * w := length_flatMap_range fun k hk => h k (by omega)
    rw [List.range_succ, List.flatMap_append]
    rcases Nat.lt_succ_iff_lt_or_eq.1 hk with hlt | rfl
    · have hend : k * w + w ≤ n * w := block_end_le hlt
      rw [List.getElem?_append_left (by omega), ih (fun k hk => h k (by omega)) hlt]
    · rw [List.getElem?_append_right (by omega), hlen, Nat.add_sub_cancel_left]
      simp

section
variable {α : Type} {as bs : List α} {n k : Nat} {x : Option α}

theorem getElem?_append_of_lt (h : k < as.length) (hx : as[k]? = x) : (as ++ bs)[k]? = x :=
  (List.getElem?_append_left h).trans hx

theorem getElem?_append_add (h : as.length = n) (hx : bs[k]? = x) : (as ++ bs)[n + k]? = x := by
  rw [← h, List.getElem?_append_right (Nat.le_add_right ..), Nat.add_sub_cancel_left, hx]

end

section
variable {c : Config} {lenl : Nat}

/-! BULK (43_sequencer_optimized R133 to R136). -/

theorem bulkOps_load {g : Nat} (hn : 1 ≤ nsb c lenl) (hg : g < groups c) :
    (bulkOps c lenl)[g]? = some (.xord (field (g * c.G)) (field c.G)) := by
  rw [bulkOps, if_pos hn, List.append_assoc]
  exact getElem?_append_of_lt (by simpa using hg) (by simp [hg])

theorem bulkOps_mixData {s g r : Nat} (hs : s + 1 < nsb c lenl) (hg : g < groups c) (hr : r < 3) :
    (bulkOps c lenl)[groups c + (s * (groups c * 3) + (g * 3 + r))]? = (mixDataOps (g * c.G) c.G)[r]? := by
  have hpass (s : Nat) (_ : s < nsb c lenl - 1) :
      ((List.range (groups c)).flatMap fun g => mixDataOps (g * c.G) c.G).length = groups c * 3 :=
    length_flatMap_range fun _ _ => rfl
  have hgroup : g * 3 + 3 ≤ groups c * 3 := group_end_le hg
  have hblock : s * (groups c * 3) + groups c * 3 ≤ (nsb c lenl - 1) * (groups c * 3) := block_end_le (by omega)
  rw [bulkOps, if_pos (by omega), List.append_assoc]
  refine getElem?_append_add (by simp) (getElem?_append_of_lt ?_ ?_)
  · rw [length_flatMap_range hpass]
    omega
  · rw [getElem?_flatMap_range hpass (by omega) (by omega)]
    exact getElem?_flatMap_range (fun _ _ => rfl) hg hr

theorem bulkOps_mixZero {g r : Nat} (hn : 1 ≤ nsb c lenl) (hg : g < groups c) (hr : r < 3) :
    (bulkOps c lenl)[groups c + ((nsb c lenl - 1) * (groups c * 3) + (g * 3 + r))]? = (mixZeroOps (g * c.G) c.G)[r]? := by
  rw [bulkOps, if_pos hn, List.append_assoc]
  refine getElem?_append_add (by simp) (getElem?_append_add ?_ (getElem?_flatMap_range (fun _ _ => rfl) hg hr))
  exact length_flatMap_range fun _ _ => length_flatMap_range fun _ _ => rfl

theorem optSchedule_bulk {k : Nat} {i : Instr} (h : (bulkOps c lenl)[k]? = some i) :
    (optSchedule c lenl)[1 + k]? = some i := by
  obtain ⟨hk, -⟩ := List.getElem?_eq_some_iff.1 h
  rw [optSchedule, List.append_assoc, List.append_assoc]
  exact getElem?_append_add rfl (getElem?_append_of_lt hk h)

theorem optSchedule_load {g : Nat} (hn : 1 ≤ nsb c lenl) (hg : g < groups c) :
    (optSchedule c lenl)[1 + g]? = some (.xord (field (g * c.G)) (field c.G)) := optSchedule_bulk (bulkOps_load hn hg)

theorem optSchedule_mixData {s g r : Nat} {i : Instr} (hs : 1 ≤ s) (hlt : s < nsb c lenl) (hg : g < groups c)
    (hi : (mixDataOps (g * c.G) c.G)[r]? = some i) :
    (optSchedule c lenl)[1 + r + groups c * (3 * s - 2) + 3 * g]? = some i := by
  obtain ⟨s, rfl⟩ := Nat.exists_eq_add_of_le' hs
  obtain ⟨hr, -⟩ := List.getElem?_eq_some_iff.1 hi
  have hindex : 1 + r + groups c * (3 * (s + 1) - 2) + 3 * g =
      1 + (groups c + (s * (groups c * 3) + (g * 3 + r))) := by
    rw [show 3 * (s + 1) - 2 = 3 * s + 1 by omega]
    ring
  rw [hindex]
  exact optSchedule_bulk ((bulkOps_mixData hlt hg hr).trans hi)

theorem optSchedule_mixZero {g r : Nat} {i : Instr} (hn : 1 ≤ nsb c lenl) (hg : g < groups c)
    (hi : (mixZeroOps (g * c.G) c.G)[r]? = some i) :
    (optSchedule c lenl)[1 + r + groups c * (3 * nsb c lenl - 2) + 3 * g]? = some i := by
  obtain ⟨hr, -⟩ := List.getElem?_eq_some_iff.1 hi
  obtain ⟨n, hn'⟩ := Nat.exists_eq_add_of_le' hn
  have hindex : 1 + r + groups c * (3 * nsb c lenl - 2) + 3 * g =
      1 + (groups c + ((nsb c lenl - 1) * (groups c * 3) + (g * 3 + r))) := by
    rw [hn', Nat.add_sub_cancel, show 3 * (n + 1) - 2 = 3 * n + 1 by omega]
    ring
  rw [hindex]
  exact optSchedule_bulk ((bulkOps_mixZero hn hg hr).trans hi)

/-! TAIL (R138 to R141). -/

theorem optSchedule_tail {k : Nat} {i : Instr} (h : (tailOps c lenl)[k]? = some i) :
    (optSchedule c lenl)[1 + bulkSize c lenl + k]? = some i := by
  obtain ⟨hk, -⟩ := List.getElem?_eq_some_iff.1 h
  rw [optSchedule, List.append_assoc (_ ++ _)]
  refine getElem?_append_add ?_ (getElem?_append_of_lt hk h)
  rw [List.length_append, length_bulkOps]
  rfl

theorem length_tailGroups (c : Config) (lenl : Nat) :
    ((List.range (ntc c lenl / c.G)).flatMap fun j => absorbOps (j * c.G) c.G).length = ntc c lenl / c.G * 4 :=
  length_flatMap_range fun _ _ => rfl

theorem length_tailSingles (c : Config) (lenl : Nat) :
    ((List.range (ntc c lenl % c.G)).flatMap fun j => absorbOps (ntc c lenl / c.G * c.G + j) 1).length =
      ntc c lenl % c.G * 4 :=
  length_flatMap_range fun _ _ => rfl

theorem optSchedule_group {t r : Nat} {i : Instr} (ht : t % c.G = 0) (hle : t + c.G ≤ ntc c lenl) (hG : 1 ≤ c.G)
    (hi : (absorbOps t c.G)[r]? = some i) : (optSchedule c lenl)[1 + bulkSize c lenl + 4 * (t / c.G) + r]? = some i := by
  obtain ⟨hr, -⟩ := List.getElem?_eq_some_iff.1 hi
  have hlt : t / c.G < ntc c lenl / c.G := by
    rw [Nat.lt_iff_add_one_le, ← Nat.add_div_right _ hG]
    exact Nat.div_le_div_right hle
  have hblock : t / c.G * 4 + 4 ≤ ntc c lenl / c.G * 4 := block_end_le hlt
  have hr : r < 4 := hr
  rw [Nat.add_assoc, Nat.mul_comm]
  refine optSchedule_tail ?_
  rw [tailOps, List.append_assoc]
  refine getElem?_append_of_lt (by rw [length_tailGroups]; omega) ?_
  rwa [getElem?_flatMap_range (w := 4) (fun _ _ => rfl) hlt hr, Nat.div_mul_cancel (Nat.dvd_of_mod_eq_zero ht)]

theorem optSchedule_single {t r : Nat} {i : Instr} (ht : ntc c lenl / c.G * c.G ≤ t) (hlt : t < ntc c lenl)
    (hi : (absorbOps t 1)[r]? = some i) : (optSchedule c lenl)[
      1 + bulkSize c lenl + 4 * (ntc c lenl / c.G) + 4 * (t - ntc c lenl / c.G * c.G) + r]? = some i := by
  obtain ⟨hr, -⟩ := List.getElem?_eq_some_iff.1 hi
  have hsplit : ntc c lenl / c.G * c.G + ntc c lenl % c.G = ntc c lenl := Nat.div_add_mod' ..
  obtain ⟨j, rfl⟩ := Nat.exists_eq_add_of_le ht
  have hj : j < ntc c lenl % c.G := by omega
  have hblock : j * 4 + 4 ≤ ntc c lenl % c.G * 4 := block_end_le hj
  have hr : r < 4 := hr
  rw [Nat.add_sub_cancel_left, Nat.add_assoc, Nat.add_assoc, Nat.mul_comm 4, Nat.mul_comm 4]
  refine optSchedule_tail ?_
  rw [tailOps, List.append_assoc]
  refine getElem?_append_add (length_tailGroups ..) (getElem?_append_of_lt (by rw [length_tailSingles]; omega) ?_)
  rwa [getElem?_flatMap_range (w := 4) (fun _ _ => rfl) hj hr]

theorem optSchedule_part {r : Nat} {i : Instr} (hrem : 0 < remBytes lenl)
    (hi : (absorbPartOps (ntc c lenl))[r]? = some i) :
    (optSchedule c lenl)[1 + bulkSize c lenl + 4 * (ntc c lenl / c.G + ntc c lenl % c.G) + r]? = some i := by
  rw [Nat.add_assoc]
  refine optSchedule_tail (getElem?_append_add ?_ ?_)
  · rw [List.length_append, length_tailGroups, length_tailSingles]
    omega
  · rwa [if_pos hrem]

/-! REF (44_reference_absorber R160). -/

theorem refSchedule_chunk {k r : Nat} {i : Instr} (hk : k < chunkCount lenl) (hi : (chunkOps c lenl k)[r]? = some i) :
    (refSchedule c lenl)[1 + (k * 4 + r)]? = some i := by
  obtain ⟨hr, -⟩ := List.getElem?_eq_some_iff.1 hi
  rw [length_chunkOps] at hr
  have hblock : k * 4 + 4 ≤ chunkCount lenl * 4 := block_end_le hk
  have hlen (k : Nat) (_ : k < chunkCount lenl) : (chunkOps c lenl k).length = 4 := length_chunkOps c lenl k
  rw [refSchedule, List.append_assoc]
  refine getElem?_append_add rfl (getElem?_append_of_lt (by rw [length_flatMap_range hlen]; omega) ?_)
  rwa [getElem?_flatMap_range hlen hk hr]

/-- Full or partial, a chunk is followed by its three rounds (R162, R163). -/
theorem chunkOps_rounds (c : Config) (lenl k : Nat) : (chunkOps c lenl k)[1]? = some (.rndf (field (k % c.L)) 1) ∧
    (chunkOps c lenl k)[2]? = some (.rndf (field (k % c.L)) 1) ∧
    (chunkOps c lenl k)[3]? = some (.rndz (field (k % c.L)) 1) := by
  unfold chunkOps
  split <;> exact ⟨rfl, rfl, rfl⟩

/-! FINAL (43_sequencer_optimized R143, 44_reference_absorber R164). -/

theorem schedule_final {u : UnitId} {r : Nat} {i : Instr} (hi : finalOps[r]? = some i) :
    (schedule u c lenl)[scheduleSize u c lenl - 6 + r]? = some i := by
  have hstages : ∃ is, schedule u c lenl = is ++ finalOps := by cases u <;> exact ⟨_, rfl⟩
  obtain ⟨is, his⟩ := hstages
  have hlen : is.length + 6 = scheduleSize u c lenl := by
    rw [← length_schedule u c lenl, his, List.length_append]
    rfl
  rw [his]
  exact getElem?_append_add (by omega) hi

/-- The index in unit `u`'s schedule of the micro-operation the place issues next. -/
def placeIndex (u : UnitId) (c : Config) (lenl : Nat) (q : SeqRegs) : Nat :=
  match u with
  | .opt => optIndex c lenl q
  | .ref => refIndex lenl q

theorem FinalIssues.scheduled {q q' : SeqRegs} {i : Instr} (h : FinalIssues q i q') (u : UnitId) :
    (schedule u c lenl)[placeIndex u c lenl q]? = some i := by
  have hindex : ∃ r, finalOps[r]? = some i ∧ placeIndex u c lenl q = scheduleSize u c lenl - 6 + r := by
    cases h with
    | fold hp => exact ⟨0, rfl, by cases u <;> simp [placeIndex, scheduleSize, optIndex, refIndex, refSize, hp]; omega⟩
    | lenx hp => exact ⟨1, rfl, by cases u <;> simp [placeIndex, scheduleSize, optIndex, refIndex, refSize, hp]; omega⟩
    | key1 hp => exact ⟨2, rfl, by cases u <;> simp [placeIndex, scheduleSize, optIndex, refIndex, refSize, hp]; omega⟩
    | key2 hp => exact ⟨3, rfl, by cases u <;> simp [placeIndex, scheduleSize, optIndex, refIndex, refSize, hp]; omega⟩
    | white hp => exact ⟨4, rfl, by cases u <;> simp [placeIndex, scheduleSize, optIndex, refIndex, refSize, hp]; omega⟩
    | out hp => exact ⟨5, rfl, by cases u <;> simp [placeIndex, scheduleSize, optIndex, refIndex, refSize, hp]; omega⟩
  obtain ⟨r, hi, hindex⟩ := hindex
  exact hindex ▸ schedule_final hi

/-! Each move issues what its schedule holds. -/

theorem OptIssues.scheduled {q q' : SeqRegs} {i : Instr} (hc : c.Valid) (h : OptIssues c lenl q i q')
    (hr : optRanges c lenl q = true) : (optSchedule c lenl)[optIndex c lenl q]? = some i := by
  have ⟨_, _, hG, _⟩ := hc
  have hsplit : ntc c lenl / c.G * c.G + ntc c lenl % c.G = ntc c lenl := Nat.div_add_mod' ..
  induction h with
  | settle hs h ih => exact hs.index hc hr ▸ ih (hs.ranges hc hr)
  | final h => exact h.scheduled .opt
  | initBulk hp | initTail hp => simp [optIndex, hp, optSchedule]
  | loadNext hp | loadLoop hp | loadPost hp =>
    simp only [optRanges, hp, Bool.and_eq_true, decide_eq_true_eq] at hr
    obtain ⟨hn, hg⟩ := hr
    simpa only [optIndex, hp] using optSchedule_load hn hg
  | loopRnd1 hp =>
    simp only [optRanges, hp, Bool.and_eq_true, decide_eq_true_eq] at hr
    obtain ⟨⟨hsb, hlt⟩, hg⟩ := hr
    simpa only [optIndex, hp] using optSchedule_mixData (r := 0) hsb hlt hg rfl
  | loopRnd2 hp =>
    simp only [optRanges, hp, Bool.and_eq_true, decide_eq_true_eq] at hr
    obtain ⟨⟨hsb, hlt⟩, hg⟩ := hr
    simpa only [optIndex, hp] using optSchedule_mixData (r := 1) hsb hlt hg rfl
  | loopNext hp | loopLoop hp | loopPost hp =>
    simp only [optRanges, hp, Bool.and_eq_true, decide_eq_true_eq] at hr
    obtain ⟨⟨hsb, hlt⟩, hg⟩ := hr
    simpa only [optIndex, hp] using optSchedule_mixData (r := 2) hsb hlt hg rfl
  | postRnd1 hp =>
    simp only [optRanges, hp, Bool.and_eq_true, decide_eq_true_eq] at hr
    obtain ⟨⟨hn, -⟩, hg⟩ := hr
    simpa only [optIndex, hp] using optSchedule_mixZero (r := 0) hn hg rfl
  | postRnd2 hp =>
    simp only [optRanges, hp, Bool.and_eq_true, decide_eq_true_eq] at hr
    obtain ⟨⟨hn, -⟩, hg⟩ := hr
    simpa only [optIndex, hp] using optSchedule_mixZero (r := 1) hn hg rfl
  | postNext hp | postTail hp =>
    simp only [optRanges, hp, Bool.and_eq_true, decide_eq_true_eq] at hr
    obtain ⟨⟨hn, -⟩, hg⟩ := hr
    simpa only [optIndex, hp] using optSchedule_mixZero (r := 2) hn hg rfl
  | groupLoad hp hle =>
    simp only [optRanges, hp, Bool.and_eq_true, decide_eq_true_eq] at hr
    simp only [optIndex, hp]
    exact optSchedule_group (r := 0) hr.1 hle hG rfl
  | groupRnd1 hp =>
    simp only [optRanges, hp, Bool.and_eq_true, decide_eq_true_eq] at hr
    simp only [optIndex, hp]
    exact optSchedule_group (r := 1) hr.1 hr.2 hG rfl
  | groupRnd2 hp =>
    simp only [optRanges, hp, Bool.and_eq_true, decide_eq_true_eq] at hr
    simp only [optIndex, hp]
    exact optSchedule_group (r := 2) hr.1 hr.2 hG rfl
  | groupZero hp =>
    simp only [optRanges, hp, Bool.and_eq_true, decide_eq_true_eq] at hr
    simp only [optIndex, hp]
    exact optSchedule_group (r := 3) hr.1 hr.2 hG rfl
  | singleLoad hp hle =>
    simp only [optRanges, hp, Bool.and_eq_true, decide_eq_true_eq] at hr
    simp only [optIndex, hp]
    exact optSchedule_single (r := 0) hr.1 hle rfl
  | singleRnd1 hp =>
    simp only [optRanges, hp, Bool.and_eq_true, decide_eq_true_eq] at hr
    simp only [optIndex, hp]
    exact optSchedule_single (r := 1) hr.1 hr.2 rfl
  | singleRnd2 hp =>
    simp only [optRanges, hp, Bool.and_eq_true, decide_eq_true_eq] at hr
    simp only [optIndex, hp]
    exact optSchedule_single (r := 2) hr.1 hr.2 rfl
  | singleZero hp =>
    simp only [optRanges, hp, Bool.and_eq_true, decide_eq_true_eq] at hr
    simp only [optIndex, hp]
    exact optSchedule_single (r := 3) hr.1 hr.2 rfl
  | @partLoad q hp hle hrem =>
    simp only [optRanges, hp, Bool.and_eq_true, decide_eq_true_eq] at hr
    obtain ⟨hstart, hend⟩ := hr
    have hindex : optIndex c lenl q = 1 + bulkSize c lenl + 4 * (ntc c lenl / c.G + ntc c lenl % c.G) + 0 := by
      simp only [optIndex, hp]
      omega
    rw [hindex, Nat.le_antisymm hend hle]
    exact optSchedule_part (r := 0) hrem rfl
  | partRnd1 hp =>
    simp only [optRanges, hp, Bool.and_eq_true, decide_eq_true_eq] at hr
    simpa only [optIndex, hp, hr.1] using optSchedule_part (r := 1) hr.2 rfl
  | partRnd2 hp =>
    simp only [optRanges, hp, Bool.and_eq_true, decide_eq_true_eq] at hr
    simpa only [optIndex, hp, hr.1] using optSchedule_part (r := 2) hr.2 rfl
  | partZero hp =>
    simp only [optRanges, hp, Bool.and_eq_true, decide_eq_true_eq] at hr
    simpa only [optIndex, hp, hr.1] using optSchedule_part (r := 3) hr.2 rfl

theorem RefIssues.scheduled {q q' : SeqRegs} {i : Instr} (h : RefIssues c lenl q i q')
    (hr : refRanges lenl q = true) : (refSchedule c lenl)[refIndex lenl q]? = some i := by
  have hchunk {r : Nat} (hk : q.k < chunkCount lenl) (hi : (chunkOps c lenl q.k)[r]? = some i) :
      (refSchedule c lenl)[1 + r + 4 * q.k]? = some i := by
    rw [Nat.add_assoc, Nat.add_comm r, Nat.mul_comm]
    exact refSchedule_chunk hk hi
  cases h with
  | final h => exact h.scheduled .ref
  | initChunk hp | initFold hp => simp [refIndex, hp, refSchedule]
  | loadFull hp h | loadPart hp h =>
    simp only [refRanges, hp, decide_eq_true_eq] at hr
    simp only [refIndex, hp]
    refine hchunk (r := 0) hr ?_
    simp only [chunkOps, h, if_false, and_self, if_true]
    rfl
  | rnd1 hp =>
    simp only [refRanges, hp, decide_eq_true_eq] at hr
    simp only [refIndex, hp]
    exact hchunk (r := 1) hr (chunkOps_rounds ..).1
  | rnd2 hp =>
    simp only [refRanges, hp, decide_eq_true_eq] at hr
    simp only [refIndex, hp]
    exact hchunk (r := 2) hr (chunkOps_rounds ..).2.1
  | zeroNext hp | zeroFold hp =>
    simp only [refRanges, hp, decide_eq_true_eq] at hr
    simp only [refIndex, hp]
    exact hchunk (r := 3) hr (chunkOps_rounds ..).2.2

end

end Sys2Proof.Machine
end

section
/-! SUPPORT. A unit that stands in its schedule: its move, whichever unit it is, and what the move's micro-operation does to
the unit. -/

namespace Sys2Proof.Machine

/-! The moves of either unit. -/

/-- The ranges of the loop variables at a place of unit `u`'s schedule. -/
def placeRanges (u : UnitId) (c : Config) (lenl : Nat) (q : SeqRegs) : Bool :=
  match u with
  | .opt => optRanges c lenl q
  | .ref => refRanges lenl q

/-- The cursor at a place of unit `u`'s schedule. -/
def placeCursor (u : UnitId) (c : Config) (lenl : Nat) (q : SeqRegs) : Nat :=
  match u with
  | .opt => optCursor c lenl q
  | .ref => refCursor lenl q

/-- From place `q` unit `u`'s sequencer issues `i`, and then it stands at `q'`. -/
def Issues (u : UnitId) (c : Config) (lenl : Nat) (q : SeqRegs) (i : Instr) (q' : SeqRegs) : Prop :=
  match u with
  | .opt => OptIssues c lenl q i q'
  | .ref => RefIssues c lenl q i q'

/-- A busy unit is on schedule where its cursor and `UPC` are what the place says. -/
theorem onSchedule_iff {u : UnitId} {c : Config} {x : UnitState} (hb : x.busy = true) : onSchedule u c x = true ↔
    placeRanges u c x.lenl x.seq = true ∧ x.cur = placeCursor u c x.lenl x.seq ∧
      x.upc = placeIndex u c x.lenl x.seq ∧ (x.lanes.isSome = true ∨ x.seq.point = .init) := by
  cases u <;> simp [onSchedule, hb, placeRanges, placeCursor, placeIndex, and_assoc]

theorem onSchedule_of_idle {u : UnitId} {c : Config} {x : UnitState} (hb : x.busy = false) :
    onSchedule u c x = true := by simp [onSchedule, hb]

theorem issue_issues {u : UnitId} {c : Config} {x : UnitState} (hc : c.Valid)
    (hr : placeRanges u c x.lenl x.seq = true) (hcur : x.cur = placeCursor u c x.lenl x.seq) :
    ∃ i q', issue u c x = .uop i q' ∧ Issues u c x.lenl x.seq i q' := by
  cases u with
  | opt =>
    rw [issue, hcur]
    exact optIssue_issues hc hr
  | ref => exact refIssue_issues hr

namespace Issues

variable {u : UnitId} {c : Config} {lenl : Nat} {q q' : SeqRegs} {i : Instr}

theorem index (hc : c.Valid) (h : Issues u c lenl q i q') (hr : placeRanges u c lenl q = true) :
    placeIndex u c lenl q' = placeIndex u c lenl q + 1 := by
  cases u with
  | opt => exact OptIssues.index hc h hr
  | ref => exact RefIssues.index h hr

theorem ranges (hc : c.Valid) (h : Issues u c lenl q i q') (hr : placeRanges u c lenl q = true) :
    i = .out ∨ placeRanges u c lenl q' = true := by
  cases u with
  | opt => exact OptIssues.ranges hc h hr
  | ref => exact RefIssues.ranges h hr

theorem cursor (hc : c.Valid) (h : Issues u c lenl q i q') (hr : placeRanges u c lenl q = true) :
    BytesLeft lenl i (placeCursor u c lenl q) ∧
      placeCursor u c lenl q' = cursorAfter lenl i (placeCursor u c lenl q) := by
  cases u with
  | opt => exact OptIssues.cursor hc h hr
  | ref => exact RefIssues.cursor h hr

theorem fit (hc : c.Valid) (hlen : lenl < 2 ^ 64) (h : Issues u c lenl q i q') (hr : placeRanges u c lenl q = true)
    (hf : q.fit = true) : q'.fit = true := by
  cases u with
  | opt => exact OptIssues.fit hc hlen h hr hf
  | ref => exact RefIssues.fit hlen h hr hf

/-- The move issues what the schedule holds at the place's index (43_sequencer_optimized R144). -/
theorem scheduled (hc : c.Valid) (h : Issues u c lenl q i q') (hr : placeRanges u c lenl q = true) :
    (schedule u c lenl)[placeIndex u c lenl q]? = some i := by
  cases u with
  | opt => exact OptIssues.scheduled hc h hr
  | ref => exact RefIssues.scheduled h hr

theorem legal (hc : c.Valid) (h : Issues u c lenl q i q') (hr : placeRanges u c lenl q = true) :
    i.legalUop c.L = true := schedule_legal u hc lenl i (List.mem_of_getElem? (h.scheduled hc hr))

/-- The first micro-operation is `LDSEED`. -/
theorem eq_ldseed (hc : c.Valid) (h : Issues u c lenl q i q') (hr : placeRanges u c lenl q = true)
    (hp : q.point = .init) : i = .ldseed := by
  have hfirst : placeIndex u c lenl q = 0 := by cases u <;> simp [placeIndex, optIndex, refIndex, hp]
  have hi := h.scheduled hc hr
  rw [hfirst, ← List.head?_eq_getElem?, schedule_head?] at hi
  exact (Option.some.inj hi).symm

end Issues

/-! What a micro-operation does to its unit (60_exceptions R186). -/

theorem fixedRound_completes {key : Config → Nat → Byte16} {lane cnt : BitVec 6} {c : Config} {x : UnitState}
    {ls : List Byte16} (hls : x.lanes = some ls) (hlegal : rangeLegal c.L lane cnt = true) :
    ∃ y, fixedRound key lane cnt c x = .done y :=
  ⟨_, fixedRound_eq_done.2 ⟨rangeLegal_iff.1 hlegal, ls, hls, rfl⟩⟩

theorem takeChunks_completes_or_waits {f : Byte16 → Byte16 → Byte16} {lane cnt : BitVec 6} {c : Config}
    {x : UnitState} {ls : List Byte16} (hls : x.lanes = some ls) (hlegal : rangeLegal c.L lane cnt = true)
    (hleft : x.cur + 16 * cnt.toNat ≤ x.lenl) :
    (∃ y, takeChunks f lane cnt c x = .done y) ∨ takeChunks f lane cnt c x = .wait ∧ ¬Readable x.msg x.lenl := by
  have hrange := rangeLegal_iff.1 hlegal
  cases hds : chunksAt x.msg x.cur cnt.toNat with
  | some ds => exact .inl ⟨_, takeChunks_eq_done.2 ⟨hrange, ls, hls, hleft, ds, hds, rfl⟩⟩
  | none =>
    refine .inr ⟨?_, fun hread => ?_⟩
    · rw [takeChunks, (laneRangeLegal_iff ..).2 hrange, require_true, withLanes_some hls, decide_eq_true hleft,
        require_true, hds, withData_none]
    · obtain ⟨ds, hsome⟩ := chunksAt_of_isSome (m := x.msg) (off := x.cur) (n := cnt.toNat)
        fun a _ ha => hread a (by omega)
      cases hds.symm.trans hsome

theorem xorpEffect_completes_or_waits {lane : BitVec 6} {c : Config} {x : UnitState} {ls : List Byte16}
    (hls : x.lanes = some ls) (hlane : lane.toNat + 1 ≤ c.L) (hleft : 1 ≤ x.lenl - x.cur ∧ x.lenl - x.cur ≤ 15) :
    (∃ y, xorpEffect lane c x = .done y) ∨ xorpEffect lane c x = .wait ∧ ¬Readable x.msg x.lenl := by
  cases hpad : paddedChunkAt x.msg x.cur (x.lenl - x.cur) with
  | some pad => exact .inl ⟨_, xorpEffect_eq_done.2 ⟨hlane, ls, hls, hleft, pad, hpad, rfl⟩⟩
  | none =>
    refine .inr ⟨?_, fun hread => ?_⟩
    · rw [xorpEffect, (laneRangeLegal_iff ..).2 ⟨le_rfl, hlane⟩, require_true, withLanes_some hls, ← Bool.decide_and,
        decide_eq_true hleft, require_true, hpad, withData_none]
    · obtain ⟨pad, hsome, -⟩ := paddedChunkAt_spec (m := x.msg) (off := x.cur) (rem := x.lenl - x.cur)
        fun j hj => hread _ (by omega)
      cases hpad.symm.trans hsome

/-- A legal micro-operation whose bytes are left raises no fault; it completes where the message is delivered. -/
theorem effectOf_completes_or_waits {i : Instr} {c : Config} {x : UnitState} (hlegal : i.legalUop c.L = true)
    (hleft : BytesLeft x.lenl i x.cur) (hlanes : x.lanes.isSome = true ∨ i = .ldseed) :
    (∃ y, effectOf i c x = .done y) ∨ effectOf i c x = .wait ∧ ¬Readable x.msg x.lenl := by
  rcases hlanes with hsome | rfl
  case inr => exact .inl ⟨_, rfl⟩
  obtain ⟨ls, hls⟩ := Option.isSome_iff_exists.1 hsome
  cases i with
  | ldseed => exact .inl ⟨_, rfl⟩
  | xord lane cnt => exact takeChunks_completes_or_waits hls hlegal hleft
  | rndd lane cnt => exact takeChunks_completes_or_waits hls hlegal hleft
  | xorp lane => exact xorpEffect_completes_or_waits hls (of_decide_eq_true hlegal) hleft
  | rndf lane cnt => exact .inl (fixedRound_completes (key := roundKeyAt) hls hlegal)
  | rndz lane cnt => exact .inl (fixedRound_completes (key := fun _ _ => zero16) hls hlegal)
  | rndk lane cnt => exact .inl (fixedRound_completes (key := fun c _ => c.fk) hls hlegal)
  | fold => exact .inl ⟨_, (foldEffect_eq_done (c := c)).2 ⟨ls, hls, rfl⟩⟩
  | lenx => exact .inl ⟨_, (lenxEffect_eq_done (c := c)).2 ⟨ls, hls, rfl⟩⟩
  | out => exact .inl ⟨_, (outEffect_eq_done (c := c)).2 ⟨ls, hls, rfl⟩⟩
  | _ => cases hlegal

theorem fixedRound_done_cursor {key : Config → Nat → Byte16} {lane cnt : BitVec 6} {c : Config} {x y : UnitState}
    (h : fixedRound key lane cnt c x = .done y) : y.cur = x.cur ∧ y.lanes.isSome = true := by
  obtain ⟨-, ls, -, rfl⟩ := fixedRound_eq_done.1 h
  exact ⟨rfl, rfl⟩

/-- A completed micro-operation leaves the cursor past the bytes it takes, and lanes that hold values. -/
theorem effectOf_done_cursor {i : Instr} {c : Config} {x y : UnitState} (h : effectOf i c x = .done y) :
    y.cur = cursorAfter x.lenl i x.cur ∧ y.lanes.isSome = true := by
  cases i with
  | xord lane cnt | rndd lane cnt =>
    obtain ⟨-, ls, -, -, ds, -, rfl⟩ := takeChunks_eq_done.1 h
    exact ⟨rfl, rfl⟩
  | xorp lane =>
    obtain ⟨-, ls, -, -, pad, -, rfl⟩ := xorpEffect_eq_done.1 h
    exact ⟨rfl, rfl⟩
  | rndf lane cnt => exact fixedRound_done_cursor h
  | rndz lane cnt => exact fixedRound_done_cursor (key := fun _ _ => zero16) h
  | rndk lane cnt => exact fixedRound_done_cursor (key := fun c _ => c.fk) h
  | fold =>
    obtain ⟨ls, -, rfl⟩ := (foldEffect_eq_done (c := c)).1 h
    exact ⟨rfl, rfl⟩
  | lenx =>
    obtain ⟨ls, -, rfl⟩ := (lenxEffect_eq_done (c := c)).1 h
    exact ⟨rfl, rfl⟩
  | out =>
    obtain ⟨ls, hls, rfl⟩ := (outEffect_eq_done (c := c)).1 h
    exact ⟨rfl, congrArg Option.isSome hls⟩
  | ldseed =>
    cases h
    exact ⟨rfl, rfl⟩
  | _ => cases h

/-- A completed micro-operation leaves what only the sequencer and the host write. -/
theorem effectOf_done_frame {i : Instr} {c : Config} {x y : UnitState} (h : effectOf i c x = .done y) :
    y.upc = x.upc ∧ y.lenl = x.lenl ∧ y.seq = x.seq := by
  rcases effectOf_eq_done h with w | ⟨ls, -, rfl⟩
  · rw [w.frame]
    exact ⟨rfl, rfl, rfl⟩
  · exact ⟨rfl, rfl, rfl⟩

/-! One step of the sequencer of a busy unit on schedule. -/

/-- The unit `y` that a completed micro-operation leaves, counted, its sequencer at `q` (10_state R31). -/
def moved (q : SeqRegs) (y : UnitState) : UnitState := { y with upc := y.upc + 1, seq := q }

section
variable {u : UnitId} {s : State} {i : Instr} {q : SeqRegs}

theorem wordLeaves_uopWord {c : Config} (hlegal : i.legalUop c.L = true) (x : UnitState) :
    wordLeaves (uopWord i) c x = (effectOf i c x).leaves x :=
  wordLeaves_of_ok (decodeWord_uopWord (wellFormed_of_legalUop hlegal) (nbits_of_legalUop hlegal)) c x

theorem sequencerStep_of_done {y : UnitState} (hb : (s.unit u).busy = true)
    (hi : issue u s.cfg (s.unit u) = .uop i q) (hlegal : i.legalUop s.cfg.L = true)
    (he : effectOf i s.cfg (s.unit u) = .done y) :
    sequencerStep u s = .next (({ s with active := u } : State).setUnit u (moved q y)) := by
  obtain ⟨hupc, -⟩ := effectOf_done_frame he
  have hcount : ((UopResult.done y).leaves (s.unit u)).upc = (s.unit u).upc + 1 := congrArg (· + 1) hupc
  rw [sequencerStep_of_uop hb hi, wordLeaves_uopWord hlegal, he, advanced, if_pos hcount]
  rfl

theorem sequencerStep_of_wait (hb : (s.unit u).busy = true) (hi : issue u s.cfg (s.unit u) = .uop i q)
    (hlegal : i.legalUop s.cfg.L = true) (he : effectOf i s.cfg (s.unit u) = .wait) :
    sequencerStep u s = .next { s with active := u } := by
  have hstay : (UopResult.wait.leaves (s.unit u)).upc ≠ (s.unit u).upc + 1 := (Nat.lt_succ_self _).ne
  rw [sequencerStep_of_uop hb hi, wordLeaves_uopWord hlegal, he, advanced, if_neg hstay]
  exact congrArg Host.Outcome.next (setUnit_unit ({ s with active := u } : State) u)

/-- A busy unit on schedule takes the move of its place, or it waits for a byte that is not delivered. -/
theorem sequencerStep_moves_or_waits (hc : s.cfg.Valid) (hb : (s.unit u).busy = true)
    (hs : onSchedule u s.cfg (s.unit u) = true) : ∃ i q, issue u s.cfg (s.unit u) = .uop i q ∧
      Issues u s.cfg (s.unit u).lenl (s.unit u).seq i q ∧
      ((∃ y, effectOf i s.cfg (s.unit u) = .done y ∧
          sequencerStep u s = .next (({ s with active := u } : State).setUnit u (moved q y))) ∨
        ¬Readable (s.unit u).msg (s.unit u).lenl ∧ sequencerStep u s = .next { s with active := u }) := by
  obtain ⟨hr, hcur, -, hlanes⟩ := (onSchedule_iff hb).1 hs
  obtain ⟨i, q, hi, hmove⟩ := issue_issues hc hr hcur
  obtain ⟨hleft, -⟩ := hmove.cursor hc hr
  have hlegal := hmove.legal hc hr
  refine ⟨i, q, hi, hmove, ?_⟩
  rcases effectOf_completes_or_waits hlegal (hcur ▸ hleft) (hlanes.imp_right (hmove.eq_ldseed hc hr)) with
    ⟨y, he⟩ | ⟨he, hread⟩
  · exact .inl ⟨y, he, sequencerStep_of_done hb hi hlegal he⟩
  · exact .inr ⟨hread, sequencerStep_of_wait hb hi hlegal he⟩

/-- After its move the unit is on schedule again, or `OUT` has ended the invocation. -/
theorem moved_onSchedule {c : Config} {x y : UnitState} (hc : c.Valid) (hb : x.busy = true)
    (hs : onSchedule u c x = true) (hmove : Issues u c x.lenl x.seq i q) (he : effectOf i c x = .done y) :
    onSchedule u c (moved q y) = true := by
  obtain ⟨hr, hcur, hupc, -⟩ := (onSchedule_iff hb).1 hs
  obtain ⟨hupc', hlenl, -⟩ := effectOf_done_frame he
  obtain ⟨hcur', hlanes⟩ := effectOf_done_cursor he
  obtain ⟨-, hcursor⟩ := hmove.cursor hc hr
  by_cases hout : i = .out
  · subst hout
    obtain ⟨ls, -, rfl⟩ := (outEffect_eq_done (c := c)).1 he
    exact onSchedule_of_idle rfl
  · obtain ⟨hbusy, -⟩ := effectOf_done_keepsFlagsAndDigest hout he
    have hbusy' : (moved q y).busy = true := hbusy.trans hb
    refine (onSchedule_iff hbusy').2 ⟨?_, ?_, ?_, .inl hlanes⟩
    · exact hlenl ▸ (hmove.ranges hc hr).resolve_left hout
    · show y.cur = placeCursor u c y.lenl q
      rw [hlenl, hcursor, hcur', hcur]
    · show y.upc + 1 = placeIndex u c y.lenl q
      rw [hlenl, hmove.index hc hr, hupc', hupc]

end

end Sys2Proof.Machine
end

section
/-! SUPPORT. Every operation of the complete hardware keeps each busy unit on schedule, and the obligation O43. -/

namespace Sys2Proof.Machine

/-- The unit is on schedule and its loop variables fit their widths (10_state R29). -/
structure Placed (u : UnitId) (c : Config) (x : UnitState) : Prop where
  onSchedule : onSchedule u c x = true
  fit : x.seq.fit = true

namespace Placed

variable {u : UnitId} {c : Config} {x : UnitState}

theorem flagsFaulted (h : Placed u c x) (k : Cause) : Placed u c (Machine.flagsFaulted k x) where
  onSchedule := onSchedule_of_idle rfl
  fit := h.fit

/-- A started unit stands at the first micro-operation, its loop variables as they were (log 15). -/
theorem started (h : Placed u c x) (len : Nat) : Placed u c (flagsStarted { x with
    lenl := len, cur := 0, upc := 0, lanes := none, digest := none, seq := { x.seq with point := .init } }) where
  onSchedule := by cases u <;> exact (onSchedule_iff rfl).2 ⟨rfl, rfl, rfl, .inr rfl⟩
  fit := h.fit

theorem presented (h : Placed u c x) (m : Message) : Placed u c { x with msg := m } where
  onSchedule := h.onSchedule
  fit := h.fit

theorem resetWith (m : Message) : Placed u c (UnitState.resetWith m) where
  onSchedule := onSchedule_of_idle rfl
  fit := rfl

theorem moved {y : UnitState} {i : Instr} {q : SeqRegs} (hc : c.Valid) (hlen : x.lenl < 2 ^ 64) (hb : x.busy = true)
    (h : Placed u c x) (hmove : Issues u c x.lenl x.seq i q) (he : effectOf i c x = .done y) :
    Placed u c (Machine.moved q y) where
  onSchedule := moved_onSchedule hc hb h.onSchedule hmove he
  fit := hmove.fit hc hlen ((onSchedule_iff hb).1 h.onSchedule).1 h.fit

end Placed

/-- Both units are placed. -/
def State.AllPlaced (s : State) : Prop := ∀ u, Placed u s.cfg (s.unit u)

theorem running_iff {s : State} : s.Running ↔ s.Legal ∧ s.AllPlaced := by
  constructor
  · rintro ⟨hlegal, hopt, href, hoptFit, hrefFit⟩
    exact ⟨hlegal, fun | .opt => ⟨hopt, hoptFit⟩ | .ref => ⟨href, hrefFit⟩⟩
  · rintro ⟨hlegal, hplaced⟩
    exact ⟨hlegal, (hplaced .opt).onSchedule, (hplaced .ref).onSchedule, (hplaced .opt).fit, (hplaced .ref).fit⟩

namespace State.AllPlaced

theorem setUnit {s : State} {u : UnitId} {x : UnitState} (h : s.AllPlaced) (hx : Placed u s.cfg x) :
    (s.setUnit u x).AllPlaced := by
  intro v
  rw [setUnit_cfg]
  rcases eq_or_ne v u with rfl | hv
  · rwa [unit_setUnit]
  · rw [unit_setUnit_of_ne s x hv]
    exact h v

/-- The fields beside the two units and the constants play no part. -/
theorem of_units {s t : State} (h : s.AllPlaced) (hcfg : t.cfg = s.cfg) (hopt : t.opt = s.opt) (href : t.ref = s.ref) :
    t.AllPlaced
  | .opt => by
    rw [hcfg, unit_opt, hopt]
    exact h .opt
  | .ref => by
    rw [hcfg, unit_ref, href]
    exact h .ref

theorem start {s : State} (u : UnitId) (h : s.AllPlaced) : (s.start u).AllPlaced := by
  rcases start_cases s u with ⟨-, he⟩ | ⟨-, -, he⟩ | ⟨-, -, he⟩ <;> rw [he]
  · exact h
  · exact h.setUnit ((h u).flagsFaulted _)
  · exact h.setUnit ((h u).started _)

theorem ctrlWrite {v : BitVec 32} {s t : State} (h : s.AllPlaced) (hs : ctrlWrite v s = .next t) : t.AllPlaced := by
  rcases ctrlWrite_cases v s with he | he | he | he <;> rw [he] at hs <;> cases hs
  · exact h
  · exact h.start .opt
  · exact (h.start .opt).start .ref
  · exact h.start .ref

theorem regWrite {off : BitVec 7} {v : BitVec 32} {s t : State} (h : s.AllPlaced) (hs : regWrite off v s = .next t) :
    t.AllPlaced := by
  rcases regWrite_eq_next hs with hctrl | rfl | rfl | rfl
  · exact h.ctrlWrite hctrl
  all_goals exact h.of_units rfl rfl rfl

theorem resetNow (s : State) : s.resetNow.AllPlaced
  | .opt => .resetWith _
  | .ref => .resetWith _

theorem sequencerStep {u : UnitId} {s t : State} (hlegal : s.Legal) (h : s.AllPlaced)
    (hs : sequencerStep u s = .next t) : t.AllPlaced := by
  cases hb : (s.unit u).busy
  · cases (sequencerStep_of_idle hb).symm.trans hs
    exact h
  · have ⟨hc, _⟩ := hlegal
    have hactive : ({ s with active := u } : State).AllPlaced := h.of_units rfl rfl rfl
    obtain ⟨i, q, -, hmove, ⟨y, he, hstep⟩ | ⟨-, hstep⟩⟩ := sequencerStep_moves_or_waits hc hb (h u).onSchedule
    · cases hstep.symm.trans hs
      exact hactive.setUnit ((h u).moved hc (hlegal.lenl_lt u) hb hmove he)
    · cases hstep.symm.trans hs
      exact hactive

/-- Every move but handing a word to a datapath taken alone keeps both units placed. -/
theorem act {m : Move} {s t : State} (hm : m.ofHardware = true) (hlegal : s.Legal) (h : s.AllPlaced)
    (hs : act m s = .next t) : t.AllPlaced := by
  cases m with
  | hand u w => cases hm
  | regWrite off v => exact h.regWrite hs
  | regRead off =>
    obtain ⟨v, n, rfl⟩ := regRead_eq_next hs
    exact h.of_units rfl rfl rfl
  | sequence u => exact h.sequencerStep hlegal hs
  | place u off b =>
    rw [placeByte_eq_next hs]
    exact h.setUnit ((h u).presented _)
  | reset =>
    cases hs
    exact resetNow s

theorem onItsOwn {s t : State} (hlegal : s.Legal) (h : s.AllPlaced) (hs : onItsOwn s = .next t) : t.AllPlaced := by
  rcases onItsOwn_eq_next hs with rfl | ⟨u, n, hu⟩
  · exact h
  · exact sequencerStep (s := { s with draws := n }) hlegal (h.of_units rfl rfl rfl) hu

end State.AllPlaced

end Sys2Proof.Machine

namespace Sys2Proof

open Sys2Proof.Machine

/-- Settles O43: a step is the first pending move or a busy unit's own step; each keeps the state legal and both units
placed. -/
theorem everyHardwareStepKeepsRunning : Obligations.EveryHardwareStepKeepsRunning := by
  intro s t hrun hm hs
  obtain ⟨hlegal, hplaced⟩ := running_iff.1 hrun
  refine running_iff.2 ⟨everyStepKeepsLegal s t hlegal hs, ?_⟩
  cases hmoves : s.moves with
  | nil => exact hplaced.onItsOwn hlegal (step_nil hmoves ▸ hs)
  | cons m rest =>
    have hrest : ({ s with moves := rest } : State).AllPlaced := hplaced.of_units rfl rfl rfl
    have hhardware : m.ofHardware = true := hm m (by rw [hmoves, List.head?_cons])
    exact State.AllPlaced.act (s := { s with moves := rest }) hhardware hlegal hrest (step_cons hmoves ▸ hs)

end Sys2Proof
end

section
/-! SUPPORT. What each micro-operation does to the lanes, in the terms of the closed form: whole lists of lanes, and the
message's chunks by their offset. -/

namespace Sys2Proof.Machine

/-- The chunk at a byte offset of a message of `lenl` bytes, zero-padded past its end (43_sequencer_optimized R148). -/
def chunkFrom (m : Message) (lenl off : Nat) : Byte16 :=
  zext16 ((List.range (min 16 (lenl - off))).map fun j => (m.read (off + j)).getD 0)

theorem messageChunk_eq_chunkFrom (m : Message) (lenl k : Nat) : messageChunk m lenl k = chunkFrom m lenl (16 * k) := rfl

theorem zext16_eq_chunkFrom {m : Message} {lenl off n : Nat} {bs : List Byte} (h : m.readBytes off n = some bs)
    (hn : n = min 16 (lenl - off)) : zext16 bs = chunkFrom m lenl off := by
  obtain ⟨hlen, hread⟩ := readBytes_eq_some.1 h
  refine congrArg zext16 (List.ext_getElem (by simp [hlen, hn]) fun j hj hj' => ?_)
  simp [hread j (hlen ▸ hj), hj]

theorem eq_chunkFrom_of_chunkAt {m : Message} {lenl off : Nat} {d : Byte16} (h : chunkAt m off = some d)
    (hend : off + 16 ≤ lenl) : d = chunkFrom m lenl off := by
  obtain ⟨bs, hbs, rfl⟩ := Option.map_eq_some_iff.1 h
  exact zext16_eq_chunkFrom hbs (by omega)

theorem eq_chunkFrom_of_paddedChunkAt {m : Message} {lenl off : Nat} {d : Byte16}
    (h : paddedChunkAt m off (lenl - off) = some d) (hleft : lenl - off ≤ 15) : d = chunkFrom m lenl off := by
  obtain ⟨bs, hbs, rfl⟩ := Option.map_eq_some_iff.1 h
  exact zext16_eq_chunkFrom hbs (by omega)

/-- The lanes after a micro-operation on lanes `ls`, the cursor at `cur` (R99 to R103, R110 to R112, R120 to R122). -/
def lanesAfterUop (c : Config) (m : Message) (lenl cur : Nat) (i : Instr) (ls : List Byte16) : List Byte16 :=
  match i with
  | .ldseed => (List.range c.L).map (seedAt c)
  | .xord lane cnt =>
    onNamedLanes lane.toNat cnt.toNat (fun j v => v ^^^ chunkFrom m lenl (cur + 16 * (j - lane.toNat))) ls
  | .xorp lane => onNamedLanes lane.toNat 1 (fun _ v => v ^^^ chunkFrom m lenl cur) ls
  | .rndf lane cnt => onNamedLanes lane.toNat cnt.toNat (fun j v => aesr v (roundKeyAt c j)) ls
  | .rndz lane cnt => onNamedLanes lane.toNat cnt.toNat (fun _ v => aesr v zero16) ls
  | .rndd lane cnt =>
    onNamedLanes lane.toNat cnt.toNat (fun j v => aesr v (chunkFrom m lenl (cur + 16 * (j - lane.toNat)))) ls
  | .rndk lane cnt => onNamedLanes lane.toNat cnt.toNat (fun _ v => aesr v c.fk) ls
  | .fold => ls.set 0 (foldLanes ls)
  | .lenx => ls.set 0 (ls.headD zero16 ^^^ lengthBlock lenl)
  | _ => ls

/-- An operation on named lanes depends only on what it does to them. -/
theorem onNamedLanes_congr {a n : Nat} {f g : Nat → Byte16 → Byte16} (h : ∀ j, a ≤ j → j < a + n → f j = g j)
    (ls : List Byte16) : onNamedLanes a n f ls = onNamedLanes a n g ls := by
  refine List.ext_getElem? fun j => ?_
  simp only [getElem?_onNamedLanes]
  split
  next hj => rw [h j hj.1 hj.2]
  next => rfl

theorem takeChunks_done_lanes {f : Byte16 → Byte16 → Byte16} {lane cnt : BitVec 6} {c : Config} {x y : UnitState}
    {ls : List Byte16} (h : takeChunks f lane cnt c x = .done y) (hls : x.lanes = some ls) : y.lanes = some
      (onNamedLanes lane.toNat cnt.toNat
        (fun j v => f v (chunkFrom x.msg x.lenl (x.cur + 16 * (j - lane.toNat)))) ls) := by
  obtain ⟨-, ls', hls', hend, ds, hds, rfl⟩ := takeChunks_eq_done.1 h
  cases hls.symm.trans hls'
  refine congrArg some (onNamedLanes_congr (fun j hlo hhi => ?_) ls)
  rw [eq_chunkFrom_of_chunkAt (lenl := x.lenl) (chunkAt_of_chunksAt hds (j := j - lane.toNat) (by omega)) (by omega)]

theorem xorpEffect_done_lanes {lane : BitVec 6} {c : Config} {x y : UnitState} {ls : List Byte16}
    (h : xorpEffect lane c x = .done y) (hls : x.lanes = some ls) :
    y.lanes = some (onNamedLanes lane.toNat 1 (fun _ v => v ^^^ chunkFrom x.msg x.lenl x.cur) ls) := by
  obtain ⟨-, ls', hls', hleft, pad, hpad, rfl⟩ := xorpEffect_eq_done.1 h
  cases hls.symm.trans hls'
  rw [eq_chunkFrom_of_paddedChunkAt hpad hleft.2]

theorem fixedRound_done_lanes {key : Config → Nat → Byte16} {lane cnt : BitVec 6} {c : Config} {x y : UnitState}
    {ls : List Byte16} (h : fixedRound key lane cnt c x = .done y) (hls : x.lanes = some ls) :
    y.lanes = some (onNamedLanes lane.toNat cnt.toNat (fun j v => aesr v (key c j)) ls) := by
  obtain ⟨-, ls', hls', rfl⟩ := fixedRound_eq_done.1 h
  cases hls.symm.trans hls'
  rfl

/-- A completed micro-operation leaves these lanes; `LDSEED` needs none before it. -/
theorem effectOf_done_lanes {i : Instr} {c : Config} {x y : UnitState} {ls : List Byte16}
    (h : effectOf i c x = .done y) (hls : i = .ldseed ∨ x.lanes = some ls) :
    y.lanes = some (lanesAfterUop c x.msg x.lenl x.cur i ls) := by
  rcases hls with rfl | hls
  case inl =>
    cases h
    rfl
  cases i with
  | ldseed =>
    cases h
    rfl
  | xord lane cnt => exact takeChunks_done_lanes h hls
  | rndd lane cnt => exact takeChunks_done_lanes h hls
  | xorp lane => exact xorpEffect_done_lanes h hls
  | rndf lane cnt => exact fixedRound_done_lanes h hls
  | rndz lane cnt => exact fixedRound_done_lanes (key := fun _ _ => zero16) h hls
  | rndk lane cnt => exact fixedRound_done_lanes (key := fun c _ => c.fk) h hls
  | fold =>
    obtain ⟨ls', hls', rfl⟩ := (foldEffect_eq_done (c := c)).1 h
    cases hls.symm.trans hls'
    rfl
  | lenx =>
    obtain ⟨ls', hls', rfl⟩ := (lenxEffect_eq_done (c := c)).1 h
    cases hls.symm.trans hls'
    rfl
  | out =>
    obtain ⟨ls', -, rfl⟩ := (outEffect_eq_done (c := c)).1 h
    exact hls
  | _ => cases h

end Sys2Proof.Machine
end

section
/-! SUPPORT. How far each lane is in its own chunks, and the lanes at every place of the two schedules. -/

namespace Sys2Proof.Machine

/-! One lane (43_sequencer_optimized R148; 10_state R24). -/

/-- Lane `j` after the first `n` chunks that are routed to it, which are the chunks `j`, `L + j`, `2 L + j` and so on. -/
def laneDone (c : Config) (m : Message) (lenl j : Nat) : Nat → Byte16
  | 0 => seedAt c j
  | n + 1 => mix c j (laneDone c m lenl j n ^^^ messageChunk m lenl (n * c.L + j))

/-- Lane `j` with `n` chunks done and `r` of the four operations on the next one: the exclusive or with the chunk, two
rounds with the round key, and the zero round, which makes it done. -/
def laneAt (c : Config) (m : Message) (lenl j n : Nat) : Nat → Byte16
  | 0 => laneDone c m lenl j n
  | 1 => laneDone c m lenl j n ^^^ messageChunk m lenl (n * c.L + j)
  | 2 => aesr (laneDone c m lenl j n ^^^ messageChunk m lenl (n * c.L + j)) (roundKeyAt c j)
  | 3 => aesr (aesr (laneDone c m lenl j n ^^^ messageChunk m lenl (n * c.L + j)) (roundKeyAt c j)) (roundKeyAt c j)
  | _ => laneDone c m lenl j (n + 1)

/-- How many of the first `n` chunks are routed to lane `j`. -/
def chunksOf (c : Config) (n j : Nat) : Nat := n / c.L + if j < n % c.L then 1 else 0

theorem chunksOf_zero (c : Config) (j : Nat) : chunksOf c 0 j = 0 := by simp [chunksOf]

/-- Whole rows of chunks and the beginning of the next. -/
theorem chunksOf_rows {c : Config} {b r j : Nat} (hr : r ≤ c.L) (hj : j < c.L) :
    chunksOf c (b * c.L + r) j = b + if j < r then 1 else 0 := by
  unfold chunksOf
  rcases Nat.lt_or_eq_of_le hr with hlt | rfl
  · rw [Nat.mul_add_mod', Nat.mod_eq_of_lt hlt, Nat.mul_comm, Nat.mul_add_div (by omega), Nat.div_eq_of_lt hlt,
      Nat.add_zero]
  · rw [← Nat.succ_mul, Nat.mul_mod_left, Nat.mul_div_cancel _ (by omega)]
    simp [hj]

theorem chunksOf_succ {c : Config} (hL : 1 ≤ c.L) {n j : Nat} (hj : j < c.L) :
    chunksOf c (n + 1) j = chunksOf c n j + if j = n % c.L then 1 else 0 := by
  have hlt : n % c.L < c.L := Nat.mod_lt n hL
  have hn : n = n / c.L * c.L + n % c.L := (Nat.div_add_mod' ..).symm
  have hsucc : n + 1 = n / c.L * c.L + (n % c.L + 1) := by omega
  rw [hsucc, chunksOf_rows hlt hj, chunksOf]
  split_ifs <;> omega

/-- The lane that chunk `n` is routed to has all its earlier chunks done. -/
theorem chunksOf_routed (c : Config) (n : Nat) : chunksOf c n (n % c.L) * c.L + n % c.L = n := by
  rw [chunksOf, if_neg (Nat.lt_irrefl _)]
  exact Nat.div_add_mod' ..

/-- The closed form of a lane, chunk by chunk of the message, is the lane after its own chunks. -/
theorem absorbed_eq_laneDone {c : Config} (hL : 1 ≤ c.L) (m : Message) (lenl : Nat) {j : Nat} (hj : j < c.L) (n : Nat) :
    absorbed c m lenl n j = laneDone c m lenl j (chunksOf c n j) := by
  induction n with
  | zero => rw [absorbed_zero, chunksOf_zero, laneDone]
  | succ n ih =>
    rw [chunksOf_succ hL hj]
    by_cases hroute : j = n % c.L
    · have hchunk : chunksOf c n j * c.L + j = n := hroute ▸ chunksOf_routed c n
      rw [absorbed_succ_routed hroute, ih, if_pos hroute, laneDone, hchunk]
    · rw [absorbed_succ_other hroute, ih, if_neg hroute, Nat.add_zero]

/-! All lanes, each as far as `p` says: chunks done, and operations on the next. -/

def lanesAt (c : Config) (m : Message) (lenl : Nat) (p : Nat → Nat × Nat) : List Byte16 :=
  (List.range c.L).map fun j => laneAt c m lenl j (p j).1 (p j).2

/-- The lanes of the closed form. -/
def absorbedLanes (c : Config) (m : Message) (lenl : Nat) : List Byte16 :=
  (List.range c.L).map (absorbed c m lenl (chunkCount lenl))

section
variable {c : Config} {m : Message} {lenl : Nat} {p p' : Nat → Nat × Nat}

theorem lanesAt_congr (h : ∀ j < c.L, p j = p' j) : lanesAt c m lenl p = lanesAt c m lenl p' :=
  List.map_congr_left fun j hj => by rw [h j (List.mem_range.1 hj)]

theorem lanesAt_all (hL : 1 ≤ c.L) :
    lanesAt c m lenl (fun j => (chunksOf c (chunkCount lenl) j, 0)) = absorbedLanes c m lenl :=
  List.map_congr_left fun _ hj => (absorbed_eq_laneDone hL m lenl (List.mem_range.1 hj) _).symm

theorem lanesAt_zero (h : ∀ j < c.L, p j = (0, 0)) : lanesAt c m lenl p = (List.range c.L).map (seedAt c) :=
  List.map_congr_left fun j hj => by simp only [h j (List.mem_range.1 hj), laneAt, laneDone]

/-- The lanes `a .. a+n-1` go one step by `f`, the others stay. -/
theorem onNamedLanes_lanesAt {a n : Nat} {f : Nat → Byte16 → Byte16}
    (h : ∀ j < c.L, if a ≤ j ∧ j < a + n
      then f j (laneAt c m lenl j (p j).1 (p j).2) = laneAt c m lenl j (p' j).1 (p' j).2 else p' j = p j) :
    onNamedLanes a n f (lanesAt c m lenl p) = lanesAt c m lenl p' := by
  refine List.ext_getElem (by simp [lanesAt]) fun j hj hj' => ?_
  have hstep := h j (by simpa [lanesAt] using hj')
  simp only [onNamedLanes, lanesAt, List.getElem_mapIdx, List.getElem_map, List.getElem_range]
  split
  next hnamed => rwa [if_pos hnamed] at hstep
  next hnamed =>
    rw [if_neg hnamed] at hstep
    rw [hstep]

end

end Sys2Proof.Machine
end

section
/-! SUPPORT. How many bytes each lane has absorbed at every place of the two schedules, and what each move of a
sequencer does to the lanes. -/
namespace Sys2Proof.Machine

/-- The lanes `a .. a+n-1` go from `p` to `p'` as `R` says, the other lanes stay. -/
def LanesGo (L a n : Nat) (R : Nat → Nat × Nat → Nat × Nat → Prop) (p p' : Nat → Nat × Nat) : Prop :=
  ∀ j < L, if a ≤ j ∧ j < a + n then R j (p j) (p' j) else p' j = p j

section
variable {c : Config} {m : Message} {lenl cur : Nat} {p p' : Nat → Nat × Nat} {lane cnt : BitVec 6}

theorem lanesAfterUop_xord
    (h : LanesGo c.L lane.toNat cnt.toNat (fun j s t => s.2 = 0 ∧ t = (s.1, 1) ∧
      cur + 16 * (j - lane.toNat) = 16 * (s.1 * c.L + j)) p p') :
    lanesAfterUop c m lenl cur (.xord lane cnt) (lanesAt c m lenl p) = lanesAt c m lenl p' := by
  refine onNamedLanes_lanesAt fun j hj => ?_
  have hgo := h j hj
  split
  next hnamed =>
    obtain ⟨hs, ht, hoff⟩ := (if_pos hnamed).mp hgo
    rw [hs, ht, hoff]
    rfl
  next hnamed => exact (if_neg hnamed).mp hgo

theorem lanesAfterUop_xorp
    (h : LanesGo c.L lane.toNat 1 (fun j s t => s.2 = 0 ∧ t = (s.1, 1) ∧ cur = 16 * (s.1 * c.L + j)) p p') :
    lanesAfterUop c m lenl cur (.xorp lane) (lanesAt c m lenl p) = lanesAt c m lenl p' := by
  refine onNamedLanes_lanesAt fun j hj => ?_
  have hgo := h j hj
  split
  next hnamed =>
    obtain ⟨hs, ht, hoff⟩ := (if_pos hnamed).mp hgo
    rw [hs, ht, hoff]
    rfl
  next hnamed => exact (if_neg hnamed).mp hgo

theorem lanesAfterUop_rndf
    (h : LanesGo c.L lane.toNat cnt.toNat (fun _ s t => (s.2 = 1 ∨ s.2 = 2) ∧ t = (s.1, s.2 + 1)) p p') :
    lanesAfterUop c m lenl cur (.rndf lane cnt) (lanesAt c m lenl p) = lanesAt c m lenl p' := by
  refine onNamedLanes_lanesAt fun j hj => ?_
  have hgo := h j hj
  split
  next hnamed =>
    obtain ⟨hs | hs, ht⟩ := (if_pos hnamed).mp hgo <;> rw [ht, hs] <;> rfl
  next hnamed => exact (if_neg hnamed).mp hgo

theorem lanesAfterUop_rndz
    (h : LanesGo c.L lane.toNat cnt.toNat (fun _ s t => s.2 = 3 ∧ t = (s.1 + 1, 0)) p p') :
    lanesAfterUop c m lenl cur (.rndz lane cnt) (lanesAt c m lenl p) = lanesAt c m lenl p' := by
  refine onNamedLanes_lanesAt fun j hj => ?_
  have hgo := h j hj
  split
  next hnamed =>
    obtain ⟨hs, ht⟩ := (if_pos hnamed).mp hgo
    rw [hs, ht]
    rfl
  next hnamed => exact (if_neg hnamed).mp hgo

theorem lanesAfterUop_rndd
    (h : LanesGo c.L lane.toNat cnt.toNat (fun j s t => s.2 = 3 ∧ t = (s.1 + 1, 1) ∧
      cur + 16 * (j - lane.toNat) = 16 * ((s.1 + 1) * c.L + j)) p p') :
    lanesAfterUop c m lenl cur (.rndd lane cnt) (lanesAt c m lenl p) = lanesAt c m lenl p' := by
  refine onNamedLanes_lanesAt fun j hj => ?_
  have hgo := h j hj
  split
  next hnamed =>
    obtain ⟨hs, ht, hoff⟩ := (if_pos hnamed).mp hgo
    rw [hs, ht, hoff, aesr_eq_xor]
    rfl
  next hnamed => exact (if_neg hnamed).mp hgo

/-- How far lane `j` is at a place of OPT_SCHEDULE before FINAL. -/
def optProgress (c : Config) (lenl : Nat) (q : SeqRegs) (j : Nat) : Nat × Nat :=
  let first := q.gi * c.G
  let n := nsb c lenl
  match q.point with
  | .init => (0, 0)
  | .bulkLoad => if j < first then (0, 1) else (0, 0)
  | .loopRnd1 => if j < first then (q.sb, 1) else (q.sb - 1, 1)
  | .loopRnd2 => if j < first then (q.sb, 1) else if j < first + c.G then (q.sb - 1, 2) else (q.sb - 1, 1)
  | .loopData => if j < first then (q.sb, 1) else if j < first + c.G then (q.sb - 1, 3) else (q.sb - 1, 1)
  | .postRnd1 => if j < first then (n, 0) else (n - 1, 1)
  | .postRnd2 => if j < first then (n, 0) else if j < first + c.G then (n - 1, 2) else (n - 1, 1)
  | .postZero => if j < first then (n, 0) else if j < first + c.G then (n - 1, 3) else (n - 1, 1)
  | .tailEntry => (n, 0)
  | .groupTest | .singleTest => if j < q.tl then (n + 1, 0) else (n, 0)
  | .groupRnd1 => if j < q.tl then (n + 1, 0) else if j < q.tl + c.G then (n, 1) else (n, 0)
  | .groupRnd2 => if j < q.tl then (n + 1, 0) else if j < q.tl + c.G then (n, 2) else (n, 0)
  | .groupZero => if j < q.tl then (n + 1, 0) else if j < q.tl + c.G then (n, 3) else (n, 0)
  | .singleRnd1 | .partRnd1 => if j < q.tl then (n + 1, 0) else if j < q.tl + 1 then (n, 1) else (n, 0)
  | .singleRnd2 | .partRnd2 => if j < q.tl then (n + 1, 0) else if j < q.tl + 1 then (n, 2) else (n, 0)
  | .singleZero | .partZero => if j < q.tl then (n + 1, 0) else if j < q.tl + 1 then (n, 3) else (n, 0)
  | _ => (chunksOf c (chunkCount lenl) j, 0)

/-- How far lane `j` is at a place of REF_SCHEDULE before FINAL. -/
def refProgress (c : Config) (lenl : Nat) (q : SeqRegs) (j : Nat) : Nat × Nat :=
  match q.point with
  | .init => (0, 0)
  | .chunkLoad => (chunksOf c q.k j, 0)
  | .chunkRnd1 => (chunksOf c q.k j, if j = q.k % c.L then 1 else 0)
  | .chunkRnd2 => (chunksOf c q.k j, if j = q.k % c.L then 2 else 0)
  | .chunkZero => (chunksOf c q.k j, if j = q.k % c.L then 3 else 0)
  | _ => (chunksOf c (chunkCount lenl) j, 0)

def placeProgress (u : UnitId) (c : Config) (lenl : Nat) (q : SeqRegs) : Nat → Nat × Nat :=
  match u with
  | .opt => optProgress c lenl q
  | .ref => refProgress c lenl q

/-- The lanes of unit `u` at a place of its schedule past the first micro-operation (R123, R134 to R143, R160). -/
def placeLanes (u : UnitId) (c : Config) (m : Message) (lenl : Nat) (q : SeqRegs) : List Byte16 :=
  let ls := absorbedLanes c m lenl
  let lane0 := foldLanes ls ^^^ lengthBlock lenl
  match q.point with
  | .lenx => ls.set 0 (foldLanes ls)
  | .key1 => ls.set 0 lane0
  | .key2 => ls.set 0 (aesr lane0 c.fk)
  | .white => ls.set 0 (aesr (aesr lane0 c.fk) c.fk)
  | .out | .stop => ls.set 0 (digestOf c m lenl)
  | _ => lanesAt c m lenl (placeProgress u c lenl q)

theorem rows_bytes (c : Config) (n : Nat) : n * superBlock c = 16 * (n * c.L) := Nat.mul_left_comm ..

theorem group_le_lanes (hc : c.Valid) {g : Nat} (hg : g < groups c) : g * c.G + c.G ≤ c.L :=
  groups_mul hc ▸ group_end_le hg

theorem group_eq_lanes (hc : c.Valid) {g : Nat} (hg : g < groups c) (hlast : groups c ≤ g + 1) :
    g * c.G + c.G = c.L := groups_mul hc ▸ last_group hg hlast

/-- The rows of OPT: a lane has a chunk of every super-block, and one more where the tail has come to it. -/
theorem chunksOf_chunkCount (hc : c.Valid) (lenl : Nat) {j : Nat} (hj : j < c.L) : chunksOf c (chunkCount lenl) j =
    nsb c lenl + if j < ntc c lenl + (if 0 < remBytes lenl then 1 else 0) then 1 else 0 := by
  have ⟨hL1, _⟩ := hc
  have hntc : ntc c lenl < c.L := ntc_lt hL1 lenl
  rw [chunkCount_eq c lenl]
  exact chunksOf_rows (by split <;> omega) hj

/-! FINAL (42_finalize_ops R120 to R123). -/

theorem absorbedLanes_eq_cons (hL : 1 ≤ c.L) : ∃ v vs, absorbedLanes c m lenl = v :: vs := by
  refine List.exists_cons_of_length_pos ?_
  rwa [absorbedLanes, List.length_map, List.length_range]

theorem onNamedLanes_first (f : Nat → Byte16 → Byte16) (v : Byte16) (vs : List Byte16) :
    onNamedLanes 0 1 f (v :: vs) = f 0 v :: vs := by
  refine List.ext_getElem? fun j => ?_
  rw [getElem?_onNamedLanes]
  cases j <;> simp

theorem lanesAfterUop_lenx_first (v : Byte16) (vs : List Byte16) :
    lanesAfterUop c m lenl cur .lenx (v :: vs) = (v ^^^ lengthBlock lenl) :: vs := rfl

theorem lanesAfterUop_rndk_first (v : Byte16) (vs : List Byte16) :
    lanesAfterUop c m lenl cur (.rndk 0 1) (v :: vs) = aesr v c.fk :: vs := onNamedLanes_first ..

theorem lanesAfterUop_rndz_first (v : Byte16) (vs : List Byte16) :
    lanesAfterUop c m lenl cur (.rndz 0 1) (v :: vs) = aesr v zero16 :: vs := onNamedLanes_first ..

theorem digestOf_eq_whiten (c : Config) (m : Message) (lenl : Nat) :
    digestOf c m lenl = whiten c (foldLanes (absorbedLanes c m lenl) ^^^ lengthBlock lenl) := rfl

theorem placeLanes_fold {u : UnitId} {q : SeqRegs} (hL : 1 ≤ c.L) (hp : q.point = .fold) :
    placeLanes u c m lenl q = absorbedLanes c m lenl := by
  rw [← lanesAt_all hL]
  simp only [placeLanes, hp]
  exact lanesAt_congr fun j _ => by cases u <;> simp only [placeProgress, optProgress, refProgress, hp]

theorem FinalIssues.lanes {q q' : SeqRegs} {i : Instr} (u : UnitId) (hL : 1 ≤ c.L) (h : FinalIssues q i q') :
    lanesAfterUop c m lenl cur i (placeLanes u c m lenl q) = placeLanes u c m lenl q' := by
  obtain ⟨v, vs, hls⟩ := absorbedLanes_eq_cons (c := c) (m := m) (lenl := lenl) hL
  cases h with
  | fold hp =>
    rw [placeLanes_fold hL hp]
    rfl
  | lenx hp => simp only [placeLanes, hp, hls, List.set_cons_zero, lanesAfterUop_lenx_first]
  | key1 hp | key2 hp => simp only [placeLanes, hp, hls, List.set_cons_zero, lanesAfterUop_rndk_first]
  | white hp =>
    simp only [placeLanes, hp, digestOf_eq_whiten, whiten, hls, List.set_cons_zero, lanesAfterUop_rndz_first]
  | out hp =>
    simp only [placeLanes, hp]
    rfl

/-! The moves of OPT. -/

/-- The tests of TAIL leave the lanes of the place. -/
theorem OptSettles.lanes {q r : SeqRegs} (hc : c.Valid) (h : OptSettles c lenl q r) (hr : optRanges c lenl q = true) :
    placeLanes .opt c m lenl r = placeLanes .opt c m lenl q := by
  cases h with
  | tail hp =>
    simp only [placeLanes, hp]
    exact lanesAt_congr fun j _ => by simp only [placeProgress, optProgress, hp, Nat.not_lt_zero, if_false]
  | groups hp hlt =>
    simp only [placeLanes, hp]
    exact lanesAt_congr fun j _ => by simp only [placeProgress, optProgress, hp]
  | singles hp hle hrem =>
    simp only [optRanges, hp, Bool.and_eq_true, decide_eq_true_eq] at hr
    have htl : q.tl = ntc c lenl := Nat.le_antisymm hr.2 hle
    simp only [placeLanes, hp]
    refine lanesAt_congr fun j hj => ?_
    simp only [placeProgress, optProgress, hp, chunksOf_chunkCount hc lenl hj, hrem, htl]
    grind

theorem OptIssues.lanes {q q' : SeqRegs} {i : Instr} (hc : c.Valid) (h : OptIssues c lenl q i q')
    (hr : optRanges c lenl q = true) : lanesAfterUop c m lenl (optCursor c lenl q) i (placeLanes .opt c m lenl q) =
      placeLanes .opt c m lenl q' := by
  have ⟨hL1, hL, _, hGL, _⟩ := hc
  have hntc : ntc c lenl < c.L := ntc_lt hL1 lenl
  have hG : (field c.G).toNat = c.G := field_toNat (by omega)
  have hone : (1 : BitVec 6).toNat = 1 := rfl
  induction h with
  | settle hs h ih => rw [← hs.cursor hr, ← hs.lanes hc hr, ih (hs.ranges hc hr)]
  | final h => exact h.lanes .opt hL1
  | initBulk hp =>
    refine (lanesAt_zero fun j _ => ?_).symm
    simp only [placeProgress, optProgress, Nat.zero_mul, Nat.not_lt_zero, if_false]
  | initTail hp hn =>
    refine (lanesAt_zero fun j _ => ?_).symm
    simp only [placeProgress, optProgress, hn]
  | loadNext hp hg =>
    simp only [optRanges, hp, Bool.and_eq_true, decide_eq_true_eq] at hr
    obtain ⟨hn, hgi⟩ := hr
    have hend := group_le_lanes hc hgi
    simp only [placeLanes, hp, optCursor]
    refine lanesAfterUop_xord ?_
    rw [hG, field_toNat (by omega)]
    simp only [placeProgress, optProgress, hp, LanesGo, Nat.succ_mul]
    grind
  | loadLoop hp hg | loadPost hp hg =>
    simp only [optRanges, hp, Bool.and_eq_true, decide_eq_true_eq] at hr
    obtain ⟨hn, hgi⟩ := hr
    have hend := group_eq_lanes hc hgi hg
    simp only [placeLanes, hp, optCursor]
    refine lanesAfterUop_xord ?_
    rw [hG, field_toNat (by omega)]
    simp only [placeProgress, optProgress, hp, LanesGo]
    grind
  | loopRnd1 hp | loopRnd2 hp | postRnd1 hp | postRnd2 hp =>
    simp only [optRanges, hp, Bool.and_eq_true, decide_eq_true_eq] at hr
    have hend := group_le_lanes hc hr.2
    simp only [placeLanes, hp]
    refine lanesAfterUop_rndf ?_
    rw [hG, field_toNat (by omega)]
    simp only [placeProgress, optProgress, hp, LanesGo]
    grind
  | loopNext hp hg =>
    simp only [optRanges, hp, Bool.and_eq_true, decide_eq_true_eq] at hr
    obtain ⟨⟨hsb, hlt⟩, hgi⟩ := hr
    have hend := group_le_lanes hc hgi
    obtain ⟨n, hn⟩ := Nat.exists_eq_add_of_le' hsb
    simp only [placeLanes, hp, optCursor, rows_bytes]
    refine lanesAfterUop_rndd ?_
    rw [hG, field_toNat (by omega)]
    simp only [placeProgress, optProgress, hp, LanesGo, hn, Nat.add_sub_cancel]
    grind
  | loopLoop hp hg hpass | loopPost hp hg hpass =>
    simp only [optRanges, hp, Bool.and_eq_true, decide_eq_true_eq] at hr
    obtain ⟨⟨hsb, hlt⟩, hgi⟩ := hr
    have hend := group_eq_lanes hc hgi hg
    obtain ⟨n, hn⟩ := Nat.exists_eq_add_of_le' hsb
    simp only [placeLanes, hp, optCursor, rows_bytes]
    refine lanesAfterUop_rndd ?_
    rw [hG, field_toNat (by omega)]
    simp only [placeProgress, optProgress, hp, LanesGo, hn, Nat.add_sub_cancel]
    grind
  | postNext hp hg =>
    simp only [optRanges, hp, Bool.and_eq_true, decide_eq_true_eq] at hr
    have hend := group_le_lanes hc hr.2
    simp only [placeLanes, hp]
    refine lanesAfterUop_rndz ?_
    rw [hG, field_toNat (by omega)]
    simp only [placeProgress, optProgress, hp, LanesGo, Nat.succ_mul]
    grind
  | postTail hp hg =>
    simp only [optRanges, hp, Bool.and_eq_true, decide_eq_true_eq] at hr
    have hend := group_eq_lanes hc hr.2 hg
    simp only [placeLanes, hp]
    refine lanesAfterUop_rndz ?_
    rw [hG, field_toNat (by omega)]
    simp only [placeProgress, optProgress, hp, LanesGo]
    grind
  | groupLoad hp hle | singleLoad hp hle =>
    simp only [placeLanes, hp, optCursor, bulkBytes, rows_bytes]
    refine lanesAfterUop_xord ?_
    rw [field_toNat (by omega)]
    simp only [placeProgress, optProgress, hp, LanesGo, hG, hone]
    grind
  | groupRnd1 hp | groupRnd2 hp | singleRnd1 hp | singleRnd2 hp | partRnd1 hp | partRnd2 hp =>
    simp only [optRanges, hp, Bool.and_eq_true, decide_eq_true_eq] at hr
    simp only [placeLanes, hp]
    refine lanesAfterUop_rndf ?_
    rw [field_toNat (by omega)]
    simp only [placeProgress, optProgress, hp, LanesGo, hG, hone]
    grind
  | groupZero hp | singleZero hp =>
    simp only [optRanges, hp, Bool.and_eq_true, decide_eq_true_eq] at hr
    simp only [placeLanes, hp]
    refine lanesAfterUop_rndz ?_
    rw [field_toNat (by omega)]
    simp only [placeProgress, optProgress, hp, LanesGo, hG, hone]
    grind
  | partLoad hp hle hrem =>
    simp only [optRanges, hp, Bool.and_eq_true, decide_eq_true_eq] at hr
    simp only [placeLanes, hp, optCursor, bulkBytes, rows_bytes]
    refine lanesAfterUop_xorp ?_
    rw [field_toNat (by omega)]
    simp only [placeProgress, optProgress, hp, LanesGo]
    grind
  | partZero hp =>
    simp only [optRanges, hp, Bool.and_eq_true, decide_eq_true_eq] at hr
    obtain ⟨htl, hrem⟩ := hr
    simp only [placeLanes, hp]
    refine lanesAfterUop_rndz fun j hj => ?_
    rw [field_toNat (by omega)]
    simp only [placeProgress, optProgress, hp, hone, chunksOf_chunkCount hc lenl hj, hrem, htl]
    grind

theorem RefIssues.lanes {q q' : SeqRegs} {i : Instr} (hc : c.Valid) (h : RefIssues c lenl q i q')
    (hr : refRanges lenl q = true) : lanesAfterUop c m lenl (refCursor lenl q) i (placeLanes .ref c m lenl q) =
      placeLanes .ref c m lenl q' := by
  have ⟨hL1, hL, _⟩ := hc
  have hlane : q.k % c.L < c.L := Nat.mod_lt _ hL1
  have hfield : (field (q.k % c.L)).toNat = q.k % c.L := field_toNat (by omega)
  have hone : (1 : BitVec 6).toNat = 1 := rfl
  have hroute := chunksOf_routed c q.k
  cases h with
  | final h => exact h.lanes .ref hL1
  | initChunk hp hn | initFold hp hn =>
    refine (lanesAt_zero fun j _ => ?_).symm
    simp only [placeProgress, refProgress, hn, chunksOf_zero]
  | loadFull hp hfull =>
    simp only [placeLanes, hp, refCursor]
    refine lanesAfterUop_xord ?_
    simp only [placeProgress, refProgress, hp, LanesGo, hfield, hone]
    grind
  | loadPart hp hpart =>
    simp only [placeLanes, hp, refCursor]
    refine lanesAfterUop_xorp ?_
    simp only [placeProgress, refProgress, hp, LanesGo, hfield]
    grind
  | rnd1 hp | rnd2 hp =>
    simp only [placeLanes, hp]
    refine lanesAfterUop_rndf ?_
    simp only [placeProgress, refProgress, hp, LanesGo, hfield, hone]
    grind
  | zeroNext hp hn =>
    simp only [placeLanes, hp]
    refine lanesAfterUop_rndz fun j hj => ?_
    simp only [placeProgress, refProgress, hp, hfield, hone, chunksOf_succ hL1 hj]
    grind
  | zeroFold hp hn =>
    simp only [refRanges, hp, decide_eq_true_eq] at hr
    have hcount : chunkCount lenl = q.k + 1 := Nat.le_antisymm hn hr
    simp only [placeLanes, hp]
    refine lanesAfterUop_rndz fun j hj => ?_
    simp only [placeProgress, refProgress, hp, hfield, hone, hcount, chunksOf_succ hL1 hj]
    grind

end
end Sys2Proof.Machine
end

section
/-! SUPPORT. The run of one invocation, step by step, and the obligations O53, O54, O55 and O59. -/

namespace Sys2Proof.Machine

/-! What `FOLD` and `OUT` say of the place they are issued from. -/

section
variable {u : UnitId} {c : Config} {m : Message} {lenl : Nat} {q q' : SeqRegs} {i : Instr}

theorem OptIssues.fold_place (hc : c.Valid) (h : OptIssues c lenl q i q') (hr : optRanges c lenl q = true)
    (hi : i = .fold) : optCursor c lenl q = lenl ∧ placeLanes .opt c m lenl q = absorbedLanes c m lenl := by
  have ⟨hL1, _⟩ := hc
  induction h with
  | settle hs h ih => exact hs.cursor hr ▸ hs.lanes hc hr ▸ ih (hs.ranges hc hr) hi
  | final h =>
    cases h with
    | fold hp => exact ⟨by simp only [optCursor, hp], placeLanes_fold hL1 hp⟩
    | lenx | key1 | key2 | white | out => cases hi
  | _ => cases hi

theorem RefIssues.fold_place (hL : 1 ≤ c.L) (h : RefIssues c lenl q i q') (hi : i = .fold) :
    refCursor lenl q = lenl ∧ placeLanes .ref c m lenl q = absorbedLanes c m lenl := by
  cases h with
  | final h =>
    cases h with
    | fold hp => exact ⟨by simp only [refCursor, hp], placeLanes_fold hL hp⟩
    | lenx | key1 | key2 | white | out => cases hi
  | _ => cases hi

theorem OptIssues.out_point (h : OptIssues c lenl q i q') (hi : i = .out) : q.point = .out := by
  induction h with
  | settle hs h ih => cases hs <;> cases ih hi
  | final h =>
    cases h with
    | out hp => exact hp
    | fold | lenx | key1 | key2 | white => cases hi
  | _ => cases hi

theorem RefIssues.out_point (h : RefIssues c lenl q i q') (hi : i = .out) : q.point = .out := by
  cases h with
  | final h =>
    cases h with
    | out hp => exact hp
    | fold | lenx | key1 | key2 | white => cases hi
  | _ => cases hi

namespace Issues

theorem lanes (hc : c.Valid) (h : Issues u c lenl q i q') (hr : placeRanges u c lenl q = true) :
    lanesAfterUop c m lenl (placeCursor u c lenl q) i (placeLanes u c m lenl q) = placeLanes u c m lenl q' := by
  cases u with
  | opt => exact OptIssues.lanes hc h hr
  | ref => exact RefIssues.lanes hc h hr

/-- `FOLD` is issued where every byte is consumed and the lanes are the closed form (R146, R148, R167). -/
theorem fold_place (hc : c.Valid) (h : Issues u c lenl q .fold q') (hr : placeRanges u c lenl q = true) :
    placeCursor u c lenl q = lenl ∧ placeLanes u c m lenl q = absorbedLanes c m lenl := by
  have ⟨hL1, _⟩ := hc
  cases u with
  | opt => exact OptIssues.fold_place hc h hr rfl
  | ref => exact RefIssues.fold_place hL1 h rfl

theorem out_point (h : Issues u c lenl q .out q') : q.point = .out := by
  cases u with
  | opt => exact OptIssues.out_point h rfl
  | ref => exact RefIssues.out_point h rfl

end Issues

theorem size_ge (u : UnitId) (c : Config) (lenl : Nat) : 7 ≤ scheduleSize u c lenl := by
  cases u <;> simp only [scheduleSize, optSize, refSize] <;> omega

/-- `OUT` is the last micro-operation of its schedule. -/
theorem placeIndex_out (u : UnitId) (c : Config) (lenl : Nat) (hp : q.point = .out) :
    placeIndex u c lenl q + 1 = scheduleSize u c lenl := by
  have hsize := size_ge u c lenl
  cases u <;> simp only [placeIndex, scheduleSize, optIndex, refIndex, refSize, hp] at hsize ⊢ <;> omega

end

/-- The digest depends on the lanes' seeds and keys and on the message's bytes, in no way on `G` (R150). -/
theorem digestOf_congr {c c' : Config} {m m' : Message} {lenl : Nat} (hL : c'.L = c.L)
    (hseed : ∀ i, seedAt c' i = seedAt c i) (hkey : ∀ i, roundKeyAt c' i = roundKeyAt c i) (hfk : c'.fk = c.fk)
    (hm : ∀ a, a < lenl → m'.read a = m.read a) : digestOf c' m' lenl = digestOf c m lenl := by
  have hlanes : absorbed c' m' lenl (chunkCount lenl) = absorbed c m lenl (chunkCount lenl) :=
    funext fun i => absorbed_congr hL (hseed i) (hkey i) (fun a ha _ => hm a ha) _
  rw [digestOf, digestOf, whiten, whiten, hL, hlanes, hfk]

/-! The states of a run. -/

/-- Unit `u`, just started as `x₀`, has become `x` by its first `k` micro-operations. -/
structure Reached (u : UnitId) (c : Config) (x₀ : UnitState) (k : Nat) (x : UnitState) : Prop where
  busy : x.busy = true
  fault : x.fault = false
  upc : x.upc = k
  lenl : x.lenl = x₀.lenl
  msg : x.msg = x₀.msg
  onSchedule : onSchedule u c x = true
  lanes : x.seq.point = .init ∨ x.lanes = some (placeLanes u c x₀.msg x₀.lenl x.seq)

theorem UnitState.JustStarted.reached {u : UnitId} {c : Config} {x : UnitState} (h : x.JustStarted) :
    Reached u c x 0 x := by
  obtain ⟨hbusy, -, hfault, -, -, hcur, hupc, hp⟩ := h
  refine ⟨hbusy, hfault, hupc, rfl, rfl, (onSchedule_iff hbusy).2 ⟨?_, ?_, ?_, .inr hp⟩, .inl hp⟩
  · cases u <;> simp only [placeRanges, optRanges, refRanges, hp]
  · cases u <;> simp only [placeCursor, optCursor, refCursor, hp, hcur]
  · cases u <;> simp only [placeIndex, optIndex, refIndex, hp, hupc]

section
variable {u : UnitId} {x₀ : UnitState} {s : State} {k : Nat}

/-- The next micro-operation is the schedule's, and with the message delivered it completes. -/
theorem Reached.next (hc : s.cfg.Valid) (hread : Readable x₀.msg x₀.lenl) (h : Reached u s.cfg x₀ k (s.unit u)) :
    ∃ i q y, issue u s.cfg (s.unit u) = .uop i q ∧ (schedule u s.cfg x₀.lenl)[k]? = some i ∧
      Issues u s.cfg x₀.lenl (s.unit u).seq i q ∧ effectOf i s.cfg (s.unit u) = .done y ∧
      y.lanes = some (placeLanes u s.cfg x₀.msg x₀.lenl q) ∧
      sequencerStep u s = .next (({ s with active := u } : State).setUnit u (moved q y)) := by
  obtain ⟨hr, hcur, hupc, -⟩ := (onSchedule_iff h.busy).1 h.onSchedule
  obtain ⟨i, q, hi, hmove, ⟨y, he, hstep⟩ | ⟨hnot, -⟩⟩ := sequencerStep_moves_or_waits hc h.busy h.onSchedule
  case inr => exact absurd (h.msg ▸ h.lenl ▸ hread) hnot
  have hlanes := effectOf_done_lanes he (h.lanes.imp_left (hmove.eq_ldseed hc hr))
  have hsched := hmove.scheduled hc hr
  rw [← hupc, h.upc] at hsched
  rw [h.lenl] at hr hcur hmove hsched
  rw [h.msg, h.lenl, hcur, hmove.lanes hc hr] at hlanes
  exact ⟨i, q, y, hi, hsched, hmove, he, hlanes, hstep⟩

/-- Every step but the last leads on. -/
theorem Reached.step (hc : s.cfg.Valid) (hread : Readable x₀.msg x₀.lenl) (h : Reached u s.cfg x₀ k (s.unit u))
    (hk : k + 1 < scheduleSize u s.cfg x₀.lenl) :
    ∃ t, sequencerStep u s = .next t ∧ Reached u s.cfg x₀ (k + 1) (t.unit u) := by
  obtain ⟨-, -, hupc, -⟩ := (onSchedule_iff h.busy).1 h.onSchedule
  obtain ⟨i, q, y, -, -, hmove, he, hlanes, hstep⟩ := h.next hc hread
  have hout : i ≠ .out := by
    rintro rfl
    have hlast := placeIndex_out u s.cfg x₀.lenl hmove.out_point
    rw [← h.lenl, ← hupc, h.upc, h.lenl] at hlast
    omega
  obtain ⟨hbusy, -, hfault, -⟩ := effectOf_done_keepsFlagsAndDigest hout he
  obtain ⟨hupc', hlenl, -⟩ := effectOf_done_frame he
  refine ⟨_, hstep, ?_⟩
  rw [unit_setUnit]
  exact ⟨hbusy.trans h.busy, hfault.trans h.fault, congrArg (· + 1) (hupc'.trans h.upc), hlenl.trans h.lenl,
    (effectOf_done_msg he).trans h.msg, moved_onSchedule hc h.busy h.onSchedule (h.lenl ▸ hmove) he, .inr hlanes⟩

end

/-- One step more at the end of a run. -/
theorem sequencerRun_succ {u : UnitId} {k : Nat} {s t : State} (h : sequencerRun u k s = .next t) :
    sequencerRun u (k + 1) s = sequencerStep u t := by
  induction k generalizing s with
  | zero =>
    cases h
    simp only [sequencerRun]
    cases sequencerStep u t <;> rfl
  | succ k ih =>
    rw [sequencerRun] at h ⊢
    cases hs : sequencerStep u s with
    | next r =>
      rw [hs] at h
      exact ih h
    | fault f =>
      rw [hs] at h
      cases h
    | refused r =>
      rw [hs] at h
      cases h

/-- The run of an invocation: after `k` steps, short of the last, the unit is where `k` micro-operations lead, and the
rest of the machine is as it was. -/
theorem sequencerRun_reaches {u : UnitId} {s : State} (hc : s.cfg.Valid) (hstart : (s.unit u).JustStarted)
    (hread : Readable (s.unit u).msg (s.unit u).lenl) {k : Nat} (hk : k < scheduleSize u s.cfg (s.unit u).lenl) :
    ∃ t, sequencerRun u k s = .next t ∧ t.cfg = s.cfg ∧ t.unit u.other = s.unit u.other ∧
      Reached u s.cfg (s.unit u) k (t.unit u) := by
  induction k with
  | zero => exact ⟨s, rfl, rfl, rfl, hstart.reached⟩
  | succ k ih =>
    obtain ⟨r, hrun, hcfg, hother, hreached⟩ := ih (by omega)
    rw [← hcfg] at hc hk hreached
    obtain ⟨t, hstep, ht⟩ := hreached.step hc hread hk
    obtain ⟨hother', hcfg', -⟩ := sequencerStep_frame hstep
    exact ⟨t, (sequencerRun_succ hrun).trans hstep, hcfg'.trans hcfg, hother'.trans hother, hcfg ▸ ht⟩

/-- The lanes are the closed form and every byte is consumed before the six micro-operations of FINAL. -/
theorem Reached.fold {u : UnitId} {x₀ : UnitState} {s : State} (hc : s.cfg.Valid) (hread : Readable x₀.msg x₀.lenl)
    (h : Reached u s.cfg x₀ (scheduleSize u s.cfg x₀.lenl - 6) (s.unit u)) :
    (s.unit u).cur = x₀.lenl ∧ (s.unit u).lanes = some (absorbedLanes s.cfg x₀.msg x₀.lenl) := by
  have hsize := size_ge u s.cfg x₀.lenl
  obtain ⟨hr, hcur, hupc, -⟩ := (onSchedule_iff h.busy).1 h.onSchedule
  obtain ⟨i, q, y, -, hsched, hmove, -⟩ := h.next hc hread
  cases hsched.symm.trans (schedule_final (r := 0) (i := .fold) rfl)
  rw [h.lenl] at hr hcur
  obtain ⟨hend, habsorbed⟩ := hmove.fold_place (m := x₀.msg) hc hr
  refine ⟨hcur.trans hend, ?_⟩
  rw [← habsorbed]
  refine h.lanes.resolve_left fun hp => ?_
  cases hmove.eq_ldseed hc hr hp

/-- The last micro-operation ends the invocation with the digest of the closed form (42_finalize_ops R122). -/
theorem Reached.out {u : UnitId} {x₀ : UnitState} {s : State} (hc : s.cfg.Valid) (hread : Readable x₀.msg x₀.lenl)
    (h : Reached u s.cfg x₀ (scheduleSize u s.cfg x₀.lenl - 1) (s.unit u)) :
    ∃ t x, sequencerStep u s = .next t ∧ t.unit u = x ∧ x.busy = false ∧ x.done = true ∧ x.fault = false ∧
      x.cur = x₀.lenl ∧ x.upc = scheduleSize u s.cfg x₀.lenl ∧
      x.digest = some (digestOf s.cfg x₀.msg x₀.lenl) := by
  have ⟨hL1, _⟩ := hc
  have hsize := size_ge u s.cfg x₀.lenl
  obtain ⟨-, hcur, -⟩ := (onSchedule_iff h.busy).1 h.onSchedule
  obtain ⟨i, q, y, -, hsched, hmove, he, -, hstep⟩ := h.next hc hread
  have hlast : scheduleSize u s.cfg x₀.lenl - 1 = scheduleSize u s.cfg x₀.lenl - 6 + 5 := by omega
  rw [hlast] at hsched
  cases hsched.symm.trans (schedule_final (r := 5) (i := .out) rfl)
  have hp := hmove.out_point
  have hend : placeCursor u s.cfg x₀.lenl (s.unit u).seq = x₀.lenl := by
    cases u <;> simp only [placeCursor, optCursor, refCursor, hp]
  obtain ⟨v, vs, hls⟩ := absorbedLanes_eq_cons (c := s.cfg) (m := x₀.msg) (lenl := x₀.lenl) hL1
  have hlanes : (s.unit u).lanes = some (digestOf s.cfg x₀.msg x₀.lenl :: vs) := by
    simpa only [placeLanes, hp, hls, List.set_cons_zero, reduceCtorEq, false_or] using h.lanes
  obtain ⟨ls, hls', rfl⟩ := (outEffect_eq_done (c := s.cfg)).1 he
  cases hlanes.symm.trans hls'
  refine ⟨_, _, hstep, unit_setUnit .., rfl, rfl, h.fault, ?_, ?_, rfl⟩
  · exact hcur.trans (h.lenl ▸ hend)
  · show (s.unit u).upc + 1 = _
    rw [h.upc]
    omega

/-- A whole invocation of either unit (43_sequencer_optimized R151, 44_reference_absorber R167). -/
theorem sequencerRun_delivers {u : UnitId} {s : State} (hc : s.cfg.Valid) (hstart : (s.unit u).JustStarted)
    (hread : Readable (s.unit u).msg (s.unit u).lenl) :
    ∃ t x, sequencerRun u (scheduleSize u s.cfg (s.unit u).lenl) s = .next t ∧ t.unit u = x ∧ x.busy = false ∧
      x.done = true ∧ x.fault = false ∧ x.cur = (s.unit u).lenl ∧ x.upc = scheduleSize u s.cfg (s.unit u).lenl ∧
      t.unit u.other = s.unit u.other ∧ x.digest = some (digestOf s.cfg (s.unit u).msg (s.unit u).lenl) := by
  have hsize := size_ge u s.cfg (s.unit u).lenl
  have hlast : scheduleSize u s.cfg (s.unit u).lenl - 1 + 1 = scheduleSize u s.cfg (s.unit u).lenl := by omega
  obtain ⟨r, hrun, hcfg, hother, hreached⟩ := sequencerRun_reaches hc hstart hread
    (k := scheduleSize u s.cfg (s.unit u).lenl - 1) (by omega)
  rw [← hcfg] at hc hreached
  obtain ⟨t, x, hstep, hx, hbusy, hdone, hfault, hcur, hupc, hdigest⟩ := hreached.out hc hread
  obtain ⟨hother', -⟩ := sequencerStep_frame hstep
  rw [hcfg] at hupc hdigest
  refine ⟨t, x, ?_, hx, hbusy, hdone, hfault, hcur, hupc, hother'.trans hother, hdigest⟩
  rw [← hlast, sequencerRun_succ hrun, hstep]

end Sys2Proof.Machine

namespace Sys2Proof

open Sys2Proof.Machine

/-- Settles O53: a run reaches the state after `k` micro-operations, and from there the schedule's next is issued. -/
theorem sequencerIssuesItsSchedule : Obligations.SequencerIssuesItsSchedule := by
  intro s u k hc hstart hread hk
  obtain ⟨t, hrun, hcfg, -, hreached⟩ := sequencerRun_reaches hc hstart hread hk
  rw [← hcfg] at hc hreached ⊢
  obtain ⟨i, q, -, hi, hsched, -⟩ := hreached.next hc hread
  exact ⟨t, i, q, hrun, hreached.busy, hreached.upc, hi, hsched⟩

/-- Settles O54: `FOLD` comes six before the end, and what it is issued on is the closed form. -/
theorem lanesBeforeFoldAreTheClosedForm : Obligations.LanesBeforeFoldAreTheClosedForm := by
  rintro s u x hc rfl hstart hread
  have hsize := size_ge u s.cfg (s.unit u).lenl
  obtain ⟨t, hrun, hcfg, -, hreached⟩ := sequencerRun_reaches hc hstart hread
    (k := scheduleSize u s.cfg (s.unit u).lenl - 6) (by omega)
  refine ⟨t, hrun, ?_⟩
  rw [← hcfg] at hc hreached ⊢
  exact hreached.fold hc hread

/-- Settles O55: the run of OPT. -/
theorem optRunDeliversTheClosedFormDigest : Obligations.OptRunDeliversTheClosedFormDigest := by
  intro s hc hstart hread
  obtain ⟨t, x, hrun, rfl, hbusy, hdone, hfault, hcur, hupc, hother, hdigest⟩ :=
    sequencerRun_delivers (u := .opt) hc hstart hread
  exact ⟨t, hrun, hbusy, hdone, hfault, hcur, hupc, hother, hdigest⟩

/-- Settles O59: both runs deliver the digest of the closed form, which does not mention `G`. -/
theorem groupSizeDoesNotReachTheDigest : Obligations.GroupSizeDoesNotReachTheDigest := by
  intro s s' hc hc' hcfg hstart hstart' hlenl hread hmsg
  have hread' : Readable s'.opt.msg s'.opt.lenl := fun a ha => by
    rw [hlenl] at ha
    rw [hmsg a ha]
    exact hread a ha
  obtain ⟨t, hrun, -, -, -, -, -, -, hdigest⟩ := optRunDeliversTheClosedFormDigest s hc hstart hread
  obtain ⟨t', hrun', -, -, -, -, -, -, hdigest'⟩ := optRunDeliversTheClosedFormDigest s' hc' hstart' hread'
  rw [hlenl] at hrun' hdigest'
  refine ⟨t, t', _, hrun, hrun', hdigest, hdigest'.trans (congrArg some ?_)⟩
  rw [hcfg]
  exact digestOf_congr rfl (fun _ => rfl) (fun _ => rfl) rfl hmsg

end Sys2Proof
end

section
/-! SUPPORT. The order of the two units' steps: they commute, and two invocations started together both end with their
digests in any interleaving. The obligations O56, O57 and O49. -/

namespace Sys2Proof.Machine

/-! Either order (44_reference_absorber R166). -/

/-- The machine without the model's note of which unit ran last. -/
def State.forgetActive (s : State) : State := { s with active := .opt }

/-- Up to that note a sequencer's step replaces its own unit and nothing else. -/
theorem sequencerStep_forgetActive {u : UnitId} {s t : State} (h : sequencerStep u s = .next t) :
    t.forgetActive = s.forgetActive.setUnit u (t.unit u) := by
  obtain ⟨v, x, rfl⟩ := sequencerStep_eq_next h
  rw [unit_setUnit]
  cases u <;> rfl

theorem other_other (u : UnitId) : u.other.other = u := by cases u <;> rfl

/-- There are just two units. -/
theorem eq_other_of_ne {u v : UnitId} (h : v ≠ u) : v = u.other := by
  cases u <;> cases v
  case opt.ref | ref.opt => rfl
  case opt.opt | ref.ref => exact absurd rfl h

/-- A unit's step is still there after the other unit's, and does the same. -/
theorem sequencerStep_after_other {u : UnitId} {s a b : State} (ha : sequencerStep u.other s = .next a)
    (hb : sequencerStep u s = .next b) : ∃ t, sequencerStep u a = .next t ∧
      t.forgetActive = (s.forgetActive.setUnit u.other (a.unit u.other)).setUnit u (b.unit u) := by
  obtain ⟨hunit, hcfg, -⟩ := sequencerStep_frame ha
  rw [other_other] at hunit
  obtain ⟨t, ht, htb⟩ := sequencerStep_congr hcfg hunit hb
  exact ⟨t, ht, by rw [sequencerStep_forgetActive ht, sequencerStep_forgetActive ha, htb]⟩

/-! How far a unit is in its invocation. -/

/-- A unit, just started as `x₀`, has ended its invocation as `x`, with the digest of the closed form (42_finalize_ops
R122, 43_sequencer_optimized R148). -/
structure Delivered (c : Config) (x₀ x : UnitState) : Prop where
  busy : x.busy = false
  done : x.done = true
  fault : x.fault = false
  digest : x.digest = some (digestOf c x₀.msg x₀.lenl)

/-- Unit `u`, just started as `x₀`, has become `x` by `k` steps: short of the last, or by all of its schedule. -/
inductive Progress (u : UnitId) (c : Config) (x₀ : UnitState) (k : Nat) (x : UnitState) : Prop where
  | running (hk : k < scheduleSize u c x₀.lenl) (h : Reached u c x₀ k x)
  | ended (hk : k = scheduleSize u c x₀.lenl) (h : Delivered c x₀ x)

namespace Progress

variable {u : UnitId} {c : Config} {x₀ x : UnitState} {k : Nat}

theorem le_size (h : Progress u c x₀ k x) : k ≤ scheduleSize u c x₀.lenl := by
  cases h with
  | running hk => exact hk.le
  | ended hk => exact hk.le

theorem delivered (h : Progress u c x₀ k x) (hk : k = scheduleSize u c x₀.lenl) : Delivered c x₀ x := by
  cases h with
  | running hlt => exact absurd hk hlt.ne
  | ended _ h => exact h

theorem eq_size_of_idle (h : Progress u c x₀ k x) (hb : x.busy = false) : k = scheduleSize u c x₀.lenl := by
  cases h with
  | running _ h => cases hb.symm.trans h.busy
  | ended hk => exact hk

theorem start (h : x₀.JustStarted) : Progress u c x₀ 0 x₀ :=
  running (by have hsize := size_ge u c x₀.lenl; omega) h.reached

/-- While the unit is busy its sequencer's step leads on, whatever the other unit is doing. -/
theorem step {s : State} (hc : s.cfg.Valid) (hread : Readable x₀.msg x₀.lenl)
    (h : Progress u s.cfg x₀ k (s.unit u)) (hb : (s.unit u).busy = true) :
    ∃ t, sequencerStep u s = .next t ∧ Progress u s.cfg x₀ (k + 1) (t.unit u) := by
  cases h with
  | ended _ h => cases hb.symm.trans h.busy
  | running hk h =>
    by_cases hlast : k + 1 < scheduleSize u s.cfg x₀.lenl
    · obtain ⟨t, ht, hreached⟩ := h.step hc hread hlast
      exact ⟨t, ht, running hlast hreached⟩
    · have hk' : k = scheduleSize u s.cfg x₀.lenl - 1 := by omega
      obtain ⟨t, x, ht, rfl, hbusy, hdone, hfault, -, -, hdigest⟩ := (hk' ▸ h).out hc hread
      exact ⟨t, ht, ended (by omega) ⟨hbusy, hdone, hfault, hdigest⟩⟩

end Progress

/-! Both units on their own (44_reference_absorber R166, 45_host_operations R180). -/

/-- From `r`, where both units have just been started, `s` is reached by `n u` steps of each unit `u`, in some order. -/
structure Interleaved (r : State) (n : UnitId → Nat) (s : State) : Prop where
  cfg : s.cfg = r.cfg
  moves : s.moves = []
  units : ∀ u, Progress u r.cfg (r.unit u) (n u) (s.unit u)

/-- The steps of both units together. -/
def totalSize (r : State) : Nat :=
  scheduleSize .opt r.cfg (r.unit .opt).lenl + scheduleSize .ref r.cfg (r.unit .ref).lenl

theorem sum_update_succ (n : UnitId → Nat) (u : UnitId) :
    Function.update n u (n u + 1) .opt + Function.update n u (n u + 1) .ref = n .opt + n .ref + 1 := by
  cases u <;> simp only [Function.update, reduceCtorEq, dite_true, dite_false] <;> omega

namespace Interleaved

variable {r s : State} {n : UnitId → Nat}

theorem start (hm : r.moves = []) (hstart : ∀ u, (r.unit u).JustStarted) : Interleaved r (fun _ => 0) r :=
  ⟨rfl, hm, fun u => .start (hstart u)⟩

/-- As long as steps are left, a unit is busy. -/
theorem busy (h : Interleaved r n s) (hlt : n .opt + n .ref < totalSize r) :
    s.opt.busy = true ∨ s.ref.busy = true := by
  by_contra hidle
  obtain ⟨hopt, href⟩ := not_or.1 hidle
  have hnopt := (h.units .opt).eq_size_of_idle (Bool.eq_false_of_not_eq_true hopt)
  have hnref := (h.units .ref).eq_size_of_idle (Bool.eq_false_of_not_eq_true href)
  exact hlt.ne (congrArg₂ (· + ·) hnopt hnref)

/-- The machine on its own takes one more step of one of the units; which one is a free value (log 5). -/
theorem step (hc : r.cfg.Valid) (hread : ∀ u, Readable (r.unit u).msg (r.unit u).lenl) (h : Interleaved r n s)
    (hlt : n .opt + n .ref < totalSize r) :
    ∃ t u, step s = .next t ∧ Interleaved r (Function.update n u (n u + 1)) t := by
  obtain ⟨u, d, hbusy, -, hown⟩ := onItsOwn_of_busy (h.busy hlt)
  have hprogress : Progress u ({ s with draws := d } : State).cfg (r.unit u) (n u)
      (({ s with draws := d } : State).unit u) := by
    rw [unit_draws]
    exact h.cfg ▸ h.units u
  obtain ⟨t, ht, hnext⟩ := hprogress.step (h.cfg ▸ hc) (hread u) (by rwa [unit_draws])
  obtain ⟨hother, hcfg, -, -, -, hmoves, -⟩ := sequencerStep_frame ht
  rw [unit_draws] at hother
  refine ⟨t, u, (step_nil h.moves).trans (hown.trans ht), hcfg.trans h.cfg, hmoves.trans h.moves, fun v => ?_⟩
  by_cases hv : v = u
  · subst hv
    rw [Function.update_self]
    exact h.cfg ▸ hnext
  · rw [Function.update_of_ne hv]
    obtain rfl := eq_other_of_ne hv
    exact hother ▸ h.units u.other

/-- When no step is left, both units have delivered. -/
theorem delivered (h : Interleaved r n s) (hn : n .opt + n .ref = totalSize r) (u : UnitId) :
    Delivered r.cfg (r.unit u) (s.unit u) := by
  have hopt := (h.units .opt).le_size
  have href := (h.units .ref).le_size
  refine (h.units u).delivered ?_
  unfold totalSize at hn
  cases u <;> omega

end Interleaved

/-- The first step of a run of any machine. -/
theorem run_succ {M : Host.Core} {s t : M.State} (h : M.step s = .next t) (k : Nat) : M.run (k + 1) s = M.run k t := by
  simp only [Host.Core.run, h]

/-- In whatever order the units step, the steps that are left end with both digests delivered. -/
theorem core_run_delivers {r : State} (hc : r.cfg.Valid) (hread : ∀ u, Readable (r.unit u).msg (r.unit u).lenl)
    (k : Nat) {s : State} {n : UnitId → Nat} (h : Interleaved r n s) (hn : n .opt + n .ref + k = totalSize r) :
    ∃ t : State, core.run k s = .next t ∧ ∀ u, Delivered r.cfg (r.unit u) (t.unit u) := by
  induction k generalizing s n with
  | zero => exact ⟨s, rfl, h.delivered hn⟩
  | succ k ih =>
    obtain ⟨t, u, hstep, ht⟩ := h.step hc hread (by omega)
    rw [run_succ (M := core) hstep]
    exact ih ht (by rw [sum_update_succ]; omega)

/-! The write that starts both units (45_host_operations R171, R180). -/

/-- A start command begins an invocation of an idle unit, on the length the registers hold. -/
theorem start_justStarted {s : State} {u : UnitId} (hf : (s.unit u).fault = false) (hb : (s.unit u).busy = false) :
    ∃ x, s.start u = s.setUnit u x ∧ x.JustStarted ∧ x.lenl = s.len ∧ x.msg = (s.unit u).msg :=
  ⟨_, start_of_idle hf hb, ⟨rfl, rfl, hf, rfl, rfl, rfl, rfl, rfl⟩, rfl, rfl⟩

theorem step_of_startBoth {s : State} {v : BitVec 32} (hm : s.moves = [.regWrite 0 v]) (hopt : v.getLsbD 0 = true)
    (href : v.getLsbD 1 = true) : step s = .next ((({ s with moves := [] } : State).start .opt).start .ref) := by
  have hv : decodeCommand v = .ok (.startOpt true (v.extractLsb' 2 30)) := by
    simp only [decodeCommand, hopt, href, if_true]
  rw [step_cons hm, act_regWrite_ctrl _ hv]
  rfl

/-- One write starts both idle units on their messages, and nothing is pending after it. -/
theorem startBoth_of_idle {s : State} {v : BitVec 32} (hm : s.moves = [.regWrite 0 v]) (hopt : v.getLsbD 0 = true)
    (href : v.getLsbD 1 = true) (hidle : ∀ u, (s.unit u).busy = false ∧ (s.unit u).fault = false) :
    ∃ r, step s = .next r ∧ r.cfg = s.cfg ∧ r.moves = [] ∧
      ∀ u, (r.unit u).JustStarted ∧ (r.unit u).lenl = s.len ∧ (r.unit u).msg = (s.unit u).msg := by
  obtain ⟨hbopt, hfopt⟩ := hidle .opt
  obtain ⟨hbref, hfref⟩ := hidle .ref
  obtain ⟨x, hx, hxstart, hxlen, hxmsg⟩ := start_justStarted (s := { s with moves := [] }) (u := .opt) hfopt hbopt
  obtain ⟨y, hy, hystart, hylen, hymsg⟩ :=
    start_justStarted (s := ({ s with moves := [] } : State).setUnit .opt x) (u := .ref) hfref hbref
  rw [setUnit_len] at hylen
  refine ⟨(({ s with moves := [] } : State).setUnit .opt x).setUnit .ref y, ?_, rfl, rfl, fun u => ?_⟩
  · rw [step_of_startBoth hm hopt href, hx, hy]
  · cases u with
    | opt => exact ⟨hxstart, hxlen, hxmsg⟩
    | ref => exact ⟨hystart, hylen, hymsg⟩

end Sys2Proof.Machine

namespace Sys2Proof

open Sys2Proof.Machine

/-- Settles O56: the run of REF. -/
theorem refRunDeliversTheClosedFormDigest : Obligations.RefRunDeliversTheClosedFormDigest := by
  intro s hc hstart hread
  obtain ⟨t, x, hrun, rfl, hbusy, hdone, hfault, hcur, hupc, hother, hdigest⟩ :=
    sequencerRun_delivers (u := .ref) hc hstart hread
  exact ⟨t, hrun, hbusy, hdone, hfault, hcur, hupc, hother, hdigest⟩

/-- Settles O57: the write starts both units, every step after it is a step of one of them, and the closed form depends
on the message's bytes only. -/
theorem oracleEquivalence : Obligations.OracleEquivalence := by
  intro s v hc hm hopt href hidle hmsg
  obtain ⟨r, hstep, hcfg, hmoves, hunits⟩ :=
    startBoth_of_idle hm hopt href fun u => (hidle u).imp_right And.left
  have hread : ∀ u, Readable (r.unit u).msg (r.unit u).lenl := fun u => by
    obtain ⟨-, hlen, hsame⟩ := hunits u
    obtain ⟨-, -, hreadable⟩ := hidle u
    rw [hlen, hsame]
    exact hreadable
  have htotal : totalSize r = optSize s.cfg s.len + refSize s.len := by
    obtain ⟨-, hlenOpt, -⟩ := hunits .opt
    obtain ⟨-, hlenRef, -⟩ := hunits .ref
    rw [totalSize, hcfg, hlenOpt, hlenRef]
    rfl
  obtain ⟨t, hrun, hdelivered⟩ := core_run_delivers (hcfg ▸ hc) hread (optSize s.cfg s.len + refSize s.len)
    (.start hmoves fun u => (hunits u).1) (by rw [htotal]; omega)
  have hdigest : ∀ u, (t.unit u).digest = some (digestOf s.cfg (s.unit u).msg s.len) := fun u => by
    obtain ⟨-, hlen, hsame⟩ := hunits u
    rw [(hdelivered u).digest, hcfg, hlen, hsame]
  have hsame : digestOf s.cfg s.ref.msg s.len = digestOf s.cfg s.opt.msg s.len :=
    digestOf_congr rfl (fun _ => rfl) (fun _ => rfl) rfl hmsg
  have hsteps : 1 + optSize s.cfg s.len + refSize s.len = optSize s.cfg s.len + refSize s.len + 1 := by omega
  refine ⟨t, ?_, (hdelivered .opt).done, (hdelivered .ref).done, (hdelivered .opt).fault, (hdelivered .ref).fault,
    ?_, hdigest .opt⟩
  · rw [hsteps, run_succ (M := core) hstep, hrun]
  · exact (hdigest .opt).trans (hsame ▸ (hdigest .ref).symm)

/-- Settles O49: in either order each unit ends as its own step from `s` leaves it, and the rest as it is in `s`. -/
theorem unitStepsCommute : Obligations.UnitStepsCommute := by
  intro s a b ha hb
  obtain ⟨t, ht, hta⟩ := sequencerStep_after_other (u := .ref) ha hb
  obtain ⟨t', ht', htb⟩ := sequencerStep_after_other (u := .opt) hb ha
  exact ⟨t, t', ht, ht', hta.trans htb.symm⟩

end Sys2Proof
end

section
/-! SUPPORT. Register accesses: an unaligned offset, the offsets that ignore writes or read 0, the length registers,
`CONFIG`, and a digest register while `DONE` is 0: the obligations O34, O35, O37, O38 and O39. -/

namespace Sys2Proof.Machine

theorem aligned_iff {off : BitVec 7} : aligned off = true ↔ off.toNat % 4 = 0 := by simp [aligned]

theorem aligned_eq_false {off : BitVec 7} (h : off.toNat % 4 ≠ 0) : aligned off = false :=
  Bool.eq_false_of_not_eq_true fun ha => h (aligned_iff.1 ha)

theorem regRead_of_unaligned {off : BitVec 7} (h : off.toNat % 4 ≠ 0) (s : State) :
    regRead off s = .refused .registerAccess := by simp [regRead, aligned_eq_false h]

theorem regWrite_of_unaligned {off : BitVec 7} (h : off.toNat % 4 ≠ 0) (v : BitVec 32) (s : State) :
    regWrite off v s = .refused .registerAccess := by simp [regWrite, aligned_eq_false h]

/-- A register that answers with an unspecified word takes the next free value (log 9). -/
theorem regRead_of_unspecified {s : State} {off : BitVec 7} (ha : aligned off = true)
    (hv : regValue s off = .unspecified) :
    regRead off s = .next { s with rdata := Config.unspecifiedWord s.draws, draws := s.draws + 1 } := by
  simp [regRead, ha, hv]

theorem digestWord_of_not_done {x : UnitState} (k : Nat) (h : x.done = false) : digestWord x k = .unspecified := by
  simp [digestWord, h]

/-- `CTRL` and the reserved offsets stand outside the map of readable registers (45_host_operations R177). -/
theorem regValue_of_reserved {off : BitVec 7} (s : State)
    (h : off.toNat = 0 ∨ (0x14 ≤ off.toNat ∧ off.toNat ≤ 0x1C) ∨ 0x40 ≤ off.toNat) : regValue s off = .word 0 := by
  unfold regValue
  split
  case h_13 => rfl
  all_goals omega

/-- Only `CTRL` and the two halves of the length take a write (45_host_operations R171, R173, R177). -/
theorem regWrite_of_ignored {off : BitVec 7} (v : BitVec 32) (s : State) (ha : aligned off = true)
    (hctrl : off.toNat ≠ 0) (hlo : off.toNat ≠ 0x08) (hhi : off.toNat ≠ 0x0C) : regWrite off v s = .next s := by
  rw [regWrite, if_pos ha]
  split
  · contradiction
  · contradiction
  · contradiction
  · rfl

/-- `G` and `L` of a legal instance fit their fields, so `CONFIG` is the number R176 gives. -/
theorem configWord_toNat {c : Config} (hc : c.Valid) : (configWord c).toNat = c.G * 256 + c.L := by
  obtain ⟨-, hL, -, hG, -⟩ := hc
  rw [configWord, BitVec.toNat_ofNat, Nat.mod_eq_of_lt (by omega)]

end Sys2Proof.Machine

namespace Sys2Proof

open Sys2Proof.Machine

/-- Settles O34: the four accesses at the two offsets, reset, and the frame of a sequencer's step. -/
theorem lengthRegistersAreStorage : Obligations.LengthRegistersAreStorage := by
  intro s v
  refine ⟨rfl, rfl, regRead_of_word rfl rfl, regRead_of_word rfl rfl, resetNow_lenLo s, resetNow_lenHi s,
    fun u t h => ?_⟩
  have same := SameConfigAndLength.sequencerStep h
  exact ⟨same.lenLo, same.lenHi⟩

/-- Settles O35: each field of the word is a digit of `G * 256 + L`. -/
theorem configReadsLanesAndGroup : Obligations.ConfigReadsLanesAndGroup := by
  intro s hc
  have digit (start len : Nat) : ((configWord s.cfg).extractLsb' start len).toNat =
      (s.cfg.G * 256 + s.cfg.L) / 2 ^ start % 2 ^ len := by
    rw [BitVec.extractLsb'_toNat, Nat.shiftRight_eq_div_pow, configWord_toNat hc]
  have ⟨_, hL, _, hG, _⟩ := hc
  refine ⟨configWord s.cfg, regRead_of_word rfl rfl, configWord_toNat hc, rfl, ?_, BitVec.eq_of_toNat_eq ?_, ?_,
    BitVec.eq_of_toNat_eq ?_, fun v => regWrite_of_ignored v s rfl (by decide) (by decide) (by decide)⟩
  all_goals rw [digit]
  · omega
  · show _ = 0
    omega
  · omega
  · show _ = 0
    omega

/-- Settles O37: without `DONE` a digest register answers with an unspecified word. -/
theorem digestReadWithoutDoneIsFree : Obligations.DigestReadWithoutDoneIsFree := by
  intro s u k hdone hk
  have hword := digestWord_of_not_done k hdone
  refine ⟨Config.unspecifiedWord s.draws, ?_⟩
  cases u with
  | opt =>
    obtain ⟨ha, hv⟩ := regValue_optDigest s hk
    exact regRead_of_unspecified ha (hv.trans hword)
  | ref =>
    obtain ⟨ha, hv⟩ := regValue_refDigest s hk
    exact regRead_of_unspecified ha (hv.trans hword)

/-- Settles O38: what the register map answers at these offsets. -/
theorem otherOffsetsReadZeroAndIgnoreWrites : Obligations.OtherOffsetsReadZeroAndIgnoreWrites := fun s _ v ha =>
  ⟨fun hoff => regRead_of_word (aligned_iff.2 ha) (regValue_of_reserved s hoff),
    regWrite_of_ignored v s (aligned_iff.2 ha)⟩

/-- Settles O39: the first pending move is the access, and the access is refused. -/
theorem unalignedRegisterAccessIsRefused : Obligations.UnalignedRegisterAccessIsRefused := by
  rintro s off v rest hoff (hm | hm) <;> rw [step_cons hm]
  · exact regWrite_of_unaligned hoff v _
  · exact regRead_of_unaligned hoff _

end Sys2Proof
end

section
/-! SUPPORT. The latched length under each move, what a `CTRL` write starts, and the obligations O30 and O32. -/

namespace Sys2Proof.Machine

/-! No operation on a unit but a start command writes `LENL`. -/

theorem leaves_effectOf_lenl (i : Instr) (c : Config) (x : UnitState) : ((effectOf i c x).leaves x).lenl = x.lenl := by
  cases he : effectOf i c x with
  | done y =>
    obtain ⟨-, hlenl, -⟩ := effectOf_done_frame he
    exact hlenl
  | fault k => rfl
  | wait => rfl

theorem wordLeaves_lenl (w : BitVec 16) (c : Config) (x : UnitState) : (wordLeaves w c x).lenl = x.lenl := by
  cases hw : decodeWord w with
  | ok i => rw [wordLeaves_of_ok hw, leaves_effectOf_lenl]
  | error e =>
    rw [wordLeaves_of_error hw]
    rfl

theorem advanced_lenl (q : SeqRegs) (x y : UnitState) : (advanced q x y).lenl = y.lenl := by
  unfold advanced
  split <;> rfl

theorem setUnit_lenl {s : State} {u : UnitId} {x : UnitState} (hx : x.lenl = (s.unit u).lenl) (v : UnitId) :
    ((s.setUnit u x).unit v).lenl = (s.unit v).lenl := by
  by_cases hv : v = u
  · rw [hv, unit_setUnit, hx]
  · rw [unit_setUnit_of_ne s x hv]

theorem raise_lenl (s : State) (u : UnitId) (k : Cause) (v : UnitId) : ((s.raise u k).unit v).lenl = (s.unit v).lenl :=
  setUnit_lenl (x := flagsFaulted k (s.unit u)) rfl v

theorem setActive_setUnit_lenl {s : State} {u : UnitId} {x : UnitState} (hx : x.lenl = (s.unit u).lenl)
    (v : UnitId) : ((({ s with active := u } : State).setUnit u x).unit v).lenl = (s.unit v).lenl := by
  rw [setUnit_lenl (by rwa [unit_active]), unit_active]

theorem handWord_lenl {u : UnitId} {w : BitVec 16} {s t : State} (h : handWord u w s = .next t) (v : UnitId) :
    (t.unit v).lenl = (s.unit v).lenl := by
  rw [handWord_eq_wordLeaves] at h
  cases h
  exact setActive_setUnit_lenl (wordLeaves_lenl ..) v

theorem sequencerStep_lenl {u : UnitId} {s t : State} (h : sequencerStep u s = .next t) (v : UnitId) :
    (t.unit v).lenl = (s.unit v).lenl := by
  rcases sequencerStep_cases u s with ⟨-, he⟩ | ⟨-, k, -, he⟩ | ⟨-, -, he⟩ | ⟨hb, i, q, hi, -⟩
  case inr.inr.inr =>
    rw [sequencerStep_of_uop hb hi] at h
    cases h
    exact setActive_setUnit_lenl ((advanced_lenl ..).trans (wordLeaves_lenl ..)) v
  all_goals rw [he] at h; cases h
  · rfl
  · exact raise_lenl s u k v

theorem onItsOwn_lenl {s t : State} (h : onItsOwn s = .next t) (v : UnitId) : (t.unit v).lenl = (s.unit v).lenl := by
  rcases onItsOwn_eq_next h with rfl | ⟨u, n, hu⟩
  · rfl
  · rw [sequencerStep_lenl hu, unit_draws]

/-- Every move but a register write and reset keeps both latched lengths (45_host_operations R172). -/
theorem act_lenl {m : Move} {s t : State} (hw : ∀ off v, m ≠ .regWrite off v) (hr : m ≠ .reset)
    (h : act m s = .next t) (u : UnitId) : (t.unit u).lenl = (s.unit u).lenl := by
  cases m with
  | regWrite off v => exact absurd rfl (hw off v)
  | reset => exact absurd rfl hr
  | regRead off =>
    obtain ⟨v, n, rfl⟩ := regRead_eq_next h
    cases u <;> rfl
  | sequence v => exact sequencerStep_lenl h u
  | hand v w =>
    simp only [act] at h
    split at h
    · exact handWord_lenl h u
    · cases h; rfl
  | place v off b =>
    rw [placeByte_eq_next h]
    exact setUnit_lenl (x := { s.unit v with msg := (s.unit v).msg.write off.toNat b }) rfl u

/-! What a `CTRL` write starts (30_encoding R78, 45_host_operations R171). -/

/-- A start command to unit `u` if its bit is set. -/
def State.startIf (s : State) (bit : Bool) (u : UnitId) : State := if bit then s.start u else s

/-- Every `CTRL` write is the two start commands in order, each where its bit is set. -/
theorem ctrlWrite_eq_startIf (v : BitVec 32) (s : State) :
    ctrlWrite v s = .next ((s.startIf (v.getLsbD 0) .opt).startIf (v.getLsbD 1) .ref) := by
  cases h0 : v.getLsbD 0 <;> cases h1 : v.getLsbD 1 <;>
    simp only [ctrlWrite, decodeCommand, h0, h1, if_true, if_false, Bool.false_eq_true] <;> rfl

theorem startIf_eq_setUnit (s : State) (bit : Bool) (u : UnitId) : ∃ x, s.startIf bit u = s.setUnit u x := by
  cases bit
  · exact ⟨s.unit u, (setUnit_unit s u).symm⟩
  · exact start_eq_setUnit s u

theorem unit_startIf_of_ne (s : State) (bit : Bool) {u v : UnitId} (h : v ≠ u) :
    (s.startIf bit u).unit v = s.unit v := by
  obtain ⟨x, hx⟩ := startIf_eq_setUnit s bit u
  rw [hx, unit_setUnit_of_ne s x h]

theorem startIf_len (s : State) (bit : Bool) (u : UnitId) : (s.startIf bit u).len = s.len := by
  obtain ⟨x, hx⟩ := startIf_eq_setUnit s bit u
  rw [hx, setUnit_len]

/-- From `s` to `t` the latched length of unit `u` stays, or a start command to the idle unit latches the length
registers of `s` (45_host_operations R172). -/
def StaysOrLatches (s t : State) (bit : Bool) (u : UnitId) : Prop :=
  (t.unit u).lenl = (s.unit u).lenl ∨
    bit = true ∧ (s.unit u).busy = false ∧ (s.unit u).fault = false ∧ (t.unit u).lenl = s.len

theorem startIf_staysOrLatches (s : State) (bit : Bool) (u : UnitId) : StaysOrLatches s (s.startIf bit u) bit u := by
  cases bit with
  | false => exact .inl rfl
  | true =>
    rw [State.startIf, if_pos rfl]
    rcases start_cases s u with ⟨-, he⟩ | ⟨-, -, he⟩ | ⟨hf, hb, he⟩ <;> rw [he]
    · exact .inl rfl
    · exact .inl (raise_lenl s u _ u)
    · exact .inr ⟨rfl, hb, hf, by rw [unit_setUnit]; rfl⟩

/-- The bit of a `CTRL` word that starts unit `u` (30_encoding R78). -/
def startBit (v : BitVec 32) : UnitId → Bool
  | .opt => v.getLsbD 0
  | .ref => v.getLsbD 1

theorem ctrlWrite_staysOrLatches {v : BitVec 32} {s t : State} (h : ctrlWrite v s = .next t) (u : UnitId) :
    StaysOrLatches s t (startBit v u) u := by
  rw [ctrlWrite_eq_startIf] at h
  cases h
  cases u with
  | opt =>
    have hopt := startIf_staysOrLatches s (v.getLsbD 0) .opt
    rwa [StaysOrLatches, ← unit_startIf_of_ne _ (v.getLsbD 1) (by decide : UnitId.opt ≠ .ref)] at hopt
  | ref =>
    have href := startIf_staysOrLatches (s.startIf (v.getLsbD 0) .opt) (v.getLsbD 1) .ref
    rwa [StaysOrLatches, unit_startIf_of_ne s _ (by decide : UnitId.ref ≠ .opt), startIf_len] at href

/-- A register write is a command, at offset 0, or it leaves both units as they are. -/
theorem regWrite_command_or_units {off : BitVec 7} {v : BitVec 32} {s t : State} (h : regWrite off v s = .next t) :
    (off = 0 ∧ ctrlWrite v s = .next t) ∨ ∀ u, t.unit u = s.unit u := by
  by_cases hoff : off = 0
  · subst hoff
    exact .inl ⟨rfl, h⟩
  · refine .inr fun u => ?_
    unfold regWrite at h
    split at h
    · split at h
      case h_1 hzero => exact absurd (BitVec.eq_of_toNat_eq hzero) hoff
      all_goals cases h; cases u <;> rfl
    · cases h

end Sys2Proof.Machine

namespace Sys2Proof

open Sys2Proof.Machine

/-- Settles O30: each command finds its unit idle, also `START_REF` after `START_OPT`. -/
theorem startBeginsAnInvocation : Obligations.StartBeginsAnInvocation := by
  intro s withRef ignored
  refine ⟨fun hbopt hfopt hboth => ?_, fun hbref hfref => ?_⟩
  · have hopt := start_of_idle (s := s) (u := .opt) hfopt hbopt
    cases withRef with
    | false => exact congrArg Host.Outcome.next hopt
    | true =>
      obtain ⟨hbref, hfref⟩ := hboth rfl
      have href := start_of_idle (s := s.start .opt) (u := .ref) (by rwa [hopt]) (by rwa [hopt])
      rw [hopt] at href
      show Host.Outcome.next ((s.start .opt).start .ref) = _
      rw [hopt, href]
      rfl
  · exact congrArg Host.Outcome.next (start_of_idle (u := .ref) hfref hbref)

/-- Settles O32: but for reset only a `CTRL` write reaches a latched length, by a start command of its bits. -/
theorem latchedLengthChangesOnlyAtAStart : Obligations.LatchedLengthChangesOnlyAtAStart := by
  intro s t u h hreset
  cases hm : s.moves with
  | nil => exact .inl (onItsOwn_lenl (step_nil hm ▸ h) u)
  | cons m rest =>
    rw [step_cons hm] at h
    simp only [hm, List.head?_cons, ne_eq, Option.some.injEq] at hreset
    by_cases hw : ∃ off v, m = .regWrite off v
    · obtain ⟨off, v, rfl⟩ := hw
      rcases regWrite_command_or_units h with ⟨rfl, hctrl⟩ | hunits
      · rcases ctrlWrite_staysOrLatches hctrl u with hstay | ⟨hbit, hb, hf, hlen⟩
        · exact .inl (hstay.trans (by rw [unit_moves]))
        · rw [unit_moves] at hb hf
          exact .inr ⟨v, rest, rfl, by cases u <;> exact hbit, hb, hf, hlen⟩
      · exact .inl (by rw [hunits u, unit_moves])
    · refine .inl ((act_lenl (fun off v hmove => hw ⟨off, v, hmove⟩) hreset h u).trans ?_)
      rw [unit_moves]

end Sys2Proof
end

section
/-! SUPPORT. A data micro-operation whose byte is not delivered, and the obligation O10. -/

namespace Sys2Proof.Machine

variable {m : Message} {a off n : Nat}

/-- Chunks that are delivered hold every byte of their range (20_memory R52). -/
theorem isSome_read_of_chunksAt {ds : List Byte16} (h : chunksAt m off n = some ds) (hlo : off ≤ a)
    (hhi : a < off + 16 * n) : (m.read a).isSome = true := by
  obtain ⟨hlen, hchunks⟩ := chunksAt_eq_some.1 h
  have hj : (a - off) / 16 < n := by omega
  have hd := (hchunks _ hj).trans (List.getElem?_eq_getElem (hlen ▸ hj))
  have ha : off + 16 * ((a - off) / 16) + (a - off) % 16 = a := by omega
  rw [← ha, chunkAt_eq_some hd _ (Nat.mod_lt _ (by decide))]
  rfl

/-- So does the partial chunk of `XORP`. -/
theorem isSome_read_of_paddedChunkAt {d : Byte16} (h : paddedChunkAt m off n = some d) (hlo : off ≤ a)
    (hhi : a < off + n) : (m.read a).isSome = true := by
  obtain ⟨bs, hbs, -⟩ := Option.map_eq_some_iff.1 h
  obtain ⟨hlen, hbytes⟩ := readBytes_eq_some.1 hbs
  have hj : a - off < n := by omega
  rw [← Nat.add_sub_of_le hlo, hbytes _ hj, List.getElem?_eq_getElem (hlen ▸ hj)]
  rfl

variable {x : UnitState} {ls : List Byte16} {c : Config}

/-- Once the checks have passed, `XORD` and `RNDD` wait for a byte of their chunks (45_host_operations R181). -/
theorem takeChunks_waits {f : Byte16 → Byte16 → Byte16} {lane cnt : BitVec 6} (hls : x.lanes = some ls)
    (hrange : 1 ≤ cnt.toNat ∧ lane.toNat + cnt.toNat ≤ c.L) (hbound : x.cur + 16 * cnt.toNat ≤ x.lenl)
    (hlo : x.cur ≤ a) (hhi : a < x.cur + 16 * cnt.toNat) (hread : x.msg.read a = none) :
    takeChunks f lane cnt c x = .wait := by
  rcases takeChunks_completes_or_waits (f := f) hls (rangeLegal_iff.2 hrange) hbound with ⟨y, hy⟩ | ⟨hwait, -⟩
  · obtain ⟨-, -, -, -, ds, hds, -⟩ := takeChunks_eq_done.1 hy
    have hsome := isSome_read_of_chunksAt hds hlo hhi
    rw [hread] at hsome
    cases hsome
  · exact hwait

/-- So does `XORP` for a byte of the partial chunk. -/
theorem xorpEffect_waits {lane : BitVec 6} (hls : x.lanes = some ls) (hlane : lane.toNat < c.L)
    (hbound : x.lenl ≤ x.cur + 15) (hlo : x.cur ≤ a) (hhi : a < x.lenl) (hread : x.msg.read a = none) :
    xorpEffect lane c x = .wait := by
  rcases xorpEffect_completes_or_waits hls hlane (by omega) with ⟨y, hy⟩ | ⟨hwait, -⟩
  · obtain ⟨-, -, -, -, pad, hpad, -⟩ := xorpEffect_eq_done.1 hy
    have hsome := isSome_read_of_paddedChunkAt hpad hlo (by omega)
    rw [hread] at hsome
    cases hsome
  · exact hwait

end Sys2Proof.Machine

namespace Sys2Proof

open Sys2Proof.Machine

/-- Settles O10: the effect waits, and with it the micro-operation. -/
theorem dataOperationWaitsForAnUndeliveredByte : Obligations.DataOperationWaitsForAnUndeliveredByte := by
  rintro s x ls lane cnt a rfl hls hlo hread
  refine ⟨fun hcnt hrange hbound hhi => ?_, fun hlane hbound hhi => ?_⟩
  · have hwait (f) := takeChunks_waits (f := f) hls ⟨hcnt, hrange⟩ hbound hlo hhi hread
    exact ⟨perform_wait (hwait _), perform_wait (hwait _)⟩
  · exact perform_wait (xorpEffect_waits hls hlane hbound hlo hhi hread)

end Sys2Proof
end

section
/-! SUPPORT. A machine with one busy unit runs that unit's sequencer, and a whole digest call: the obligation O58. -/

namespace Sys2Proof.Machine

/-- With nothing pending and the other unit idle, the machine's step is unit `u`'s (44_reference_absorber R166). -/
theorem step_eq_sequencerStep {u : UnitId} {s : State} (hm : s.moves = []) (hidle : (s.unit u.other).busy = false) :
    step s = sequencerStep u s := by
  cases hb : (s.unit u).busy with
  | false =>
    rw [sequencerStep_of_idle hb]
    cases u with
    | opt => exact step_idle hm hb hidle
    | ref => exact step_idle hm hidle hb
  | true =>
    rw [step_nil hm]
    cases u with
    | opt => simp only [onItsOwn, show s.opt.busy = true from hb, show s.ref.busy = false from hidle]
    | ref => simp only [onItsOwn, show s.opt.busy = false from hidle, show s.ref.busy = true from hb]

/-- And so is its run, for as many steps as one likes. -/
theorem core_run_eq_sequencerRun {u : UnitId} (k : Nat) {s : State} (hm : s.moves = [])
    (hidle : (s.unit u.other).busy = false) : core.run k s = sequencerRun u k s := by
  induction k generalizing s with
  | zero => rfl
  | succ k ih =>
    have hcore : core.step s = sequencerStep u s := step_eq_sequencerStep hm hidle
    simp only [Host.Core.run, sequencerRun, hcore]
    cases hs : sequencerStep u s with
    | next t =>
      obtain ⟨hother, -, -, -, -, hmoves, -⟩ := sequencerStep_frame hs
      exact ih (hmoves.trans hm) (hother ▸ hidle)
    | fault f => rfl
    | refused r => rfl

theorem core_run_succ {s t : State} (h : step s = .next t) (k : Nat) : core.run (k + 1) s = core.run k t :=
  run_succ (M := core) h k

section
variable {s : State} {rest : List Move}

theorem step_of_lenLoWrite {v : BitVec 32} (hm : s.moves = .regWrite 0x08 v :: rest) :
    step s = .next { s with moves := rest, lenLo := v } := step_cons hm

theorem step_of_lenHiWrite {v : BitVec 32} (hm : s.moves = .regWrite 0x0C v :: rest) :
    step s = .next { s with moves := rest, lenHi := v } := step_cons hm

/-- The `CTRL` word 1 is `START_OPT` alone (30_encoding R78). -/
theorem step_of_startOptWrite (hm : s.moves = .regWrite 0x00 1 :: rest) :
    step s = .next (({ s with moves := rest } : State).start .opt) := step_cons hm

end

/-- The host's three moves of a digest call begin an invocation of the idle OPT on the length they write, and nothing
is pending after them (45_host_operations R178). -/
theorem digestCall_begins {s : State} {lo hi : BitVec 32}
    (hm : s.moves = [.regWrite 0x08 lo, .regWrite 0x0C hi, .regWrite 0x00 1]) (hb : s.opt.busy = false)
    (hf : s.opt.fault = false) :
    ∃ r : State, (∀ k, core.run (3 + k) s = core.run k r) ∧ r.cfg = s.cfg ∧ r.moves = [] ∧ r.ref = s.ref ∧
      r.opt.JustStarted ∧ r.opt.lenl = hi.toNat * 2 ^ 32 + lo.toNat ∧ r.opt.msg = s.opt.msg := by
  obtain ⟨x, hx, hstart, hlen, hmsg⟩ :=
    start_justStarted (s := { s with moves := [], lenLo := lo, lenHi := hi }) (u := .opt) hf hb
  have hlo := step_of_lenLoWrite hm
  have hhi := step_of_lenHiWrite
    (s := { s with moves := [.regWrite 0x0C hi, .regWrite 0x00 1], lenLo := lo }) rfl
  have hctrl := step_of_startOptWrite (s := { s with moves := [.regWrite 0x00 1], lenLo := lo, lenHi := hi }) rfl
  rw [hx] at hctrl
  refine ⟨({ s with moves := [], lenLo := lo, lenHi := hi } : State).setUnit .opt x, fun k => ?_, rfl, rfl, rfl, hstart,
    hlen, hmsg⟩
  rw [Nat.add_comm, core_run_succ hlo, core_run_succ hhi, core_run_succ hctrl]

end Sys2Proof.Machine

namespace Sys2Proof

open Sys2Proof.Machine

/-- Settles O58: the three moves start OPT, the machine's steps from there are OPT's own, and they deliver the digest
(O55), which the four registers show (O36). -/
theorem digestCallReturnsTheDigest : Obligations.DigestCallReturnsTheDigest := by
  intro s lo hi hc hm hb hf hidle hread
  obtain ⟨r, hrun, hcfg, hmoves, href, hstart, hlen, hmsg⟩ := digestCall_begins hm hb hf
  obtain ⟨t, ht, -, hdone, hfault, -, -, -, hdigest⟩ :=
    optRunDeliversTheClosedFormDigest r (hcfg ▸ hc) hstart (by rwa [hmsg, hlen])
  rw [hcfg, hlen] at ht hdigest
  rw [hmsg] at hdigest
  refine ⟨t, ?_, hdone, hfault, fun k hk => digestWordsHoldTheDigestBytes t .opt _ k hdone hdigest hk⟩
  have hother : (r.unit UnitId.opt.other).busy = false := (congrArg UnitState.busy href).trans hidle
  exact (hrun _).trans ((core_run_eq_sequencerRun _ hmoves hother).trans ht)

end Sys2Proof
end

section
/-! SUPPORT. The fault that a micro-operation's checks find, and the fault that the word's fields name, and the
obligation O6. -/

namespace Sys2Proof.Machine

/-! The cause a micro-operation faults by (60_exceptions R186). -/

/-- The cause of the fault a micro-operation's effect answers, if it answers one. -/
def UopResult.cause : UopResult → Option Cause
  | .fault k => some k
  | .done _ => none
  | .wait => none

theorem cause_done (x : UnitState) : (UopResult.done x).cause = none := rfl

theorem cause_require (ok : Bool) (k : Cause) (r : UopResult) :
    (require ok k r).cause = if ok = true then r.cause else some k := by cases ok <;> rfl

/-- A check that the lanes hold values, whatever they are. -/
theorem cause_withLanes (x : UnitState) (k : List Byte16 → UopResult) :
    (withLanes x k).cause = x.lanes.elim (some .laneNoValue) fun ls => (k ls).cause := by
  unfold withLanes
  cases x.lanes <;> rfl

/-- Waiting for a byte is no fault (45_host_operations R181). -/
theorem cause_withData {α : Type} (data : Option α) (k : α → UopResult) :
    (withData data k).cause = data.elim none fun d => (k d).cause := by cases data <;> rfl

theorem elim_const {α β : Type} (o : Option α) (a b : β) : (o.elim a fun _ => b) = if o = none then a else b := by
  cases o <;> rfl

section
variable {c : Config} {x : UnitState} {lane cnt : BitVec 6}

theorem cause_withLanes_done (k : List Byte16 → UnitState) :
    (withLanes x fun ls => .done (k ls)).cause = if x.lanes = none then some .laneNoValue else none := by
  simp only [cause_withLanes, cause_done, elim_const]

theorem cause_fixedRound (key : Config → Nat → Byte16) :
    (fixedRound key lane cnt c x).cause =
      if 1 ≤ cnt.toNat ∧ lane.toNat + cnt.toNat ≤ c.L then if x.lanes = none then some .laneNoValue else none
      else some .illegalUop := by
  simp only [fixedRound, cause_require, laneRangeLegal_iff, cause_withLanes, cause_done, elim_const]

theorem cause_takeChunks (f : Byte16 → Byte16 → Byte16) :
    (takeChunks f lane cnt c x).cause =
      if 1 ≤ cnt.toNat ∧ lane.toNat + cnt.toNat ≤ c.L then
        if x.lanes = none then some .laneNoValue
        else if x.cur + 16 * cnt.toNat ≤ x.lenl then none else some .readOverrun
      else some .illegalUop := by
  simp only [takeChunks, cause_require, laneRangeLegal_iff, cause_withLanes, cause_withData, cause_done, elim_const,
    ite_self, decide_eq_true_eq]

theorem cause_xorpEffect :
    (xorpEffect lane c x).cause =
      if lane.toNat + 1 ≤ c.L then
        if x.lanes = none then some .laneNoValue
        else if 1 ≤ x.lenl - x.cur ∧ x.lenl - x.cur ≤ 15 then none else some .readOverrun
      else some .illegalUop := by
  simp [xorpEffect, cause_require, laneRangeLegal_iff, cause_withLanes, cause_withData, cause_done, elim_const]

/-! The fault the fields of a word name (30_encoding R70). -/

theorem uopCode_fields (op : Nat) (lane cnt : BitVec 6) : uopCode op lane cnt / 4096 = op ∧
    uopCode op lane cnt / 64 % 64 = lane.toNat ∧ uopCode op lane cnt % 64 = cnt.toNat := by
  have hlane := lane.isLt
  have hcnt := cnt.isLt
  unfold uopCode
  omega

/-- A round makes the first two checks of R186; of the conditions on the word's fields those on other opcodes drop out. -/
theorem faultOfWord_round {op : Nat} (hop : op = 4 ∨ op = 5 ∨ op = 7) (key : Config → Nat → Byte16) :
    faultOfWord c x (uopCode op lane cnt) = (fixedRound key lane cnt c x).cause := by
  obtain ⟨hcode, hlane, hcnt⟩ := uopCode_fields op lane cnt
  rw [cause_fixedRound]
  simp only [faultOfWord, hcode, hlane, hcnt]
  grind

/-- A data micro-operation makes all three. -/
theorem faultOfWord_chunks {op : Nat} (hop : op = 2 ∨ op = 6) (f : Byte16 → Byte16 → Byte16) :
    faultOfWord c x (uopCode op lane cnt) = (takeChunks f lane cnt c x).cause := by
  obtain ⟨hcode, hlane, hcnt⟩ := uopCode_fields op lane cnt
  rw [cause_takeChunks]
  simp only [faultOfWord, hcode, hlane, hcnt]
  grind

theorem faultOfWord_xorp : faultOfWord c x (uopCode 3 lane 1) = (xorpEffect lane c x).cause := by
  obtain ⟨hcode, hlane, hcnt⟩ := uopCode_fields 3 lane 1
  rw [cause_xorpEffect]
  simp only [faultOfWord, hcode, hlane, hcnt]
  grind

/-- FINAL's other micro-operations ask only for lanes that hold values. -/
theorem faultOfWord_lanes {op : Nat} (hop : op = 8 ∨ op = 9 ∨ op = 10) :
    faultOfWord c x (uopCode op 0 0) = if x.lanes = none then some .laneNoValue else none := by
  obtain ⟨hcode, hlane, hcnt⟩ := uopCode_fields op 0 0
  simp only [faultOfWord, hcode, hlane, hcnt]
  rcases hop with rfl | rfl | rfl <;> simp

/-- An opcode that is none of the ten is illegal whatever the other bits. -/
theorem faultOfWord_of_opcode {n : Nat} (hop : n / 4096 = 0 ∨ 11 ≤ n / 4096) :
    faultOfWord c x n = some .illegalUop :=
  if_pos (hop.imp_right Or.inl)

/-- The fault the fields of an instruction's word name is the one its checks find. -/
theorem faultOfWord_encode {i : Instr} (hbits : i.nbits = 16) :
    faultOfWord c x (encode i) = (effectOf i c x).cause := by
  cases i with
  | startOpt | startRef => exact absurd hbits (show ¬32 = 16 by decide)
  | ldseed => rfl
  | xord lane cnt => exact faultOfWord_chunks (by decide) _
  | rndd lane cnt => exact faultOfWord_chunks (by decide) _
  | xorp lane => exact faultOfWord_xorp
  | rndf lane cnt => exact faultOfWord_round (by decide) roundKeyAt
  | rndz lane cnt => exact faultOfWord_round (by decide) fun _ _ => zero16
  | rndk lane cnt => exact faultOfWord_round (by decide) fun c _ => c.fk
  | fold => exact (faultOfWord_lanes (by decide)).trans (cause_withLanes_done _).symm
  | lenx => exact (faultOfWord_lanes (by decide)).trans (cause_withLanes_done _).symm
  | out => exact (faultOfWord_lanes (by decide)).trans (cause_withLanes_done _).symm
  | illegalOp0 rest | reservedOpB rest | reservedOpC rest | reservedOpD rest | reservedOpE rest | reservedOpF rest =>
    have := rest.isLt
    exact faultOfWord_of_opcode (by simp only [encode]; omega)

end

/-! Words that decode to nothing (30_encoding R71, R77). -/

section
variable {w : BitVec 16} {e : DecodeError}

theorem rest_ne_zero_of_decodeU0_error {i : Instr} (h : decodeU0 w i = .error e) : w.toNat % 4096 ≠ 0 := by
  intro hzero
  rw [decodeU0_eq_ok.2 ⟨hzero, rfl⟩] at h
  cases h

theorem cnt_ne_one_of_decodeUL_error {f : BitVec 6 → Instr} (h : decodeUL w f = .error e) : w.toNat % 64 ≠ 1 := by
  unfold decodeUL at h
  split at h
  case isTrue => cases h
  case isFalse hcnt =>
    rw [← BitVec.toNat_inj, cntField_toNat] at hcnt
    exact hcnt

theorem cnt_eq_zero_of_decodeULC_error {f : BitVec 6 → BitVec 6 → Instr} (h : decodeULC w f = .error e) :
    w.toNat % 64 = 0 := by
  unfold decodeULC at h
  split at h
  case isTrue hcnt =>
    rw [← BitVec.toNat_inj, cntField_toNat] at hcnt
    exact hcnt
  case isFalse => cases h

/-- Condition 1 of R186 holds of a word that decodes to nothing, by the format of its opcode. Case `h_2` is opcode
`0x1`, and so on as the decoder lists them. -/
theorem faultOfWord_of_error (h : decodeWord w = .error e) (c : Config) (x : UnitState) :
    faultOfWord c x w.toNat = some .illegalUop := by
  have hop := opField_toNat w
  refine if_pos ?_
  unfold decodeWord at h
  split at h
  case h_2 | h_9 | h_10 | h_11 =>
    have := rest_ne_zero_of_decodeU0_error h
    omega
  case h_4 =>
    have := cnt_ne_one_of_decodeUL_error h
    omega
  case h_3 | h_5 | h_6 | h_7 | h_8 =>
    have := cnt_eq_zero_of_decodeULC_error h
    omega
  all_goals cases h

end

/-! A handed word. -/

theorem laneRangeLegal_eq_rangeLegal (L : Nat) (lane cnt : BitVec 6) :
    laneRangeLegal L lane cnt = rangeLegal L lane cnt := by
  rw [Bool.eq_iff_iff, laneRangeLegal_iff, rangeLegal_iff]

section
variable {c : Config} {lane cnt : BitVec 6}

theorem fixedRound_of_not_rangeLegal (key : Config → Nat → Byte16) (h : rangeLegal c.L lane cnt = false)
    (x : UnitState) : fixedRound key lane cnt c x = .fault .illegalUop := by
  rw [fixedRound, laneRangeLegal_eq_rangeLegal, h, require_false]

theorem takeChunks_of_not_rangeLegal (f : Byte16 → Byte16 → Byte16) (h : rangeLegal c.L lane cnt = false)
    (x : UnitState) : takeChunks f lane cnt c x = .fault .illegalUop := by
  rw [takeChunks, laneRangeLegal_eq_rangeLegal, h, require_false]

theorem xorpEffect_of_not_lane (h : ¬lane.toNat + 1 ≤ c.L) (x : UnitState) :
    xorpEffect lane c x = .fault .illegalUop := by
  have hlane : laneRangeLegal c.L lane 1 = false := by
    rw [Bool.eq_false_iff, ne_eq, laneRangeLegal_iff]
    exact fun hrange => h hrange.2
  rw [xorpEffect, hlane, require_false]

/-- A micro-operation that is illegal on the configuration faults on every unit (30_encoding R77). -/
theorem effectOf_of_not_legalUop {i : Instr} (hi : i.legalUop c.L = false) (x : UnitState) :
    effectOf i c x = .fault .illegalUop := by
  cases i with
  | xord lane cnt | rndd lane cnt => exact takeChunks_of_not_rangeLegal _ hi x
  | rndf lane cnt => exact fixedRound_of_not_rangeLegal roundKeyAt hi x
  | rndz lane cnt => exact fixedRound_of_not_rangeLegal (fun _ _ => zero16) hi x
  | rndk lane cnt => exact fixedRound_of_not_rangeLegal (fun c _ => c.fk) hi x
  | xorp lane => exact xorpEffect_of_not_lane (of_decide_eq_false hi) x
  | ldseed | fold | lenx | out => cases hi
  | _ => rfl

end

section
variable {w : BitVec 16} {c : Config} {x : UnitState}

/-- The datapath raises the fault that R186 names. -/
theorem wordLeaves_of_faultOfWord {k : Cause} (h : faultOfWord c x w.toNat = some k) :
    wordLeaves w c x = flagsFaulted k x := by
  cases hw : decodeWord w with
  | error e =>
    rw [faultOfWord_of_error hw] at h
    cases h
    exact wordLeaves_of_error hw c x
  | ok i =>
    obtain ⟨-, hcode⟩ := encode_of_decodeWord hw
    rw [← hcode, faultOfWord_encode (nbits_of_decodeWord hw)] at h
    rw [wordLeaves_of_ok hw]
    cases he : effectOf i c x <;> rw [he] at h <;> cases h
    rfl

/-- A word for which R186 names no fault is a legal micro-operation, and none of its checks fails. -/
theorem decodes_of_faultOfWord_none (h : faultOfWord c x w.toNat = none) :
    ∃ i, decodeWord w = .ok i ∧ i.legalUop c.L = true ∧ (effectOf i c x).cause = none := by
  cases hw : decodeWord w with
  | error e => rw [faultOfWord_of_error hw] at h; cases h
  | ok i =>
    obtain ⟨-, hcode⟩ := encode_of_decodeWord hw
    rw [← hcode, faultOfWord_encode (nbits_of_decodeWord hw)] at h
    refine ⟨i, rfl, ?_, h⟩
    by_contra hillegal
    rw [effectOf_of_not_legalUop (Bool.not_eq_true _ ▸ hillegal)] at h
    cases h

end

theorem raise_setActive (s : State) (u : UnitId) (k : Cause) :
    ({ s with active := u } : State).raise u k =
      ({ s with active := u } : State).setUnit u (flagsFaulted k (s.unit u)) :=
  congrArg (fun x => ({ s with active := u } : State).setUnit u (flagsFaulted k x)) (unit_active s u u)

/-- A completed micro-operation leaves fault and cause alone, `OUT` too (42_finalize_ops R122). -/
theorem effectOf_done_keepsFault {i : Instr} {c : Config} {x y : UnitState} (h : effectOf i c x = .done y) :
    y.fault = x.fault ∧ y.fcause = x.fcause := by
  rcases effectOf_eq_done h with w | ⟨ls, -, rfl⟩
  · obtain ⟨-, -, hfault, hcause, -⟩ := w.keepsFlagsAndDigest
    exact ⟨hfault, hcause⟩
  · exact ⟨rfl, rfl⟩

theorem leaves_keepsFault {i : Instr} {c : Config} {x : UnitState} (h : (effectOf i c x).cause = none) :
    ((effectOf i c x).leaves x).fault = x.fault ∧ ((effectOf i c x).leaves x).fcause = x.fcause := by
  cases he : effectOf i c x with
  | done y =>
    obtain ⟨hfault, hfcause⟩ := effectOf_done_keepsFault he
    exact ⟨hfault, hfcause⟩
  | fault k => rw [he] at h; cases h
  | wait => exact ⟨rfl, rfl⟩

end Sys2Proof.Machine

namespace Sys2Proof

open Sys2Proof.Machine

/-- Settles O6: the fault the fields name is the one the decoded micro-operation's checks find, and without one it
completes or waits. -/
theorem handedWordFaultsInTheOrderOfTheRule : Obligations.HandedWordFaultsInTheOrderOfTheRule := by
  intro s u w
  split
  next k hk =>
    rw [handWord_eq_wordLeaves, wordLeaves_of_faultOfWord hk]
    exact congrArg Host.Outcome.next (raise_setActive s u k).symm
  next hnone =>
    obtain ⟨i, hw, hlegal, hcause⟩ := decodes_of_faultOfWord_none hnone
    obtain ⟨hfault, hfcause⟩ := leaves_keepsFault hcause
    have hexec : exec i { s with active := u } =
        .next (({ s with active := u } : State).setUnit u ((effectOf i s.cfg (s.unit u)).leaves (s.unit u))) := by
      rw [exec_eq_perform_effectOf (nbits_of_decodeWord hw), perform_eq_setUnit_leaves, unit_active]
    refine ⟨i, _, hw, hlegal, handWord_of_ok s hw, hexec, ?_, ?_⟩
    · rw [unit_setUnit, hfault]
    · rw [unit_setUnit, hfcause]

end Sys2Proof
end

section
/-! SUPPORT. Fault entry, the tail check and a start command that finds its unit busy or faulted, and the obligations
O25, O26 and O31. -/

namespace Sys2Proof.Machine

/-! The tail check (43_sequencer_optimized R138, 60_exceptions R187). -/

theorem issue_of_tailEntry {c : Config} {x : UnitState} (hp : x.seq.point = .tailEntry) :
    issue .opt c x = issueTail c x.cur x.lenl x.seq := by simp only [issue, optIssue, hp]

/-- Past the tail check the sequencer has a micro-operation to issue, on any configuration. -/
theorem issueGroup_eq_uop (c : Config) (lenl : Nat) (q : SeqRegs) : ∃ i q', issueGroup c lenl q = .uop i q' := by
  unfold issueGroup
  split
  · exact ⟨_, _, rfl⟩
  · obtain ⟨i, q', hi, -⟩ := issueSingle_issues (c := c) (lenl := lenl) q
    exact ⟨i, q', hi⟩

theorem issueFinal_ne_fault (q : SeqRegs) (k : Cause) : issueFinal q ≠ .fault k := by
  unfold issueFinal
  split <;> exact Issue.noConfusion

/-- REF's sequencer raises no fault: it has no tail stage (44_reference_absorber R160). -/
theorem refIssue_ne_fault (c : Config) (lenl : Nat) (q : SeqRegs) (k : Cause) : refIssue c lenl q ≠ .fault k := by
  unfold refIssue
  split
  case h_6 => exact issueFinal_ne_fault q k
  all_goals exact Issue.noConfusion

/-! A start command as a function of one unit (45_host_operations R171). -/

/-- The unit `x` after its start command, the length registers holding `len`. -/
def startLeaves (len : Nat) (x : UnitState) : UnitState :=
  if x.fault then x
  else if x.busy then flagsFaulted .hostProtocol x
  else flagsStarted { x with
    lenl := len, cur := 0, upc := 0, lanes := none, digest := none, seq := { x.seq with point := .init } }

theorem start_eq_startLeaves (s : State) (u : UnitId) : s.start u = s.setUnit u (startLeaves s.len (s.unit u)) := by
  rcases start_cases s u with ⟨hf, he⟩ | ⟨hf, hb, he⟩ | ⟨hf, hb, he⟩ <;> rw [he]
  · rw [startLeaves, if_pos hf, setUnit_unit]
  · rw [startLeaves, if_neg (by rw [hf]; decide), if_pos hb]
    rfl
  · rw [startLeaves, if_neg (by rw [hf]; decide), if_neg (by rw [hb]; decide)]

/-- Both start commands, one after the other, are each its own unit's (60_exceptions R189). -/
theorem start_start (s : State) :
    (s.start .opt).start .ref = { s with opt := (s.start .opt).opt, ref := (s.start .ref).ref } := by
  simp only [start_eq_startLeaves, setUnit_len]
  rfl

end Sys2Proof.Machine

namespace Sys2Proof

open Sys2Proof.Machine

/-- Settles O25: `raise` writes three flags, and a unit that is faulted and not busy neither steps nor starts. -/
theorem faultEntryWritesOnlyTheFlags : Obligations.FaultEntryWritesOnlyTheFlags := by
  intro s u k
  have hidle : ((s.raise u k).unit u).busy = false := by rw [unit_raise, flagsFaulted_busy]
  have hfault : ((s.raise u k).unit u).fault = true := by rw [unit_raise, flagsFaulted_fault]
  exact ⟨rfl, rfl, rfl, rfl, rfl, rfl, (SameMessages.raise s u k).unchanged, sequencerStep_of_idle hidle,
    start_of_fault hfault⟩

/-- Settles O26: the entry of the tail stage is a comparison, and past it each branch of the stage issues. -/
theorem tailEntryChecksTheBound : Obligations.TailEntryChecksTheBound := by
  intro s hb hp
  have hissue := issue_of_tailEntry (c := s.cfg) hp
  refine ⟨fun hpast => ?_, fun hwithin => ?_, refIssue_ne_fault s.cfg s.ref.lenl s.ref.seq⟩
  · have hfault : issue .opt s.cfg s.opt = .fault .tailBound := by rw [hissue, issueTail, superBlock, if_pos hpast]
    exact sequencerStep_of_fault (u := .opt) hb hfault
  · rw [hissue, issueTail, superBlock, if_neg (Nat.not_le.2 hwithin)]
    exact issueGroup_eq_uop ..

/-- Settles O31: each command by the flags of its unit, which the other unit's command leaves alone. -/
theorem startOfABusyOrFaultedUnit : Obligations.StartOfABusyOrFaultedUnit := fun s _ =>
  ⟨fun hf => congrArg Host.Outcome.next (start_of_fault (u := .opt) hf),
    fun hf => congrArg Host.Outcome.next (start_of_fault (u := .ref) hf),
    fun hf hb => congrArg Host.Outcome.next (start_of_busy (u := .opt) hf hb),
    fun hf hb => congrArg Host.Outcome.next (start_of_busy (u := .ref) hf hb),
    _, _, _, rfl, rfl, rfl, start_start s⟩

end Sys2Proof
end

section
/-! SUPPORT. What a step does to a unit's fault and to its cause, for every move and for the moves of the complete
hardware, and the obligations O27 and O44. -/

namespace Sys2Proof.Machine

/-! One unit. -/

/-- From `x` to `y` the fault and its cause stay, or a fault is taken whose cause is one of `causes` (60_exceptions
R188). -/
inductive FaultsBy (causes : Cause → Prop) (x y : UnitState) : Prop
  | keeps (hfault : y.fault = x.fault) (hcause : y.fcause = x.fcause)
  | takes (k : Cause) (hk : causes k) (hfault : y.fault = true)
      (hcause : y.fcause = if x.fault then x.fcause else causeCode k)

namespace FaultsBy

variable {causes : Cause → Prop} {x y z : UnitState}

theorem refl (x : UnitState) : FaultsBy causes x x := .keeps rfl rfl

theorem mono {causes' : Cause → Prop} (hle : ∀ k, causes k → causes' k) (h : FaultsBy causes x y) :
    FaultsBy causes' x y := by
  cases h with
  | keeps hfault hcause => exact .keeps hfault hcause
  | takes k hk hfault hcause => exact .takes k (hle k hk) hfault hcause

/-- Faults do not nest: the first cause stays (R192). -/
theorem trans (h : FaultsBy causes x y) (h' : FaultsBy causes y z) : FaultsBy causes x z := by
  cases h with
  | keeps hfault hcause =>
    cases h' with
    | keeps hfault' hcause' => exact .keeps (hfault'.trans hfault) (hcause'.trans hcause)
    | takes k hk hfault' hcause' => exact .takes k hk hfault' (by rw [hcause', hfault, hcause])
  | takes k hk hfault hcause =>
    cases h' with
    | keeps hfault' hcause' => exact .takes k hk (hfault'.trans hfault) (hcause'.trans hcause)
    | takes k' _ hfault' hcause' => exact .takes k hk hfault' (by rw [hcause', if_pos hfault, hcause])

theorem flagsFaulted {k : Cause} (hk : causes k) (x : UnitState) : FaultsBy causes x (Machine.flagsFaulted k x) :=
  .takes k hk rfl rfl

/-- A fault that is there stays, with its cause. -/
theorem stays (h : FaultsBy causes x y) (hx : x.fault = true) : y.fault = true ∧ y.fcause = x.fcause := by
  cases h with
  | keeps hfault hcause => exact ⟨hfault.trans hx, hcause⟩
  | takes k _ hfault hcause => exact ⟨hfault, by rw [hcause, if_pos hx]⟩

/-- A fault that is new has one of the causes. -/
theorem cause_of_new (h : FaultsBy causes x y) (hx : x.fault = false) (hy : y.fault = true) :
    ∃ k, causes k ∧ y.fcause = causeCode k := by
  cases h with
  | keeps hfault _ => rw [hfault, hx] at hy; cases hy
  | takes k hk _ hcause => exact ⟨k, hk, by rw [hcause, hx]; rfl⟩

/-- Without causes no fault is new. -/
theorem not_new (h : FaultsBy (fun _ => False) x y) (hx : x.fault = false) : ¬y.fault = true := fun hy => by
  obtain ⟨k, hk, -⟩ := h.cause_of_new hx hy
  exact hk

theorem of_done {i : Instr} {c : Config} (h : effectOf i c x = .done y) : FaultsBy causes x y := by
  obtain ⟨hfault, hcause⟩ := effectOf_done_keepsFault h
  exact .keeps hfault hcause

theorem wordLeaves (w : BitVec 16) (c : Config) (x : UnitState) :
    FaultsBy (fun _ => True) x (Machine.wordLeaves w c x) := by
  cases hw : decodeWord w with
  | error e => exact wordLeaves_of_error hw c x ▸ flagsFaulted trivial x
  | ok i =>
    rw [wordLeaves_of_ok hw]
    cases he : effectOf i c x with
    | done y => exact (of_done he).trans (.keeps rfl rfl)
    | fault k => exact flagsFaulted trivial x
    | wait => exact refl x

theorem advanced (q : SeqRegs) (x y : UnitState) : FaultsBy causes y (Machine.advanced q x y) := by
  unfold Machine.advanced
  split
  · exact .keeps rfl rfl
  · exact refl y

end FaultsBy

/-! Both units. -/

/-- From `s` to `t` no unit's fault is cleared or changed, and a fault that is taken has one of `causes`. -/
def AllFaultsBy (causes : Cause → Prop) (s t : State) : Prop := ∀ u, FaultsBy causes (s.unit u) (t.unit u)

namespace AllFaultsBy

variable {causes : Cause → Prop} {s t : State}

theorem mono {causes' : Cause → Prop} (hle : ∀ k, causes k → causes' k) (h : AllFaultsBy causes s t) :
    AllFaultsBy causes' s t := fun u => (h u).mono hle

theorem trans {r : State} (h : AllFaultsBy causes r s) (h' : AllFaultsBy causes s t) : AllFaultsBy causes r t :=
  fun u => (h u).trans (h' u)

/-- The fields beside the two units play no part. -/
theorem of_units (h : ∀ u, t.unit u = s.unit u) : AllFaultsBy causes s t := fun u => by
  rw [h u]
  exact .refl _

theorem refl (s : State) : AllFaultsBy causes s s := of_units fun _ => rfl

theorem setUnit {u : UnitId} {x : UnitState} (hx : FaultsBy causes (s.unit u) x) :
    AllFaultsBy causes s (s.setUnit u x) := by
  intro v
  rcases eq_or_ne v u with rfl | hv
  · rwa [unit_setUnit]
  · rw [unit_setUnit_of_ne s x hv]
    exact .refl _

theorem setActive_setUnit {v u : UnitId} {x : UnitState} (hx : FaultsBy causes (s.unit u) x) :
    AllFaultsBy causes s (({ s with active := v } : State).setUnit u x) :=
  (of_units (unit_active s v)).trans (setUnit (by rwa [unit_active]))

/-- A start command raises `HOST_PROTOCOL` or nothing (60_exceptions R189). -/
theorem start (s : State) (u : UnitId) : AllFaultsBy (· = .hostProtocol) s (s.start u) := by
  rcases start_cases s u with ⟨-, he⟩ | ⟨-, -, he⟩ | ⟨-, -, he⟩ <;> rw [he]
  · exact refl s
  · exact setUnit (.takes .hostProtocol rfl rfl rfl)
  · exact setUnit (.keeps rfl rfl)

theorem ctrlWrite {v : BitVec 32} (h : ctrlWrite v s = .next t) : AllFaultsBy (· = .hostProtocol) s t := by
  rcases ctrlWrite_cases v s with he | he | he | he <;> rw [he] at h <;> cases h
  · exact refl s
  · exact start s .opt
  · exact (start s .opt).trans (start _ .ref)
  · exact start s .ref

theorem regWrite {off : BitVec 7} {v : BitVec 32} (h : regWrite off v s = .next t) :
    AllFaultsBy (· = .hostProtocol) s t := by
  rcases regWrite_command_or_units h with ⟨-, hctrl⟩ | hunits
  · exact ctrlWrite hctrl
  · exact of_units hunits

theorem regRead {off : BitVec 7} (h : regRead off s = .next t) : AllFaultsBy causes s t := by
  obtain ⟨v, n, rfl⟩ := regRead_eq_next h
  exact of_units fun u => by cases u <;> rfl

theorem placeByte {u : UnitId} {off : BitVec 64} {b : Byte} (h : placeByte u off b s = .next t) :
    AllFaultsBy causes s t := by
  rw [placeByte_eq_next h]
  exact setUnit (.keeps rfl rfl)

theorem handWord {u : UnitId} {w : BitVec 16} (h : handWord u w s = .next t) : AllFaultsBy (fun _ => True) s t := by
  rw [handWord_eq_wordLeaves] at h
  cases h
  exact setActive_setUnit (.wordLeaves ..)

theorem sequencerStep {u : UnitId} (h : sequencerStep u s = .next t) : AllFaultsBy (fun _ => True) s t := by
  rcases sequencerStep_cases u s with ⟨-, he⟩ | ⟨-, k, -, he⟩ | ⟨-, -, he⟩ | ⟨hb, i, q, hi, -⟩
  case inr.inr.inr =>
    rw [sequencerStep_of_uop hb hi] at h
    cases h
    exact setActive_setUnit ((FaultsBy.wordLeaves ..).trans (.advanced ..))
  all_goals rw [he] at h; cases h
  · exact refl s
  · exact setUnit (.flagsFaulted trivial _)

/-- Every move but reset keeps the faults that are there (60_exceptions R192). -/
theorem act {m : Move} (hr : m ≠ .reset) (h : act m s = .next t) : AllFaultsBy (fun _ => True) s t := by
  cases m with
  | reset => exact absurd rfl hr
  | regWrite off v => exact (regWrite h).mono fun _ _ => trivial
  | regRead off => exact regRead h
  | sequence u => exact sequencerStep h
  | hand u w =>
    simp only [Machine.act] at h
    split at h
    · exact handWord h
    · cases h; exact refl _
  | place u off b => exact placeByte h

theorem onItsOwn (h : onItsOwn s = .next t) : AllFaultsBy (fun _ => True) s t := by
  rcases onItsOwn_eq_next h with rfl | ⟨u, n, hu⟩
  · exact refl t
  · exact (of_units (unit_draws s n)).trans (sequencerStep hu)

end AllFaultsBy

/-! The complete hardware: each busy unit stands in its schedule (60_exceptions R193). -/

/-- The model stops with a fault at a sequencer's turn only. -/
theorem act_eq_fault {m : Move} {s : State} {f : Fault} (h : act m s = .fault f) :
    ∃ u, m = .sequence u ∧ sequencerStep u s = .fault f := by
  cases m with
  | sequence u => exact ⟨u, rfl, h⟩
  | regWrite off v =>
    simp only [act, regWrite] at h
    split at h
    · split at h
      · rw [ctrlWrite_eq_startIf] at h; cases h
      all_goals cases h
    · cases h
  | regRead off =>
    simp only [act, regRead] at h
    split at h
    · split at h <;> cases h
    · cases h
  | hand u w =>
    simp only [act, handWord_eq_wordLeaves] at h
    split at h <;> cases h
  | place u off b =>
    simp only [act, placeByte] at h
    split at h <;> cases h
  | reset => cases h

theorem onItsOwn_eq_fault {s : State} {f : Fault} (h : onItsOwn s = .fault f) :
    ∃ u n, sequencerStep u { s with draws := n } = .fault f := by
  by_cases hb : s.opt.busy = true ∨ s.ref.busy = true
  · obtain ⟨u, n, -, -, he⟩ := onItsOwn_of_busy hb
    exact ⟨u, n, he ▸ h⟩
  · simp only [not_or, Bool.not_eq_true] at hb
    obtain ⟨hopt, href⟩ := hb
    simp only [onItsOwn, hopt, href] at h
    cases h

/-- A unit on schedule steps to a next state and takes no fault: its words are legal, its lanes hold values, its bytes
are left and its tail check passes. -/
theorem sequencerStep_takes_none {s : State} (hc : s.cfg.Valid) (h : s.AllPlaced) (u : UnitId) :
    ∃ t, sequencerStep u s = .next t ∧ AllFaultsBy (fun _ => False) s t := by
  cases hb : (s.unit u).busy
  · exact ⟨s, sequencerStep_of_idle hb, .refl s⟩
  · obtain ⟨i, q, -, -, ⟨y, he, hstep⟩ | ⟨-, hstep⟩⟩ := sequencerStep_moves_or_waits hc hb (h u).onSchedule
    · exact ⟨_, hstep, .setActive_setUnit ((FaultsBy.of_done he).trans (.keeps rfl rfl))⟩
    · exact ⟨_, hstep, .of_units (unit_active s u)⟩

section
variable {s t : State} {m : Move}

theorem act_ne_fault (hc : s.cfg.Valid) (h : s.AllPlaced) (m : Move) (f : Fault) : act m s ≠ .fault f := by
  intro hact
  obtain ⟨u, -, hstep⟩ := act_eq_fault hact
  obtain ⟨t, ht, -⟩ := sequencerStep_takes_none hc h u
  cases ht.symm.trans hstep

theorem onItsOwn_ne_fault (hc : s.cfg.Valid) (h : s.AllPlaced) (f : Fault) : onItsOwn s ≠ .fault f := by
  intro hown
  obtain ⟨u, n, hstep⟩ := onItsOwn_eq_fault hown
  obtain ⟨t, ht, -⟩ := sequencerStep_takes_none (s := { s with draws := n }) hc (h.of_units rfl rfl rfl) u
  cases ht.symm.trans hstep

/-- A new fault after a move of the complete hardware is `HOST_PROTOCOL`, and the move is a write to `CTRL`. -/
theorem act_takes_hostProtocol (hm : m.ofHardware = true) (hc : s.cfg.Valid) (h : s.AllPlaced) (hs : act m s = .next t)
    {u : UnitId} (hx : (s.unit u).fault = false) (hy : (t.unit u).fault = true) :
    (t.unit u).fcause = causeCode .hostProtocol ∧ ∃ v, m = .regWrite 0 v := by
  cases m with
  | hand u w => cases hm
  | regWrite off v =>
    rcases regWrite_command_or_units hs with ⟨rfl, hctrl⟩ | hunits
    · obtain ⟨k, rfl, hcause⟩ := (AllFaultsBy.ctrlWrite hctrl u).cause_of_new hx hy
      exact ⟨hcause, v, rfl⟩
    · exact ((AllFaultsBy.of_units hunits u).not_new hx hy).elim
  | regRead off => exact ((AllFaultsBy.regRead hs u).not_new hx hy).elim
  | sequence v =>
    obtain ⟨t', ht', hnone⟩ := sequencerStep_takes_none hc h v
    cases ht'.symm.trans hs
    exact ((hnone u).not_new hx hy).elim
  | place v off b => exact ((AllFaultsBy.placeByte hs u).not_new hx hy).elim
  | reset =>
    cases hs
    cases u <;> cases hy

theorem onItsOwn_takes_none (hc : s.cfg.Valid) (h : s.AllPlaced) (hs : onItsOwn s = .next t) :
    AllFaultsBy (fun _ => False) s t := by
  rcases onItsOwn_eq_next hs with rfl | ⟨u, n, hu⟩
  · exact .refl t
  · obtain ⟨t', ht', hnone⟩ := sequencerStep_takes_none (s := { s with draws := n }) hc (h.of_units rfl rfl rfl) u
    cases ht'.symm.trans hu
    exact (AllFaultsBy.of_units (unit_draws s n)).trans hnone

end

end Sys2Proof.Machine

namespace Sys2Proof

open Sys2Proof.Machine

/-- Settles O27: a step is the first pending move or a busy unit's own step, and each but reset keeps the faults that
are there. -/
theorem onlyResetClearsAFault : Obligations.OnlyResetClearsAFault := by
  intro s t u hs hx hreset
  cases hm : s.moves with
  | nil => exact (AllFaultsBy.onItsOwn (step_nil hm ▸ hs) u).stays hx
  | cons m rest =>
    simp only [hm, List.head?_cons, ne_eq, Option.some.injEq] at hreset
    have hact := AllFaultsBy.act hreset (step_cons hm ▸ hs) u
    rw [unit_moves] at hact
    exact hact.stays hx

/-- Settles O44: units on schedule take no fault and never find the schedule exhausted, which leaves the start
commands. -/
theorem runningHardwareRaisesOnlyHostProtocol : Obligations.RunningHardwareRaisesOnlyHostProtocol := by
  intro s hrun hhardware
  obtain ⟨⟨hc, -⟩, hplaced⟩ := running_iff.1 hrun
  cases hm : s.moves with
  | nil =>
    rw [step_nil hm]
    refine ⟨onItsOwn_ne_fault hc hplaced, fun t u hs hx hy => ?_⟩
    exact ((onItsOwn_takes_none hc hplaced hs u).not_new hx hy).elim
  | cons m rest =>
    rw [step_cons hm]
    have hrest : ({ s with moves := rest } : State).AllPlaced := hplaced.of_units rfl rfl rfl
    refine ⟨act_ne_fault (s := { s with moves := rest }) hc hrest m, fun t u hs hx hy => ?_⟩
    obtain ⟨hcause, v, rfl⟩ := act_takes_hostProtocol (s := { s with moves := rest })
      (hhardware m (by rw [hm, List.head?_cons])) hc hrest hs (by rwa [unit_moves]) hy
    exact ⟨hcause, v, rest, rfl⟩

end Sys2Proof
end

section
/-! SUPPORT. Reset in any state and the presentation of a message byte: the obligations O28 and O40. -/

namespace Sys2Proof.Machine

@[simp] theorem resetNow_unit (s : State) (u : UnitId) : s.resetNow.unit u = UnitState.resetWith (s.unit u).msg := by
  cases u <;> rfl

theorem placeByte_of_busy {s : State} {u : UnitId} (h : (s.unit u).busy = true) (off : BitVec 64) (b : Byte) :
    placeByte u off b s = .refused .messageWhileBusy := by
  rw [placeByte, if_pos h]

theorem placeByte_of_idle {s : State} {u : UnitId} (h : (s.unit u).busy = false) (off : BitVec 64) (b : Byte) :
    placeByte u off b s = .next (s.setUnit u { s.unit u with msg := (s.unit u).msg.write off.toNat b }) := by
  rw [placeByte, if_neg (by rw [h]; decide)]

end Sys2Proof.Machine

namespace Sys2Proof

open Sys2Proof.Machine

/-- Settles O28: the step takes the pending reset, and each unit after it is `UnitState.resetWith` of its message. -/
theorem resetLeavesTheStatedValues : Obligations.ResetLeavesTheStatedValues := by
  intro s rest hm
  have popped : SameMessages s { s with moves := rest } := .of_units rfl rfl
  refine ⟨({ s with moves := rest } : State).resetNow, step_cons hm, resetNow_cfg _, resetNow_lenLo _, resetNow_lenHi _,
    resetNow_moves _, fun u => ?_, (popped.trans (.resetNow _)).unchanged⟩
  rw [resetNow_unit]
  exact ⟨rfl, rfl, rfl, rfl, rfl, rfl⟩

/-- Settles O40: the message after the move is `Message.write` at an offset that 64 bits hold. -/
theorem messageBytesArePresentedToIdleUnits : Obligations.MessageBytesArePresentedToIdleUnits := by
  intro s u off b
  refine ⟨fun hbusy => placeByte_of_busy hbusy off b, fun hidle => ?_⟩
  exact ⟨(s.unit u).msg.write off.toNat b, placeByte_of_idle hidle off b, read_write_same ..,
    fun _ ha => read_write_of_ne _ b ha, write_keeps_wf b off.isLt⟩

end Sys2Proof
end
